-- ==== Sys2Proof/Word.lean ====
section
/-! DEFINITION. The word types of Tiny RISC-V: every x register, address and result is a 32-bit vector
(00_scope.md section 6.1, 10_state.md R20), memory is bytes (R39), a register specifier is a 5-bit field (R20)
and a CSR number a 12-bit one (R28). -/

namespace Sys2Proof

/-- A 32-bit value: a register, an address, an instruction word (10_state.md R20, R24; 30_encoding.md R80). -/
abbrev Word := BitVec 32

/-- One byte of memory (10_state.md R39). -/
abbrev Byte := BitVec 8

/-- A register specifier: any of its 32 values names a register (10_state.md R20). -/
abbrev RegIdx := BitVec 5

/-- A CSR number (10_state.md R28). -/
abbrev CsrNum := BitVec 12

end Sys2Proof
end

