-- ==== Sys2Proof/Config.lean ====
section
/-! DEFINITION. What the architecture fixes (00_scope.md R8) as constants, and what it leaves open (R9) as the fields
of `Config`. A `Config` stands in the state, no instruction changes it (10_state.md R42), and so every statement about
every state holds for every value of these parameters. -/

namespace Sys2Proof

/-- The two versions of the ISA (00_scope.md R2, R3). -/
inductive IsaVersion where
  | tinyRV1
  | tinyRV2
deriving DecidableEq, Repr

/-- `END_OF_RUN`, the open parameter that says when a run is over (70_reset_and_hazards.md R252): a predicate on the state that
the model's user supplies, the three instances R252 offers, and none. DESIGN CHOICE (notes/assumptions/8.md): the configuration
says which of these as plain data; the predicate itself is `endOfRunPredicate`, or the argument of `stepUnder`. -/
inductive EndOfRun where
  /-- Nothing ends a run. -/
  | never
  /-- R252 (1): control has reached a chosen address. -/
  | atPc (haltPc : Word)
  /-- R252 (2): the processor has appended this many words to `proc2mngr_q`. -/
  | afterWords (n : Nat)
  /-- R252 (3): the next instruction is `jal x0, 0`. -/
  | selfLoop
  /-- R252: the user's own predicate on the state holds. -/
  | predicate
deriving DecidableEq, Repr

/-- The parameters of 00_scope.md R9 that stay fixed for a run (10_state.md R42). A depth of `none` is unbounded. -/
structure Config where
  /-- `ISA_VERSION` (00_scope.md R3). -/
  isaVersion : IsaVersion
  /-- `NUM_CORES`, what CSR `numcores` reads as (10_state.md R35). -/
  numCores : Word
  /-- `CORE_ID`, what CSR `coreid` reads as (10_state.md R32). -/
  coreId : Word
  /-- `MNGR2PROC_DEPTH` (10_state.md R33). -/
  mngr2procDepth : Option Nat
  /-- `PROC2MNGR_DEPTH` (10_state.md R34). -/
  proc2mngrDepth : Option Nat
  /-- `END_OF_RUN` (70_reset_and_hazards.md R252). -/
  endOfRun : EndOfRun
deriving DecidableEq, Repr

/-- The ranges 00_scope.md R9 gives the parameters: at least one core, a core id below the number of cores, and depths
of at least one word. -/
def Config.legal (c : Config) : Bool :=
  decide (0 < c.numCores.toNat) && decide (c.coreId.toNat < c.numCores.toNat) &&
    c.mngr2procDepth.all (fun d => decide (1 ≤ d)) && c.proc2mngrDepth.all (fun d => decide (1 ≤ d))

/-- One TinyRV2 core with unbounded FIFOs and no end of run: the values `State.reset` takes.
DESIGN CHOICE (notes/assumptions/1.md, 2.md, 3.md, 8.md), unsafe. -/
def Config.single : Config where
  isaVersion := .tinyRV2
  numCores := 1#32
  coreId := 0#32
  mngr2procDepth := none
  proc2mngrDepth := none
  endOfRun := .never

/-- The number of bytes of memory: addresses 0x00000000 to 0x000fffff (20_memory.md R50). -/
abbrev memBytes : Nat := 0x100000

/-- Where execution starts (20_memory.md R60, 70_reset_and_hazards.md R240). -/
abbrev resetVector : Word := 0x00000200#32

/-- CSR `proc2mngr` (10_state.md R28). -/
abbrev csrProc2mngr : CsrNum := 0x7C0#12
/-- CSR `stats_en` (10_state.md R28). -/
abbrev csrStatsEn : CsrNum := 0x7C1#12
/-- CSR `mngr2proc` (10_state.md R28). -/
abbrev csrMngr2proc : CsrNum := 0xFC0#12
/-- CSR `numcores` (10_state.md R28). -/
abbrev csrNumcores : CsrNum := 0xFC1#12
/-- CSR `coreid` (10_state.md R28). -/
abbrev csrCoreid : CsrNum := 0xF14#12

end Sys2Proof
end

