-- ==== Sys2Proof/Syntax.lean ====
section
/-! DEFINITION. The instructions of Tiny RISC-V, one constructor for each row of spec/opcode_table.json in its order.
Operands are the fields of the word (30_encoding.md R81 to R91), in the order of the assembly line of R102;
a branch or jump offset is the signed byte offset with its bit 0, which every encoding makes 0 (R87, R89). -/

namespace Sys2Proof

/-- One Tiny RISC-V instruction (30_encoding.md R94). -/
inductive Instr where
  /-- `csrr rd, csr` (R120). -/
  | csrr (rd : RegIdx) (csr : CsrNum)
  /-- `csrw csr, rs1` (R121). -/
  | csrw (csr : CsrNum) (rs1 : RegIdx)
  /-- `add rd, rs1, rs2` (R131). -/
  | add (rd rs1 rs2 : RegIdx)
  /-- `sub rd, rs1, rs2` (R132). -/
  | sub (rd rs1 rs2 : RegIdx)
  /-- `and rd, rs1, rs2` (R133). -/
  | and (rd rs1 rs2 : RegIdx)
  /-- `or rd, rs1, rs2` (R134). -/
  | or (rd rs1 rs2 : RegIdx)
  /-- `xor rd, rs1, rs2` (R135). -/
  | xor (rd rs1 rs2 : RegIdx)
  /-- `slt rd, rs1, rs2` (R136). -/
  | slt (rd rs1 rs2 : RegIdx)
  /-- `sltu rd, rs1, rs2` (R137). -/
  | sltu (rd rs1 rs2 : RegIdx)
  /-- `sra rd, rs1, rs2` (R138). -/
  | sra (rd rs1 rs2 : RegIdx)
  /-- `srl rd, rs1, rs2` (R139). -/
  | srl (rd rs1 rs2 : RegIdx)
  /-- `sll rd, rs1, rs2` (R140). -/
  | sll (rd rs1 rs2 : RegIdx)
  /-- `mul rd, rs1, rs2` (R141). -/
  | mul (rd rs1 rs2 : RegIdx)
  /-- `addi rd, rs1, imm` (R151). -/
  | addi (rd rs1 : RegIdx) (imm : BitVec 12)
  /-- `andi rd, rs1, imm` (R152). -/
  | andi (rd rs1 : RegIdx) (imm : BitVec 12)
  /-- `ori rd, rs1, imm` (R153). -/
  | ori (rd rs1 : RegIdx) (imm : BitVec 12)
  /-- `xori rd, rs1, imm` (R154). -/
  | xori (rd rs1 : RegIdx) (imm : BitVec 12)
  /-- `slti rd, rs1, imm` (R155). -/
  | slti (rd rs1 : RegIdx) (imm : BitVec 12)
  /-- `sltiu rd, rs1, imm` (R156). -/
  | sltiu (rd rs1 : RegIdx) (imm : BitVec 12)
  /-- `srai rd, rs1, imm`, a 5-bit amount (R157). -/
  | srai (rd rs1 : RegIdx) (shamt : BitVec 5)
  /-- `srli rd, rs1, imm`, a 5-bit amount (R158). -/
  | srli (rd rs1 : RegIdx) (shamt : BitVec 5)
  /-- `slli rd, rs1, imm`, a 5-bit amount (R159). -/
  | slli (rd rs1 : RegIdx) (shamt : BitVec 5)
  /-- `lui rd, imm`, the raw 20-bit field (R160). -/
  | lui (rd : RegIdx) (imm : BitVec 20)
  /-- `auipc rd, imm`, the raw 20-bit field (R161). -/
  | auipc (rd : RegIdx) (imm : BitVec 20)
  /-- `lw rd, imm(rs1)` (R170). -/
  | lw (rd : RegIdx) (imm : BitVec 12) (rs1 : RegIdx)
  /-- `sw rs2, imm(rs1)` (R171). -/
  | sw (rs2 : RegIdx) (imm : BitVec 12) (rs1 : RegIdx)
  /-- `jal rd, imm`, the byte offset (R180). -/
  | jal (rd : RegIdx) (offset : BitVec 21)
  /-- `jr rs1`, a real instruction of TinyRV1 only (R181). -/
  | jr (rs1 : RegIdx)
  /-- `jalr rd, rs1, imm` (R182). -/
  | jalr (rd rs1 : RegIdx) (imm : BitVec 12)
  /-- `beq rs1, rs2, imm`, the byte offset (R191). -/
  | beq (rs1 rs2 : RegIdx) (offset : BitVec 13)
  /-- `bne rs1, rs2, imm`, the byte offset (R192). -/
  | bne (rs1 rs2 : RegIdx) (offset : BitVec 13)
  /-- `blt rs1, rs2, imm`, the byte offset (R193). -/
  | blt (rs1 rs2 : RegIdx) (offset : BitVec 13)
  /-- `bge rs1, rs2, imm`, the byte offset (R194). -/
  | bge (rs1 rs2 : RegIdx) (offset : BitVec 13)
  /-- `bltu rs1, rs2, imm`, the byte offset (R195). -/
  | bltu (rs1 rs2 : RegIdx) (offset : BitVec 13)
  /-- `bgeu rs1, rs2, imm`, the byte offset (R196). -/
  | bgeu (rs1 rs2 : RegIdx) (offset : BitVec 13)
deriving DecidableEq, Repr

end Sys2Proof
end

