-- ==== Sys2Proof/WellFormed.lean ====
section
/-! DEFINITION. Which terms of `Instr` are instructions: the offsets of the branches and of JAL are even, because bit 0
of the B- and J-immediates is always 0 (30_encoding.md R87, R89); and which version has which instruction (R94, R96).
Every other operand fills its field, so the types already hold it to its range (R103). -/

namespace Sys2Proof

/-- Bit 0 of an offset is 0 (30_encoding.md R87, R89). -/
def evenOffset {n : Nat} (offset : BitVec n) : Bool := !offset.getLsbD 0

/-- The encoding admits the operands: a branch or jump offset is even (30_encoding.md R102, R103). -/
def Instr.wf : Instr → Bool
  | .jal _ offset => evenOffset offset
  | .beq _ _ offset | .bne _ _ offset | .blt _ _ offset | .bge _ _ offset | .bltu _ _ offset | .bgeu _ _ offset =>
    evenOffset offset
  | .csrr _ _ | .csrw _ _ => true
  | .add _ _ _ | .sub _ _ _ | .and _ _ _ | .or _ _ _ | .xor _ _ _ | .slt _ _ _ | .sltu _ _ _ | .sra _ _ _
  | .srl _ _ _ | .sll _ _ _ | .mul _ _ _ => true
  | .addi _ _ _ | .andi _ _ _ | .ori _ _ _ | .xori _ _ _ | .slti _ _ _ | .sltiu _ _ _ => true
  | .srai _ _ _ | .srli _ _ _ | .slli _ _ _ => true
  | .lui _ _ | .auipc _ _ | .lw _ _ _ | .sw _ _ _ | .jr _ | .jalr _ _ _ => true

/-- The instruction belongs to the version (00_scope.md R2; the "versions" column of 30_encoding.md R94). -/
def Instr.inVersion (v : IsaVersion) : Instr → Bool
  | .add _ _ _ | .addi _ _ _ | .mul _ _ _ | .lw _ _ _ | .sw _ _ _ | .jal _ _ | .bne _ _ _ => true
  | .jr _ => v == .tinyRV1
  | .csrr _ _ | .csrw _ _ | .sub _ _ _ | .and _ _ _ | .or _ _ _ | .xor _ _ _ | .slt _ _ _ | .sltu _ _ _
  | .sra _ _ _ | .srl _ _ _ | .sll _ _ _ | .andi _ _ _ | .ori _ _ _ | .xori _ _ _ | .slti _ _ _ | .sltiu _ _ _
  | .srai _ _ _ | .srli _ _ _ | .slli _ _ _ | .lui _ _ | .auipc _ _ | .jalr _ _ _ | .beq _ _ _ | .blt _ _ _
  | .bge _ _ _ | .bltu _ _ _ | .bgeu _ _ _ => v == .tinyRV2

end Sys2Proof
end

