-- ==== Sys2Proof/Decode.lean ====
section
/-! DEFINITION. The decoder and, after it, the encoder, both written from 30_encoding.md: the fields of a word (R80 to
R84), the immediates (R85 to R89), shift amount and CSR number (R90, R91), and the opcode map (R93 to R98). The opcode
table of R94 stands at the end as data of its own (`opcodeTable`), so that the decoder can be held against it. -/

namespace Sys2Proof

/-! ### The fields of an instruction word -/

/-- `opcode = inst[6:0]` (30_encoding.md R80). -/
def fieldOpcode (w : Word) : BitVec 7 := w.extractLsb' 0 7
/-- `rd = inst[11:7]` (R80). -/
def fieldRd (w : Word) : RegIdx := w.extractLsb' 7 5
/-- `funct3 = inst[14:12]` (R80). -/
def fieldFunct3 (w : Word) : BitVec 3 := w.extractLsb' 12 3
/-- `rs1 = inst[19:15]` (R80). -/
def fieldRs1 (w : Word) : RegIdx := w.extractLsb' 15 5
/-- `rs2 = inst[24:20]` (R80). -/
def fieldRs2 (w : Word) : RegIdx := w.extractLsb' 20 5
/-- `funct7 = inst[31:25]` (R80). -/
def fieldFunct7 (w : Word) : BitVec 7 := w.extractLsb' 25 7
/-- The shift amount `inst[24:20]` (R90). -/
def fieldShamt (w : Word) : BitVec 5 := w.extractLsb' 20 5
/-- The CSR number `inst[31:20]` (R91). -/
def fieldCsr (w : Word) : CsrNum := w.extractLsb' 20 12
/-- The 12 bits of the I-immediate, `inst[31:20]` (R85). -/
def fieldImmI (w : Word) : BitVec 12 := w.extractLsb' 20 12
/-- The 12 bits of the S-immediate, `{inst[31:25], inst[11:7]}` (R86). -/
def fieldImmS (w : Word) : BitVec 12 := w.extractLsb' 25 7 ++ w.extractLsb' 7 5
/-- The 13 bits of the B-immediate, `{inst[31], inst[7], inst[30:25], inst[11:8], 0}` (R87). -/
def fieldImmB (w : Word) : BitVec 13 :=
  w.extractLsb' 31 1 ++ w.extractLsb' 7 1 ++ w.extractLsb' 25 6 ++ w.extractLsb' 8 4 ++ 0#1
/-- The raw 20 bits of the U-immediate, `inst[31:12]` (R88). -/
def fieldImmU (w : Word) : BitVec 20 := w.extractLsb' 12 20
/-- The 21 bits of the J-immediate, `{inst[31], inst[19:12], inst[20], inst[30:21], 0}` (R89). -/
def fieldImmJ (w : Word) : BitVec 21 :=
  w.extractLsb' 31 1 ++ w.extractLsb' 12 8 ++ w.extractLsb' 20 1 ++ w.extractLsb' 21 10 ++ 0#1

/-! ### Decoding -/

/-- Why bytes or a word are not an instruction. The machine reports each as `Fault_IllegalInstruction`
(30_encoding.md R97); the names say which part of the word is at fault. -/
inductive DecodeReject where
  /-- Fewer than the four bytes of a word (R80). -/
  | truncated
  /-- `inst[6:0]` is none of the ten opcodes of R93. -/
  | unusedOpcode
  /-- The opcode is used, and `funct3` or `funct7` are in no row of R94 (R97). -/
  | unusedFunction
  /-- A CSR word whose unused register field is not 00000 (R98). -/
  | csrFixedField
  /-- A TinyRV2 word on a TinyRV1 machine (R96). -/
  | notInVersion
deriving DecidableEq, Repr

/-- Opcode 0110011, R-type (30_encoding.md R81, R94). -/
def decodeRegReg (w : Word) : Except DecodeReject Instr :=
  match fieldFunct7 w, fieldFunct3 w with
  | 0b0000000#7, 0b000#3 => .ok (.add (fieldRd w) (fieldRs1 w) (fieldRs2 w))
  | 0b0100000#7, 0b000#3 => .ok (.sub (fieldRd w) (fieldRs1 w) (fieldRs2 w))
  | 0b0000000#7, 0b111#3 => .ok (.and (fieldRd w) (fieldRs1 w) (fieldRs2 w))
  | 0b0000000#7, 0b110#3 => .ok (.or (fieldRd w) (fieldRs1 w) (fieldRs2 w))
  | 0b0000000#7, 0b100#3 => .ok (.xor (fieldRd w) (fieldRs1 w) (fieldRs2 w))
  | 0b0000000#7, 0b010#3 => .ok (.slt (fieldRd w) (fieldRs1 w) (fieldRs2 w))
  | 0b0000000#7, 0b011#3 => .ok (.sltu (fieldRd w) (fieldRs1 w) (fieldRs2 w))
  | 0b0100000#7, 0b101#3 => .ok (.sra (fieldRd w) (fieldRs1 w) (fieldRs2 w))
  | 0b0000000#7, 0b101#3 => .ok (.srl (fieldRd w) (fieldRs1 w) (fieldRs2 w))
  | 0b0000000#7, 0b001#3 => .ok (.sll (fieldRd w) (fieldRs1 w) (fieldRs2 w))
  | 0b0000001#7, 0b000#3 => .ok (.mul (fieldRd w) (fieldRs1 w) (fieldRs2 w))
  | _, _ => .error .unusedFunction

/-- The shifts by a constant, whose `inst[31:25]` is a function code and not part of the amount (R90, R157 to R159). -/
def decodeShiftImm (w : Word) : Except DecodeReject Instr :=
  match fieldFunct7 w, fieldFunct3 w with
  | 0b0100000#7, 0b101#3 => .ok (.srai (fieldRd w) (fieldRs1 w) (fieldShamt w))
  | 0b0000000#7, 0b101#3 => .ok (.srli (fieldRd w) (fieldRs1 w) (fieldShamt w))
  | 0b0000000#7, 0b001#3 => .ok (.slli (fieldRd w) (fieldRs1 w) (fieldShamt w))
  | _, _ => .error .unusedFunction

/-- Opcode 0010011, I-type with the I-immediate, and the shifts by a constant (R82, R85, R90, R94). -/
def decodeRegImm (w : Word) : Except DecodeReject Instr :=
  match fieldFunct3 w with
  | 0b000#3 => .ok (.addi (fieldRd w) (fieldRs1 w) (fieldImmI w))
  | 0b111#3 => .ok (.andi (fieldRd w) (fieldRs1 w) (fieldImmI w))
  | 0b110#3 => .ok (.ori (fieldRd w) (fieldRs1 w) (fieldImmI w))
  | 0b100#3 => .ok (.xori (fieldRd w) (fieldRs1 w) (fieldImmI w))
  | 0b010#3 => .ok (.slti (fieldRd w) (fieldRs1 w) (fieldImmI w))
  | 0b011#3 => .ok (.sltiu (fieldRd w) (fieldRs1 w) (fieldImmI w))
  | _ => decodeShiftImm w

/-- Opcode 0000011: LW is the only load (R94, R97). -/
def decodeLoad (w : Word) : Except DecodeReject Instr :=
  match fieldFunct3 w with
  | 0b010#3 => .ok (.lw (fieldRd w) (fieldImmI w) (fieldRs1 w))
  | _ => .error .unusedFunction

/-- Opcode 0100011: SW is the only store (R94, R97). -/
def decodeStore (w : Word) : Except DecodeReject Instr :=
  match fieldFunct3 w with
  | 0b010#3 => .ok (.sw (fieldRs2 w) (fieldImmS w) (fieldRs1 w))
  | _ => .error .unusedFunction

/-- Opcode 1100111 in TinyRV2 (R94, R182). -/
def decodeJalr (w : Word) : Except DecodeReject Instr :=
  match fieldFunct3 w with
  | 0b000#3 => .ok (.jalr (fieldRd w) (fieldRs1 w) (fieldImmI w))
  | _ => .error .unusedFunction

/-- Opcode 1100011: the six branches (R94, R190). -/
def decodeBranch (w : Word) : Except DecodeReject Instr :=
  match fieldFunct3 w with
  | 0b000#3 => .ok (.beq (fieldRs1 w) (fieldRs2 w) (fieldImmB w))
  | 0b001#3 => .ok (.bne (fieldRs1 w) (fieldRs2 w) (fieldImmB w))
  | 0b100#3 => .ok (.blt (fieldRs1 w) (fieldRs2 w) (fieldImmB w))
  | 0b101#3 => .ok (.bge (fieldRs1 w) (fieldRs2 w) (fieldImmB w))
  | 0b110#3 => .ok (.bltu (fieldRs1 w) (fieldRs2 w) (fieldImmB w))
  | 0b111#3 => .ok (.bgeu (fieldRs1 w) (fieldRs2 w) (fieldImmB w))
  | _ => .error .unusedFunction

/-- Opcode 1110011: CSRR needs `rs1 = 00000` and CSRW needs `rd = 00000` (R94, R98). -/
def decodeCsr (w : Word) : Except DecodeReject Instr :=
  match fieldFunct3 w with
  | 0b010#3 => if fieldRs1 w = 0#5 then .ok (.csrr (fieldRd w) (fieldCsr w)) else .error .csrFixedField
  | 0b001#3 => if fieldRd w = 0#5 then .ok (.csrw (fieldCsr w) (fieldRs1 w)) else .error .csrFixedField
  | _ => .error .unusedFunction

/-- The 34 rows of TinyRV2, by opcode (30_encoding.md R93, R94). -/
def decodeTinyRV2 (w : Word) : Except DecodeReject Instr :=
  match fieldOpcode w with
  | 0b0110011#7 => decodeRegReg w
  | 0b0010011#7 => decodeRegImm w
  | 0b0110111#7 => .ok (.lui (fieldRd w) (fieldImmU w))
  | 0b0010111#7 => .ok (.auipc (fieldRd w) (fieldImmU w))
  | 0b0000011#7 => decodeLoad w
  | 0b0100011#7 => decodeStore w
  | 0b1101111#7 => .ok (.jal (fieldRd w) (fieldImmJ w))
  | 0b1100111#7 => decodeJalr w
  | 0b1100011#7 => decodeBranch w
  | 0b1110011#7 => decodeCsr w
  | _ => .error .unusedOpcode

/-- The word has the exact shape of JR: opcode 1100111 with `funct3`, `rd` and `inst[31:20]` all zero (R96, R181). -/
def isJrWord (w : Word) : Bool :=
  fieldOpcode w == 0b1100111#7 && fieldFunct3 w == 0b000#3 && fieldRd w == 0#5 && fieldImmI w == 0#12

/-- The eight rows of TinyRV1: JR in its exact shape, the seven it shares with TinyRV2, and nothing else (R96). -/
def decodeTinyRV1 (w : Word) : Except DecodeReject Instr :=
  if isJrWord w then .ok (.jr (fieldRs1 w))
  else
    match decodeTinyRV2 w with
    | .ok i => if i.inVersion .tinyRV1 then .ok i else .error .notInVersion
    | .error e => .error e

/-- Decoding a word on a machine of version `v` (30_encoding.md R95, R96): total, and rejecting by name. -/
def decode (v : IsaVersion) (w : Word) : Except DecodeReject Instr :=
  match v with
  | .tinyRV1 => decodeTinyRV1 w
  | .tinyRV2 => decodeTinyRV2 w

/-- The little-endian word of four bytes, the byte at the lowest address first (20_memory.md R52, R58). -/
def wordOfBytes (b0 b1 b2 b3 : Byte) : Word := b3 ++ b2 ++ b1 ++ b0

/-- The four bytes of a word, the byte at the lowest address first (20_memory.md R52, R54). -/
def bytesOfWord (w : Word) : Byte × Byte × Byte × Byte :=
  (w.extractLsb' 0 8, w.extractLsb' 8 8, w.extractLsb' 16 8, w.extractLsb' 24 8)

/-- Decoding the front of a run of bytes: the instruction and the bytes after it. Total on any bytes; every instruction
is four bytes long (30_encoding.md R80, R101; 20_memory.md R58). -/
def decodeBytes (v : IsaVersion) : List Byte → Except DecodeReject (Instr × List Byte)
  | b0 :: b1 :: b2 :: b3 :: rest =>
    match decode v (wordOfBytes b0 b1 b2 b3) with
    | .ok i => .ok (i, rest)
    | .error e => .error e
  | _ => .error .truncated

/-! ### Encoding -/

/-- R-type word (R81). -/
def wordR (funct7 : BitVec 7) (rs2 rs1 : RegIdx) (funct3 : BitVec 3) (rd : RegIdx) (opcode : BitVec 7) : Word :=
  funct7 ++ rs2 ++ rs1 ++ funct3 ++ rd ++ opcode

/-- I-type word (R82). -/
def wordI (imm : BitVec 12) (rs1 : RegIdx) (funct3 : BitVec 3) (rd : RegIdx) (opcode : BitVec 7) : Word :=
  imm ++ rs1 ++ funct3 ++ rd ++ opcode

/-- S-type word with the S-immediate (R83, R86). -/
def wordS (imm : BitVec 12) (rs2 rs1 : RegIdx) (funct3 : BitVec 3) (opcode : BitVec 7) : Word :=
  imm.extractLsb' 5 7 ++ rs2 ++ rs1 ++ funct3 ++ imm.extractLsb' 0 5 ++ opcode

/-- S-type word with the B-immediate: offset bit 12 in `inst[31]`, bits 10:5 in `inst[30:25]`, bits 4:1 in
`inst[11:8]`, bit 11 in `inst[7]` (R83, R87). -/
def wordB (offset : BitVec 13) (rs2 rs1 : RegIdx) (funct3 : BitVec 3) (opcode : BitVec 7) : Word :=
  offset.extractLsb' 12 1 ++ offset.extractLsb' 5 6 ++ rs2 ++ rs1 ++ funct3 ++ offset.extractLsb' 1 4 ++
    offset.extractLsb' 11 1 ++ opcode

/-- U-type word with the U-immediate (R84, R88). -/
def wordU (imm : BitVec 20) (rd : RegIdx) (opcode : BitVec 7) : Word :=
  imm ++ rd ++ opcode

/-- U-type word with the J-immediate: offset bit 20 in `inst[31]`, bits 10:1 in `inst[30:21]`, bit 11 in `inst[20]`,
bits 19:12 in `inst[19:12]` (R84, R89). -/
def wordJ (offset : BitVec 21) (rd : RegIdx) (opcode : BitVec 7) : Word :=
  offset.extractLsb' 20 1 ++ offset.extractLsb' 1 10 ++ offset.extractLsb' 11 1 ++ offset.extractLsb' 12 8 ++ rd ++ opcode

/-- The word of an instruction (30_encoding.md R92, R94). An odd offset has no encoding (`Instr.wf`); its bit 0 has no
place in the word. -/
def encode : Instr → Word
  | .csrr rd csr => wordI csr 0#5 0b010#3 rd 0b1110011#7
  | .csrw csr rs1 => wordI csr rs1 0b001#3 0#5 0b1110011#7
  | .add rd rs1 rs2 => wordR 0b0000000#7 rs2 rs1 0b000#3 rd 0b0110011#7
  | .sub rd rs1 rs2 => wordR 0b0100000#7 rs2 rs1 0b000#3 rd 0b0110011#7
  | .and rd rs1 rs2 => wordR 0b0000000#7 rs2 rs1 0b111#3 rd 0b0110011#7
  | .or rd rs1 rs2 => wordR 0b0000000#7 rs2 rs1 0b110#3 rd 0b0110011#7
  | .xor rd rs1 rs2 => wordR 0b0000000#7 rs2 rs1 0b100#3 rd 0b0110011#7
  | .slt rd rs1 rs2 => wordR 0b0000000#7 rs2 rs1 0b010#3 rd 0b0110011#7
  | .sltu rd rs1 rs2 => wordR 0b0000000#7 rs2 rs1 0b011#3 rd 0b0110011#7
  | .sra rd rs1 rs2 => wordR 0b0100000#7 rs2 rs1 0b101#3 rd 0b0110011#7
  | .srl rd rs1 rs2 => wordR 0b0000000#7 rs2 rs1 0b101#3 rd 0b0110011#7
  | .sll rd rs1 rs2 => wordR 0b0000000#7 rs2 rs1 0b001#3 rd 0b0110011#7
  | .mul rd rs1 rs2 => wordR 0b0000001#7 rs2 rs1 0b000#3 rd 0b0110011#7
  | .addi rd rs1 imm => wordI imm rs1 0b000#3 rd 0b0010011#7
  | .andi rd rs1 imm => wordI imm rs1 0b111#3 rd 0b0010011#7
  | .ori rd rs1 imm => wordI imm rs1 0b110#3 rd 0b0010011#7
  | .xori rd rs1 imm => wordI imm rs1 0b100#3 rd 0b0010011#7
  | .slti rd rs1 imm => wordI imm rs1 0b010#3 rd 0b0010011#7
  | .sltiu rd rs1 imm => wordI imm rs1 0b011#3 rd 0b0010011#7
  | .srai rd rs1 shamt => wordR 0b0100000#7 shamt rs1 0b101#3 rd 0b0010011#7
  | .srli rd rs1 shamt => wordR 0b0000000#7 shamt rs1 0b101#3 rd 0b0010011#7
  | .slli rd rs1 shamt => wordR 0b0000000#7 shamt rs1 0b001#3 rd 0b0010011#7
  | .lui rd imm => wordU imm rd 0b0110111#7
  | .auipc rd imm => wordU imm rd 0b0010111#7
  | .lw rd imm rs1 => wordI imm rs1 0b010#3 rd 0b0000011#7
  | .sw rs2 imm rs1 => wordS imm rs2 rs1 0b010#3 0b0100011#7
  | .jal rd offset => wordJ offset rd 0b1101111#7
  | .jr rs1 => wordI 0#12 rs1 0b000#3 0#5 0b1100111#7
  | .jalr rd rs1 imm => wordI imm rs1 0b000#3 rd 0b1100111#7
  | .beq rs1 rs2 offset => wordB offset rs2 rs1 0b000#3 0b1100011#7
  | .bne rs1 rs2 offset => wordB offset rs2 rs1 0b001#3 0b1100011#7
  | .blt rs1 rs2 offset => wordB offset rs2 rs1 0b100#3 0b1100011#7
  | .bge rs1 rs2 offset => wordB offset rs2 rs1 0b101#3 0b1100011#7
  | .bltu rs1 rs2 offset => wordB offset rs2 rs1 0b110#3 0b1100011#7
  | .bgeu rs1 rs2 offset => wordB offset rs2 rs1 0b111#3 0b1100011#7

/-! ### The opcode table -/

/-- The instruction's mnemonic as spec/opcode_table.json spells it. -/
def Instr.mnemonic : Instr → String
  | .csrr _ _ => "CSRR" | .csrw _ _ => "CSRW"
  | .add _ _ _ => "ADD" | .sub _ _ _ => "SUB" | .and _ _ _ => "AND" | .or _ _ _ => "OR" | .xor _ _ _ => "XOR"
  | .slt _ _ _ => "SLT" | .sltu _ _ _ => "SLTU" | .sra _ _ _ => "SRA" | .srl _ _ _ => "SRL" | .sll _ _ _ => "SLL"
  | .mul _ _ _ => "MUL"
  | .addi _ _ _ => "ADDI" | .andi _ _ _ => "ANDI" | .ori _ _ _ => "ORI" | .xori _ _ _ => "XORI"
  | .slti _ _ _ => "SLTI" | .sltiu _ _ _ => "SLTIU" | .srai _ _ _ => "SRAI" | .srli _ _ _ => "SRLI"
  | .slli _ _ _ => "SLLI" | .lui _ _ => "LUI" | .auipc _ _ => "AUIPC"
  | .lw _ _ _ => "LW" | .sw _ _ _ => "SW"
  | .jal _ _ => "JAL" | .jr _ => "JR" | .jalr _ _ _ => "JALR"
  | .beq _ _ _ => "BEQ" | .bne _ _ _ => "BNE" | .blt _ _ _ => "BLT" | .bge _ _ _ => "BGE"
  | .bltu _ _ _ => "BLTU" | .bgeu _ _ _ => "BGEU"

/-- One row of the opcode table of 30_encoding.md R94. -/
structure OpcodeRow where
  /-- The mnemonic column. -/
  mnemonic : String
  /-- The versions column: TinyRV1 has the row. -/
  inTinyRV1 : Bool
  /-- The versions column: TinyRV2 has the row. -/
  inTinyRV2 : Bool
  /-- The match column: the value of the fixed bits. -/
  pattern : Word
  /-- The mask column. -/
  mask : Word
deriving DecidableEq, Repr

/-- The row belongs to the version (30_encoding.md R94, the versions column). -/
def OpcodeRow.inVersion (r : OpcodeRow) : IsaVersion → Bool
  | .tinyRV1 => r.inTinyRV1
  | .tinyRV2 => r.inTinyRV2

/-- A word is the row's instruction exactly when `(w & mask) == match` (R94). -/
def OpcodeRow.covers (r : OpcodeRow) (w : Word) : Bool := w &&& r.mask == r.pattern

/-- R94, the CSR and register-register rows. -/
def opcodeTableArith : List OpcodeRow := [
  ⟨"CSRR", false, true, 0x00002073#32, 0x000FF07F#32⟩,
  ⟨"CSRW", false, true, 0x00001073#32, 0x00007FFF#32⟩,
  ⟨"ADD", true, true, 0x00000033#32, 0xFE00707F#32⟩,
  ⟨"SUB", false, true, 0x40000033#32, 0xFE00707F#32⟩,
  ⟨"AND", false, true, 0x00007033#32, 0xFE00707F#32⟩,
  ⟨"OR", false, true, 0x00006033#32, 0xFE00707F#32⟩,
  ⟨"XOR", false, true, 0x00004033#32, 0xFE00707F#32⟩,
  ⟨"SLT", false, true, 0x00002033#32, 0xFE00707F#32⟩,
  ⟨"SLTU", false, true, 0x00003033#32, 0xFE00707F#32⟩,
  ⟨"SRA", false, true, 0x40005033#32, 0xFE00707F#32⟩,
  ⟨"SRL", false, true, 0x00005033#32, 0xFE00707F#32⟩,
  ⟨"SLL", false, true, 0x00001033#32, 0xFE00707F#32⟩,
  ⟨"MUL", true, true, 0x02000033#32, 0xFE00707F#32⟩]

/-- R94, the register-immediate rows. -/
def opcodeTableImm : List OpcodeRow := [
  ⟨"ADDI", true, true, 0x00000013#32, 0x0000707F#32⟩,
  ⟨"ANDI", false, true, 0x00007013#32, 0x0000707F#32⟩,
  ⟨"ORI", false, true, 0x00006013#32, 0x0000707F#32⟩,
  ⟨"XORI", false, true, 0x00004013#32, 0x0000707F#32⟩,
  ⟨"SLTI", false, true, 0x00002013#32, 0x0000707F#32⟩,
  ⟨"SLTIU", false, true, 0x00003013#32, 0x0000707F#32⟩,
  ⟨"SRAI", false, true, 0x40005013#32, 0xFE00707F#32⟩,
  ⟨"SRLI", false, true, 0x00005013#32, 0xFE00707F#32⟩,
  ⟨"SLLI", false, true, 0x00001013#32, 0xFE00707F#32⟩,
  ⟨"LUI", false, true, 0x00000037#32, 0x0000007F#32⟩,
  ⟨"AUIPC", false, true, 0x00000017#32, 0x0000007F#32⟩]

/-- R94, the memory, jump and branch rows. -/
def opcodeTableControl : List OpcodeRow := [
  ⟨"LW", true, true, 0x00002003#32, 0x0000707F#32⟩,
  ⟨"SW", true, true, 0x00002023#32, 0x0000707F#32⟩,
  ⟨"JAL", true, true, 0x0000006F#32, 0x0000007F#32⟩,
  ⟨"JR", true, false, 0x00000067#32, 0xFFF07FFF#32⟩,
  ⟨"JALR", false, true, 0x00000067#32, 0x0000707F#32⟩,
  ⟨"BEQ", false, true, 0x00000063#32, 0x0000707F#32⟩,
  ⟨"BNE", true, true, 0x00001063#32, 0x0000707F#32⟩,
  ⟨"BLT", false, true, 0x00004063#32, 0x0000707F#32⟩,
  ⟨"BGE", false, true, 0x00005063#32, 0x0000707F#32⟩,
  ⟨"BLTU", false, true, 0x00006063#32, 0x0000707F#32⟩,
  ⟨"BGEU", false, true, 0x00007063#32, 0x0000707F#32⟩]

/-- The opcode table of 30_encoding.md R94, in the order of spec/opcode_table.json. -/
def opcodeTable : List OpcodeRow := opcodeTableArith ++ opcodeTableImm ++ opcodeTableControl

/-! ### One word of the table, as the host asks for it -/

/-- The version under which a table row's word is read: TinyRV1 for the exact JR shape, since JR is the table's only row
of TinyRV1 alone, and TinyRV2 for every other word. DESIGN CHOICE (notes/assumptions/26.md). -/
def tableVersion (w : Word) : IsaVersion := if isJrWord w then .tinyRV1 else .tinyRV2

/-- The 32-bit word of an instruction whose low `nbits` bits are `w`, every bit above them 0. -/
def tableWord (nbits w : Nat) : Word := BitVec.ofNat 32 (w % 2 ^ nbits)

/-- The instruction the decoder reads from the bytes of such a word, laid out little endian. -/
def decodeTableWord (nbits w : Nat) : Option Instr :=
  let word := tableWord nbits w
  let b := bytesOfWord word
  match decodeBytes (tableVersion word) [b.1, b.2.1, b.2.2.1, b.2.2.2] with
  | .ok (i, _) => some i
  | .error _ => none

end Sys2Proof
end

