-- ==== Sys2Proof/Machine/State.lean ====
section
/-! DEFINITION. The state of the machine, every piece of it that spec/10_state.md names (INVENTORY.md lists them with
their rules), the reasons a step can stop (60_exceptions.md R212), and the state after reset (10_state.md R41). -/

namespace Sys2Proof.Machine

/-- Memory: bytes by address, addresses strictly rising below 2^20 and no entry equal to `unlistedByte`
(10_state.md R39; `Memory.wf` in Machine/Ops.lean says the form holds). -/
abbrev Memory := List Host.Cell

/-- What a byte of memory that the list does not name reads as. The spec gives `MEM_INIT` no value (10_state.md R41, D11).
DESIGN CHOICE (notes/assumptions/6.md), unsafe. -/
abbrev unlistedByte : Byte := 0#8

/-- The direction of a CSR access, recorded by `Fault_UndefinedCSRAccess` (60_exceptions.md R212). -/
inductive CsrDirection where
  | read
  | write
deriving DecidableEq, Repr

/-- Whose step comes next: the processor's, or one of the manager's two (60_exceptions.md R226). -/
inductive Turn where
  | processor
  /-- The manager's `enqueue(w)`. -/
  | enqueue (w : Word)
  /-- The manager's `dequeue`. -/
  | dequeue
deriving DecidableEq, Repr

/-- The closed list of fault reasons of 60_exceptions.md R212, each with the `info` it records. A fault stops the machine
and changes nothing (R13, R211). Every one is the spec's own decision on what the source calls undefined or leaves
unsaid, and each is SAFE: the hardware may go on where the model stops (notes/assumptions/13.md). -/
inductive Fault where
  /-- Raised by fetch: `pc[1:0] != 00` (R59, D7). Safe. -/
  | fetchMisaligned (pc : Word)
  /-- Raised by fetch: `pc` above 0x000fffff (R56, R59, D6, D7). Safe. -/
  | fetchOutOfRange (pc : Word)
  /-- Raised by fetch: a SW wrote this word since reset (R68, D16). Safe. -/
  | fetchAfterStore (pc : Word)
  /-- Raised by decode: the word is no instruction of the version (R97, D3, D4). Safe. -/
  | illegalInstruction (pc inst : Word)
  /-- Raised by LW: `addr[1:0] != 00` (R55, D5). Safe. -/
  | loadMisaligned (addr : Word)
  /-- Raised by LW: `addr` above 0x000fffff (R56, D6). Safe. -/
  | loadOutOfRange (addr : Word)
  /-- Raised by SW: `addr[1:0] != 00` (R55, D5). Safe. -/
  | storeMisaligned (addr : Word)
  /-- Raised by SW: `addr` above 0x000fffff (R56, D6). Safe. -/
  | storeOutOfRange (addr : Word)
  /-- Raised by CSRR and CSRW: the number names none of the five CSRs (R37, D8). Safe. -/
  | unsupportedCsr (csr : CsrNum)
  /-- Raised by CSRR of `proc2mngr` and CSRW of `mngr2proc`, `numcores`, `coreid` (R30 to R32, R35, D9). Safe. -/
  | undefinedCsrAccess (csr : CsrNum) (direction : CsrDirection)
  /-- Raised by JR under TinyRV1: bit 0 of the target is 1 (R181, D20). Safe. -/
  | jrTargetOdd (target : Word)
deriving DecidableEq, Repr

/-- Why a step gives no meaning. -/
inductive Refusal where
  /-- Raised by no arm of `exec`: every instruction has its meaning. Would be raised for an instruction not modelled
  yet. Safe. -/
  | notModelled (mnemonic : String)
deriving DecidableEq, Repr

/-- The state of one Tiny RISC-V core and of its manager's FIFOs. -/
structure State where
  /-- x1 to x31, register `r` at place `r - 1`; x0 has no storage (10_state.md R20, R21). -/
  regs : Vector Word 31
  /-- The program counter: between steps, the address of the next instruction (R24, R25). -/
  pc : Word
  /-- Memory (R39). -/
  mem : Memory
  /-- The set `stored` of word addresses a SW has written since reset, in rising order: the spec's bookkeeping (R40). -/
  stored : List Nat
  /-- CSR `stats_en` (R36). -/
  statsEn : Word
  /-- `mngr2proc_q`, the word that goes first at the head (R33). -/
  mngr2procQ : List Word
  /-- `proc2mngr_q`, the word that goes first at the head (R34). -/
  proc2mngrQ : List Word
  /-- The words ever appended to `proc2mngr_q`, in order: the processor's output (R34, R228). The model's own record
  (notes/assumptions/12.md). -/
  sent : List Word
  /-- Whose turns come next; none left means the processor's for good. The model's own field, for the interleaving of
  R226 (notes/assumptions/10.md). -/
  agenda : List Turn
  /-- The parameters of the run, `CORE_ID` and `NUM_CORES` among them (R32, R35, R42). -/
  cfg : Config
deriving DecidableEq, Repr

/-- The spec's state by itself: what a step of the machine can change and a predicate on the state can look at. The parameters
of the run are configuration and not state (10_state.md R42), and the turns to come are the model's own. -/
structure Snapshot where
  /-- x1 to x31 (R20). -/
  regs : Vector Word 31
  /-- The program counter (R24). -/
  pc : Word
  /-- Memory (R39). -/
  mem : Memory
  /-- The set `stored` (R40). -/
  stored : List Nat
  /-- CSR `stats_en` (R36). -/
  statsEn : Word
  /-- `mngr2proc_q` (R33). -/
  mngr2procQ : List Word
  /-- `proc2mngr_q` (R34). -/
  proc2mngrQ : List Word
  /-- The words ever appended to `proc2mngr_q` (R34, R228). -/
  sent : List Word
deriving DecidableEq, Repr

/-- The spec's state of a state of the model. -/
def State.snapshot (s : State) : Snapshot where
  regs := s.regs
  pc := s.pc
  mem := s.mem
  stored := s.stored
  statsEn := s.statsEn
  mngr2procQ := s.mngr2procQ
  proc2mngrQ := s.proc2mngrQ
  sent := s.sent

/-- `END_OF_RUN` as the model's user supplies it: any predicate on the state (70_reset_and_hazards.md R252, D17). It has no body,
so that nothing can be proved of which predicate it is, and a claim about `step` holds for every one
(notes/assumptions/8.md). -/
opaque endOfRunPredicate : Snapshot → Bool

/-- What the spec leaves open of the state at reset (00_scope.md R9, 10_state.md R41), as data. -/
structure ResetParams where
  /-- `X_RESET[1]` to `X_RESET[31]` (D10). -/
  xReset : Vector Word 31
  /-- `STATS_EN_RESET` (D12). -/
  statsEnReset : Word
  /-- `MEM_INIT` (D11). -/
  memInit : Memory
  /-- What the manager is going to do (R226). -/
  agenda : List Turn
  /-- The configuration (R42). -/
  cfg : Config
deriving DecidableEq, Repr

/-- The state after reset for given values of what the spec leaves open (10_state.md R41, 70_reset_and_hazards.md R240,
R241). -/
def State.resetWith (p : ResetParams) : State where
  regs := p.xReset
  pc := resetVector
  mem := p.memInit
  stored := []
  statsEn := p.statsEnReset
  mngr2procQ := []
  proc2mngrQ := []
  sent := []
  agenda := p.agenda
  cfg := p.cfg

/-- The values the model names for what the spec leaves open: registers and `stats_en` zero, no program loaded, an idle
manager, one TinyRV2 core. DESIGN CHOICE (notes/assumptions/1.md to 6.md, 8.md, 10.md), unsafe. -/
def ResetParams.chosen : ResetParams where
  xReset := Vector.replicate 31 0#32
  statsEnReset := 0#32
  memInit := []
  agenda := []
  cfg := Config.single

/-- The machine right after reset (10_state.md R41). -/
def State.reset : State := State.resetWith ResetParams.chosen

end Sys2Proof.Machine
end

