-- ==== Sys2Proof/Machine/Ops.lean ====
section
/-! DEFINITION. The named operations over the state: registers (10_state.md R20, R21), memory (20_memory.md R50 to R59),
the CSRs (10_state.md R28 to R37), and what happens on an error.

There is no exception entry and no return from one: the source has neither (60_exceptions.md R210, R217, R218). What takes
their place is the spec's `raise Fault_<Reason>(info)`, ONE shared operation here, `raiseFault` (R211). -/

namespace Sys2Proof.Machine

/-- What one step answers. -/
abbrev StepResult := Host.Outcome State Fault Refusal

/-- `raise Fault_<Reason>(info)`: the step does not happen and the machine stops; nothing is saved, no mode changes and
control goes nowhere (60_exceptions.md R211, R217). -/
def raiseFault (f : Fault) : StepResult := .fault f

/-- `stall`: the step changes no state, `pc` still points at the same instruction, and it is tried again
(00_scope.md R14). DESIGN CHOICE (notes/assumptions/9.md): a next state equal to the old one. -/
def stallStep (s : State) : StepResult := .next s

/-- What a memory or CSR access of 00_scope.md section 6.2 comes to: a value and the state after it, a stall, or a
fault. -/
inductive Access (α : Type) where
  | done (value : α) (after : State)
  | stall
  | fault (reason : Fault)
deriving Repr

/-- An access made in state `s`, and what the instruction does with its value. -/
def accessThen {α : Type} (a : Access α) (s : State) (k : α → State → StepResult) : StepResult :=
  match a with
  | .done v t => k v t
  | .stall => stallStep s
  | .fault f => raiseFault f

/-! ### Registers -/

/-- The storage of x1 to x31 after writing `x[r]`; a write to x0 is discarded (10_state.md R21). -/
def writeReg (regs : Vector Word 31) (r : RegIdx) (v : Word) : Vector Word 31 :=
  if r = 0#5 then regs else regs.set (r.toNat - 1) v (by have := r.isLt; omega)

/-- `x[r]`; `x[0]` is always 0 (10_state.md R21). -/
def State.getX (s : State) (r : RegIdx) : Word :=
  if r = 0#5 then 0#32 else s.regs[r.toNat - 1]'(by have := r.isLt; omega)

/-- `x[r] <- v` (00_scope.md section 6.2, 10_state.md R21). -/
def State.setX (s : State) (r : RegIdx) (v : Word) : State := { s with regs := writeReg s.regs r v }

/-- `pc <- t` (10_state.md R25). -/
def State.setPc (s : State) (t : Word) : State := { s with pc := t }

/-- `pc + 4`, modulo 2^32 (10_state.md R24, R25). -/
def State.nextPc (s : State) : Word := s.pc + 4#32

/-- `pc <- pc + 4`, what every instruction does unless its rule says otherwise (10_state.md R25). -/
def State.advance (s : State) : State := s.setPc s.nextPc

/-! ### Memory -/

/-- The byte at an address. -/
def Memory.read : Memory → Nat → Byte
  | [], _ => unlistedByte
  | (a, b) :: rest, addr => if a = addr then b else Memory.read rest addr

/-- Memory with one byte written, keeping the canonical form. -/
def Memory.write : Memory → Nat → Byte → Memory
  | [], addr, v => if v = unlistedByte then [] else [(addr, v)]
  | (a, b) :: rest, addr, v =>
    if addr < a then (if v = unlistedByte then (a, b) :: rest else (addr, v) :: (a, b) :: rest)
    else if addr = a then (if v = unlistedByte then rest else (addr, v) :: rest)
    else (a, b) :: Memory.write rest addr v

/-- Every address of the list is at least `lo`, strictly rising, below 2^20, and no byte is the unlisted one. -/
def Memory.wfFrom : Nat → Memory → Bool
  | _, [] => true
  | lo, (a, b) :: rest => decide (lo ≤ a) && decide (a < memBytes) && decide (b ≠ unlistedByte) && Memory.wfFrom (a + 1) rest

/-- The canonical form: addresses strictly rising within memory (10_state.md R39), no entry equal to what an unlisted
address reads as. -/
def Memory.wf (m : Memory) : Bool := Memory.wfFrom 0 m

/-- The little-endian word at an address (20_memory.md R52, R53). -/
def Memory.readWord (m : Memory) (a : Nat) : Word :=
  wordOfBytes (Memory.read m a) (Memory.read m (a + 1)) (Memory.read m (a + 2)) (Memory.read m (a + 3))

/-- Memory with a word written little endian (20_memory.md R52, R54). -/
def Memory.writeWord (m : Memory) (a : Nat) (v : Word) : Memory :=
  let b := bytesOfWord v
  Memory.write (Memory.write (Memory.write (Memory.write m a b.1) (a + 1) b.2.1) (a + 2) b.2.2.1) (a + 3) b.2.2.2

/-- `addr[1:0] != 00` (20_memory.md R55). -/
def misaligned (addr : Word) : Bool := addr.extractLsb' 0 2 != 0#2

/-- `unsigned(addr) > 0x000fffff` (20_memory.md R51, R56). -/
def outOfRange (addr : Word) : Bool := decide (0x000fffff < addr.toNat)

/-- `stored ∪ {a}`, kept in rising order without repeats (10_state.md R40). -/
def storedInsert : List Nat → Nat → List Nat
  | [], a => [a]
  | x :: rest, a => if a < x then a :: x :: rest else if a = x then x :: rest else x :: storedInsert rest a

/-- Every address of the set is at least `lo`, strictly rising, a multiple of 4 and within memory. -/
def storedWfFrom : Nat → List Nat → Bool
  | _, [] => true
  | lo, x :: rest => decide (lo ≤ x) && decide (x % 4 = 0) && decide (x < memBytes) && storedWfFrom (x + 1) rest

/-- The set `stored` holds word addresses of memory, in rising order (10_state.md R40). -/
def storedWf (l : List Nat) : Bool := storedWfFrom 0 l

/-- `mem` and `stored` after a store that raised no fault (20_memory.md R54). -/
def State.storeWord (s : State) (addr v : Word) : State :=
  { s with mem := Memory.writeWord s.mem addr.toNat v, stored := storedInsert s.stored addr.toNat }

/-- `MemRead(addr, 4)` (20_memory.md R53); misalignment is tested first (60_exceptions.md R213). -/
def memRead (addr : Word) (s : State) : Access Word :=
  if misaligned addr then .fault (.loadMisaligned addr)
  else if outOfRange addr then .fault (.loadOutOfRange addr)
  else .done (Memory.readWord s.mem addr.toNat) s

/-- `MemWrite(addr, 4, v)` (20_memory.md R54); misalignment is tested first (60_exceptions.md R213). -/
def memWrite (addr v : Word) (s : State) : Access Unit :=
  if misaligned addr then .fault (.storeMisaligned addr)
  else if outOfRange addr then .fault (.storeOutOfRange addr)
  else .done () (s.storeWord addr v)

/-- Instruction fetch with its checks in order (20_memory.md R58, R59). -/
def fetch (s : State) : Except Fault Word :=
  if misaligned s.pc then .error (.fetchMisaligned s.pc)
  else if outOfRange s.pc then .error (.fetchOutOfRange s.pc)
  else if s.stored.contains s.pc.toNat then .error (.fetchAfterStore s.pc)
  else .ok (Memory.readWord s.mem s.pc.toNat)

/-! ### The manager's FIFOs and the CSRs -/

/-- A FIFO holds fewer words than its depth (10_state.md R34; for the manager's end, 60_exceptions.md R226). -/
def fifoReady (q : List Word) : Option Nat → Bool
  | none => true
  | some depth => decide (q.length < depth)

/-- The state after the processor appended a word to `proc2mngr_q` (10_state.md R30, R34). -/
def State.sendWord (s : State) (v : Word) : State :=
  { s with proc2mngrQ := s.proc2mngrQ ++ [v], sent := s.sent ++ [v] }

/-- The state with `mngr2proc_q` replaced (10_state.md R31, R33). -/
def State.setMngr2procQ (s : State) (q : List Word) : State := { s with mngr2procQ := q }

/-- `stats_en <- v` (10_state.md R36). -/
def State.setStatsEn (s : State) (v : Word) : State := { s with statsEn := v }

/-- Reading `mngr2proc`: remove the head word and return it, or stall on an empty FIFO (10_state.md R31). -/
def readMngr2proc (s : State) : Access Word :=
  match s.mngr2procQ with
  | [] => .stall
  | h :: rest => .done h (s.setMngr2procQ rest)

/-- Writing `proc2mngr`: append at the tail, or stall when the FIFO is not ready (10_state.md R30). -/
def writeProc2mngr (v : Word) (s : State) : Access Unit :=
  if fifoReady s.proc2mngrQ s.cfg.proc2mngrDepth then .done () (s.sendWord v) else .stall

/-- `CsrRead(n)` (10_state.md R29 to R37). -/
def csrRead (n : CsrNum) (s : State) : Access Word :=
  if n = csrProc2mngr then .fault (.undefinedCsrAccess n .read)
  else if n = csrMngr2proc then readMngr2proc s
  else if n = csrCoreid then .done s.cfg.coreId s
  else if n = csrNumcores then .done s.cfg.numCores s
  else if n = csrStatsEn then .done s.statsEn s
  else .fault (.unsupportedCsr n)

/-- `CsrWrite(n, v)` (10_state.md R29 to R37). -/
def csrWrite (n : CsrNum) (v : Word) (s : State) : Access Unit :=
  if n = csrProc2mngr then writeProc2mngr v s
  else if n = csrMngr2proc then .fault (.undefinedCsrAccess n .write)
  else if n = csrCoreid then .fault (.undefinedCsrAccess n .write)
  else if n = csrNumcores then .fault (.undefinedCsrAccess n .write)
  else if n = csrStatsEn then .done () (s.setStatsEn v)
  else .fault (.unsupportedCsr n)

end Sys2Proof.Machine
end

