-- ==== Sys2Proof/Machine/Operands.lean ====
section
/-! DEFINITION. The operand forms: the 32-bit values of the immediates (30_encoding.md R85 to R90), the shift amount a
register gives (41_reg_reg_arithmetic.md R138 to R140), the effective address of LW and SW (43_memory_instructions.md
R172), and the shared shapes of the instructions that write one register. -/

namespace Sys2Proof.Machine

/-- `imm_I` and `imm_S` of the 12-bit field: sign-extended for every instruction that has one (R85, R86, R150). -/
def imm12 (imm : BitVec 12) : Word := imm.signExtend 32

/-- `imm_B` of the 13-bit offset (R87). -/
def immB (offset : BitVec 13) : Word := offset.signExtend 32

/-- `imm_U` of the raw 20-bit field: `{inst[31:12], 0^12}`, one shift by 12 (R88; 90_conflicts.md C8). -/
def immU (imm : BitVec 20) : Word := imm ++ 0#12

/-- `imm_J` of the 21-bit offset (R89). -/
def immJ (offset : BitVec 21) : Word := offset.signExtend 32

/-- `x[rs2][4:0]`: only the bottom five bits of a register count as a shift amount (R138). -/
def shiftAmount (v : Word) : BitVec 5 := v.extractLsb' 0 5

/-- `a >>> n`, filling with copies of `a[31]` (00_scope.md section 6.1, R138). -/
def shiftRightArith (a : Word) (n : BitVec 5) : Word := a.sshiftRight n.toNat

/-- `a >> n`, filling with zeros (00_scope.md section 6.1, R139). -/
def shiftRightLogical (a : Word) (n : BitVec 5) : Word := a >>> n.toNat

/-- `a << n`, filling with zeros (00_scope.md section 6.1, R140). -/
def shiftLeftLogical (a : Word) (n : BitVec 5) : Word := a <<< n.toNat

/-- The effective address of LW and SW: base register plus sign-extended offset, modulo 2^32 (R172). -/
def effectiveAddress (s : State) (base : RegIdx) (imm : BitVec 12) : Word := s.getX base + imm12 imm

/-- `x[rd] <- v; pc <- pc + 4`: how every instruction that only writes a register ends (10_state.md R23, R25). -/
def writeBack (rd : RegIdx) (v : Word) (s : State) : StepResult := .next (s.setX rd v).advance

/-- The register-register shape: `x[rd] <- f(x[rs1], x[rs2])`, both sources read first (00_scope.md R12). -/
def regReg (f : Word → Word → Word) (rd rs1 rs2 : RegIdx) (s : State) : StepResult :=
  writeBack rd (f (s.getX rs1) (s.getX rs2)) s

/-- The register-immediate shape: `x[rd] <- f(x[rs1], imm_I)` (R150). -/
def regImm (f : Word → Word → Word) (rd rs1 : RegIdx) (imm : BitVec 12) (s : State) : StepResult :=
  writeBack rd (f (s.getX rs1) (imm12 imm)) s

/-- The shift-by-constant shape: `x[rd] <- f(x[rs1], shamt)` (R90, R157 to R159). -/
def shiftImm (f : Word → BitVec 5 → Word) (rd rs1 : RegIdx) (shamt : BitVec 5) (s : State) : StepResult :=
  writeBack rd (f (s.getX rs1) shamt) s

/-- `x[rd] <- pc + 4; pc <- t`, where `t` was computed before the write (00_scope.md R12, R180, R182). -/
def linkAndJump (rd : RegIdx) (t : Word) (s : State) : StepResult := .next ((s.setX rd s.nextPc).setPc t)

/-- `pc <- cond ? pc + imm_B : pc + 4` (45_branch_instructions.md R190). -/
def branchIf (cond : Bool) (offset : BitVec 13) (s : State) : StepResult :=
  .next (s.setPc (if cond then s.pc + immB offset else s.nextPc))

end Sys2Proof.Machine
end

