-- ==== Sys2Proof/Machine/Flags.lean ====
section
/-! DEFINITION. There are no flags, condition codes or predicate registers (10_state.md R27): no instruction records carry,
borrow or overflow. What takes their place are the comparisons that SLT, SLTU, SLTI, SLTIU write into a register and
that the branches make themselves. -/

namespace Sys2Proof.Machine

/-- `a <s b`: both read as two's complement (00_scope.md section 6.1). -/
def lessSigned (a b : Word) : Bool := decide (a.toInt < b.toInt)

/-- `a <u b` (00_scope.md section 6.1). -/
def lessUnsigned (a b : Word) : Bool := decide (a.toNat < b.toNat)

/-- `a >=s b` (00_scope.md section 6.1). -/
def geSigned (a b : Word) : Bool := decide (b.toInt ≤ a.toInt)

/-- `a >=u b` (00_scope.md section 6.1). -/
def geUnsigned (a b : Word) : Bool := decide (b.toNat ≤ a.toNat)

/-- `bool(c)`: 0x00000001 for true, 0x00000000 for false (00_scope.md section 6.1, 41_reg_reg_arithmetic.md R136). -/
def boolWord (c : Bool) : Word := if c then 1#32 else 0#32

end Sys2Proof.Machine
end

