-- ==== Sys2Proof/Machine/Branch.lean ====
section
/-! DEFINITION. The six conditional branches (45_branch_instructions.md R190 to R196). -/

namespace Sys2Proof.Machine

/-- BEQ: all 32 bits compared (R191). -/
def execBeq (rs1 rs2 : RegIdx) (offset : BitVec 13) (s : State) : StepResult :=
  branchIf (s.getX rs1 == s.getX rs2) offset s

/-- BNE (R192). -/
def execBne (rs1 rs2 : RegIdx) (offset : BitVec 13) (s : State) : StepResult :=
  branchIf (s.getX rs1 != s.getX rs2) offset s

/-- BLT, signed (R193). -/
def execBlt (rs1 rs2 : RegIdx) (offset : BitVec 13) (s : State) : StepResult :=
  branchIf (lessSigned (s.getX rs1) (s.getX rs2)) offset s

/-- BGE, signed (R194). -/
def execBge (rs1 rs2 : RegIdx) (offset : BitVec 13) (s : State) : StepResult :=
  branchIf (geSigned (s.getX rs1) (s.getX rs2)) offset s

/-- BLTU, unsigned (R195). -/
def execBltu (rs1 rs2 : RegIdx) (offset : BitVec 13) (s : State) : StepResult :=
  branchIf (lessUnsigned (s.getX rs1) (s.getX rs2)) offset s

/-- BGEU, unsigned (R196). -/
def execBgeu (rs1 rs2 : RegIdx) (offset : BitVec 13) (s : State) : StepResult :=
  branchIf (geUnsigned (s.getX rs1) (s.getX rs2)) offset s

end Sys2Proof.Machine
end

