-- ==== Sys2Proof/Machine/Csr.lean ====
section
/-! DEFINITION. CSRR and CSRW (40_csr_instructions.md R120, R121). -/

namespace Sys2Proof.Machine

/-- CSRR: `v <- CsrRead(csr); x[rd] <- v; pc <- pc + 4`; the read happens also when `rd` is x0 (R120). -/
def execCsrr (rd : RegIdx) (csr : CsrNum) (s : State) : StepResult :=
  accessThen (csrRead csr s) s fun v t => writeBack rd v t

/-- CSRW: `CsrWrite(csr, x[rs1]); pc <- pc + 4`; the old value of the CSR is not read (R121). -/
def execCsrw (csr : CsrNum) (rs1 : RegIdx) (s : State) : StepResult :=
  accessThen (csrWrite csr (s.getX rs1) s) s fun _ t => .next t.advance

end Sys2Proof.Machine
end

