-- ==== Sys2Proof/Machine/Jump.lean ====
section
/-! DEFINITION. JAL, JR and JALR (44_jump_instructions.md R180 to R183). A jump never faults on its target: the next fetch
does (20_memory.md R59). There is no delay slot (70_reset_and_hazards.md R247). -/

namespace Sys2Proof.Machine

/-- `t & 0xFFFFFFFE`: only bit 0 is cleared (R182). -/
def clearBit0 (t : Word) : Word := t &&& 0xFFFFFFFE#32

/-- JAL: `t <- pc + imm_J; x[rd] <- pc + 4; pc <- t` (R180). -/
def execJal (rd : RegIdx) (offset : BitVec 21) (s : State) : StepResult := linkAndJump rd (s.pc + immJ offset) s

/-- JR: under TinyRV1, `pc <- x[rs1]` with a fault on an odd target (R181); under TinyRV2 its meaning is that of
`jalr x0, rs1, 0` (46_pseudo_instructions.md R201). -/
def execJr (rs1 : RegIdx) (s : State) : StepResult :=
  match s.cfg.isaVersion with
  | .tinyRV1 => if (s.getX rs1).getLsbD 0 then raiseFault (.jrTargetOdd (s.getX rs1)) else .next (s.setPc (s.getX rs1))
  | .tinyRV2 => .next (s.setPc (clearBit0 (s.getX rs1)))

/-- JALR: `t <- (x[rs1] + imm_I) & 0xFFFFFFFE; x[rd] <- pc + 4; pc <- t`, with the old `x[rs1]` (R182, 00_scope.md R12). -/
def execJalr (rd rs1 : RegIdx) (imm : BitVec 12) (s : State) : StepResult :=
  linkAndJump rd (clearBit0 (s.getX rs1 + imm12 imm)) s

end Sys2Proof.Machine
end

