-- ==== Sys2Proof/Machine/LoadStore.lean ====
section
/-! DEFINITION. LW and SW (43_memory_instructions.md R170 to R172). -/

namespace Sys2Proof.Machine

/-- LW: `addr <- x[rs1] + imm_I; v <- MemRead(addr, 4); x[rd] <- v; pc <- pc + 4`; the read and its checks happen also
when `rd` is x0 (R170). -/
def execLw (rd : RegIdx) (imm : BitVec 12) (rs1 : RegIdx) (s : State) : StepResult :=
  accessThen (memRead (effectiveAddress s rs1 imm) s) s fun v t => writeBack rd v t

/-- SW: `addr <- x[rs1] + imm_S; MemWrite(addr, 4, x[rs2]); pc <- pc + 4` (R171). -/
def execSw (rs2 : RegIdx) (imm : BitVec 12) (rs1 : RegIdx) (s : State) : StepResult :=
  accessThen (memWrite (effectiveAddress s rs1 imm) (s.getX rs2) s) s fun _ t => .next t.advance

end Sys2Proof.Machine
end

