-- ==== Sys2Proof/Machine/RegImm.lean ====
section
/-! DEFINITION. The register-immediate arithmetic instructions (42_reg_imm_arithmetic.md R150 to R161). The 12-bit immediate
is sign-extended for all six that have one, ANDI, ORI, XORI and SLTIU among them (R150). -/

namespace Sys2Proof.Machine

/-- ADDI (R151). -/
def execAddi (rd rs1 : RegIdx) (imm : BitVec 12) (s : State) : StepResult := regImm (fun a b => a + b) rd rs1 imm s

/-- ANDI (R152). -/
def execAndi (rd rs1 : RegIdx) (imm : BitVec 12) (s : State) : StepResult := regImm (fun a b => a &&& b) rd rs1 imm s

/-- ORI (R153). -/
def execOri (rd rs1 : RegIdx) (imm : BitVec 12) (s : State) : StepResult := regImm (fun a b => a ||| b) rd rs1 imm s

/-- XORI (R154). -/
def execXori (rd rs1 : RegIdx) (imm : BitVec 12) (s : State) : StepResult := regImm (fun a b => a ^^^ b) rd rs1 imm s

/-- SLTI (R155). -/
def execSlti (rd rs1 : RegIdx) (imm : BitVec 12) (s : State) : StepResult :=
  regImm (fun a b => boolWord (lessSigned a b)) rd rs1 imm s

/-- SLTIU: sign-extended first, then compared unsigned (R156). -/
def execSltiu (rd rs1 : RegIdx) (imm : BitVec 12) (s : State) : StepResult :=
  regImm (fun a b => boolWord (lessUnsigned a b)) rd rs1 imm s

/-- SRAI (R157). -/
def execSrai (rd rs1 : RegIdx) (shamt : BitVec 5) (s : State) : StepResult := shiftImm shiftRightArith rd rs1 shamt s

/-- SRLI (R158). -/
def execSrli (rd rs1 : RegIdx) (shamt : BitVec 5) (s : State) : StepResult := shiftImm shiftRightLogical rd rs1 shamt s

/-- SLLI (R159). -/
def execSlli (rd rs1 : RegIdx) (shamt : BitVec 5) (s : State) : StepResult := shiftImm shiftLeftLogical rd rs1 shamt s

/-- LUI (R160). -/
def execLui (rd : RegIdx) (imm : BitVec 20) (s : State) : StepResult := writeBack rd (immU imm) s

/-- AUIPC: the `pc` added is the address of the AUIPC itself (R161). -/
def execAuipc (rd : RegIdx) (imm : BitVec 20) (s : State) : StepResult := writeBack rd (s.pc + immU imm) s

end Sys2Proof.Machine
end

