-- ==== Sys2Proof/Machine/RegReg.lean ====
section
/-! DEFINITION. The register-register arithmetic instructions (41_reg_reg_arithmetic.md R130 to R142). Sums, differences and
products keep the low 32 bits (R130). -/

namespace Sys2Proof.Machine

/-- ADD (R131). -/
def execAdd (rd rs1 rs2 : RegIdx) (s : State) : StepResult := regReg (fun a b => a + b) rd rs1 rs2 s

/-- SUB: the minuend is `rs1` (R132). -/
def execSub (rd rs1 rs2 : RegIdx) (s : State) : StepResult := regReg (fun a b => a - b) rd rs1 rs2 s

/-- AND (R133). -/
def execAnd (rd rs1 rs2 : RegIdx) (s : State) : StepResult := regReg (fun a b => a &&& b) rd rs1 rs2 s

/-- OR (R134). -/
def execOr (rd rs1 rs2 : RegIdx) (s : State) : StepResult := regReg (fun a b => a ||| b) rd rs1 rs2 s

/-- XOR (R135). -/
def execXor (rd rs1 rs2 : RegIdx) (s : State) : StepResult := regReg (fun a b => a ^^^ b) rd rs1 rs2 s

/-- SLT (R136). -/
def execSlt (rd rs1 rs2 : RegIdx) (s : State) : StepResult := regReg (fun a b => boolWord (lessSigned a b)) rd rs1 rs2 s

/-- SLTU (R137). -/
def execSltu (rd rs1 rs2 : RegIdx) (s : State) : StepResult := regReg (fun a b => boolWord (lessUnsigned a b)) rd rs1 rs2 s

/-- SRA (R138). -/
def execSra (rd rs1 rs2 : RegIdx) (s : State) : StepResult := regReg (fun a b => shiftRightArith a (shiftAmount b)) rd rs1 rs2 s

/-- SRL (R139). -/
def execSrl (rd rs1 rs2 : RegIdx) (s : State) : StepResult := regReg (fun a b => shiftRightLogical a (shiftAmount b)) rd rs1 rs2 s

/-- SLL (R140). -/
def execSll (rd rs1 rs2 : RegIdx) (s : State) : StepResult := regReg (fun a b => shiftLeftLogical a (shiftAmount b)) rd rs1 rs2 s

/-- MUL: the low 32 bits of the product, the same for signed and unsigned operands (R141, R142). -/
def execMul (rd rs1 rs2 : RegIdx) (s : State) : StepResult := regReg (fun a b => a * b) rd rs1 rs2 s

end Sys2Proof.Machine
end

