-- ==== Sys2Proof/Machine/Manager.lean ====
section
/-! DEFINITION. The manager's two steps, each atomic, interleaved with processor steps as the state's agenda says
(60_exceptions.md R225, R226). They change the FIFOs and nothing else: the manager never touches memory, registers or
`pc` (R215, R225). -/

namespace Sys2Proof.Machine

/-- `enqueue(w)`: append a word at the tail of `mngr2proc_q` when it is not full (R226). A turn whose condition does not
hold does nothing (notes/assumptions/11.md). -/
def managerEnqueue (w : Word) (s : State) : State :=
  if fifoReady s.mngr2procQ s.cfg.mngr2procDepth then { s with mngr2procQ := s.mngr2procQ ++ [w] } else s

/-- `dequeue`: remove the head of `proc2mngr_q` when it is not empty (R226). -/
def managerDequeue (s : State) : State := { s with proc2mngrQ := s.proc2mngrQ.tail }

end Sys2Proof.Machine
end

