-- ==== Sys2Proof/Machine/Processor.lean ====
section
/-! DEFINITION. What a step is made of: fetch, decode and execute for the processor (00_scope.md R11), the turns of the
two agents (60_exceptions.md R226), the end of a run (70_reset_and_hazards.md R252), and placing a word where the next
step fetches it. -/

namespace Sys2Proof.Machine

/-- One processor step: fetch the word at `pc`, decode it for the machine's version, perform it (00_scope.md R11;
faults in the order of 60_exceptions.md R213). -/
def processorStep (s : State) : StepResult :=
  match fetch s with
  | .error f => raiseFault f
  | .ok w =>
    match decode s.cfg.isaVersion w with
    | .error _ => raiseFault (.illegalInstruction s.pc w)
    | .ok i => exec i s

/-- The word of `jal x0, 0`, the jump to itself (44_jump_instructions.md R180). -/
abbrev selfLoopWord : Word := 0x0000006F#32

/-- `END_OF_RUN` holds, where the user's predicate is `p`: no further processor step is taken and the state is final
(70_reset_and_hazards.md R252). -/
def runEndedUnder (p : Snapshot → Bool) (s : State) : Bool :=
  match s.cfg.endOfRun with
  | .never => false
  | .atPc haltPc => s.pc == haltPc
  | .afterWords n => decide (n ≤ s.sent.length)
  | .selfLoop =>
    match fetch s with
    | .ok w => w == selfLoopWord
    | .error _ => false
  | .predicate => p s.snapshot

/-- `END_OF_RUN` holds (70_reset_and_hazards.md R252). -/
def runEnded (s : State) : Bool := runEndedUnder endOfRunPredicate s

/-- The state with other turns left. -/
def State.setAgenda (s : State) (turns : List Turn) : State := { s with agenda := turns }

/-- The next turn: the processor's when the agenda names none (60_exceptions.md R226; notes/assumptions/10.md). -/
def takeTurn (s : State) : StepResult :=
  match s.agenda with
  | [] => processorStep s
  | .processor :: rest => processorStep (s.setAgenda rest)
  | .enqueue w :: rest => .next (managerEnqueue w (s.setAgenda rest))
  | .dequeue :: rest => .next (managerDequeue (s.setAgenda rest))

/-- One step where the user's predicate for the end of a run is `p`: a final state stays as it is
(70_reset_and_hazards.md R252; notes/assumptions/8.md), in any other the agent whose turn it is takes its step (00_scope.md R11,
60_exceptions.md R226). -/
def stepUnder (p : Snapshot → Bool) (s : State) : StepResult :=
  if runEndedUnder p s then .next s else takeTurn s

/-- A word put where the next step fetches it, and all that its running takes: it is in memory at `pc` without counting
as stored to (20_memory.md R68), the turn is the processor's, the run is not over, and the machine is of the version that
reads the word (notes/assumptions/7.md, 26.md). -/
def placeWord (word : Word) (s : State) : State :=
  { s with
    mem := Memory.writeWord s.mem s.pc.toNat word
    stored := s.stored.filter (fun a => a != s.pc.toNat)
    agenda := .processor :: s.agenda
    cfg := { s.cfg with isaVersion := tableVersion word, endOfRun := .never } }

end Sys2Proof.Machine
end

