-- ==== Sys2Proof/Machine/Step.lean ====
section
/-! DEFINITION. The step of the machine. -/

namespace Sys2Proof.Machine

/-- One step (00_scope.md R11, 60_exceptions.md R226), the end of a run being whichever predicate the user supplies
(70_reset_and_hazards.md R252; notes/assumptions/8.md). -/
def step (s : State) : Host.Outcome State Fault Refusal :=
  stepUnder endOfRunPredicate s

/-- `s` with the instruction of `nbits` bits `w` stored where the next step fetches it, so that this step runs it. -/
def State.withFetchWord (s : State) (nbits w : Nat) : State := placeWord (tableWord nbits w) s

end Sys2Proof.Machine
end

