-- ==== Sys2Proof/Machine/Assembly.lean ====
section
/-! DEFINITION. The assembly syntax of 30_encoding.md R102 to R104 and the pseudo-instructions of
46_pseudo_instructions.md R200 to R204, over lines already split into a mnemonic and operands (how characters spell
numbers, labels and comments is not in the source: 91_not_in_source.md N17). No step of the machine depends on it. -/

namespace Sys2Proof.Machine

/-- An operand of an assembly line: a register, a number, or a memory operand `imm(rs1)` (30_encoding.md R102). -/
inductive AsmOperand where
  | reg (r : RegIdx)
  | num (n : Int)
  | mem (offset : Int) (base : RegIdx)
deriving DecidableEq, Repr

/-- An assembly line: a lower-case mnemonic and its operands in order (30_encoding.md R102). -/
structure AsmLine where
  mnemonic : String
  operands : List AsmOperand
deriving DecidableEq, Repr

/-- The symbolic register names of 10_state.md R22 in the order x0 to x31; x8 is also `fp` (R104). -/
def abiNames : List String :=
  ["zero", "ra", "sp", "gp", "tp", "t0", "t1", "t2", "s0", "s1", "a0", "a1", "a2", "a3", "a4", "a5"] ++
  ["a6", "a7", "s2", "s3", "s4", "s5", "s6", "s7", "s8", "s9", "s10", "s11", "t3", "t4", "t5", "t6"]

/-- The register a symbolic name names (10_state.md R22, 30_encoding.md R104). -/
def regOfName (name : String) : Option RegIdx :=
  if name = "fp" then some 8#5
  else (abiNames.findIdx? (fun n => n == name)).map (fun k => BitVec.ofNat 5 k)

/-- The number of a CSR's name (10_state.md R28), the spellings of section 2 of the source with the others
(90_conflicts.md C3). -/
def csrOfName : String → Option CsrNum
  | "proc2mngr" => some csrProc2mngr
  | "mngr2proc" => some csrMngr2proc
  | "coreid" | "core_id" => some csrCoreid
  | "numcores" | "num_cores" => some csrNumcores
  | "stats_en" => some csrStatsEn
  | _ => none

/-- The line of an instruction (30_encoding.md R102). Branch and jump operands are byte offsets, and the operand of LUI
and AUIPC is the raw 20-bit field (R103). -/
def asmLine : Instr → AsmLine
  | .csrr rd csr => ⟨"csrr", [.reg rd, .num csr.toNat]⟩
  | .csrw csr rs1 => ⟨"csrw", [.num csr.toNat, .reg rs1]⟩
  | .add rd rs1 rs2 => ⟨"add", [.reg rd, .reg rs1, .reg rs2]⟩
  | .sub rd rs1 rs2 => ⟨"sub", [.reg rd, .reg rs1, .reg rs2]⟩
  | .and rd rs1 rs2 => ⟨"and", [.reg rd, .reg rs1, .reg rs2]⟩
  | .or rd rs1 rs2 => ⟨"or", [.reg rd, .reg rs1, .reg rs2]⟩
  | .xor rd rs1 rs2 => ⟨"xor", [.reg rd, .reg rs1, .reg rs2]⟩
  | .slt rd rs1 rs2 => ⟨"slt", [.reg rd, .reg rs1, .reg rs2]⟩
  | .sltu rd rs1 rs2 => ⟨"sltu", [.reg rd, .reg rs1, .reg rs2]⟩
  | .sra rd rs1 rs2 => ⟨"sra", [.reg rd, .reg rs1, .reg rs2]⟩
  | .srl rd rs1 rs2 => ⟨"srl", [.reg rd, .reg rs1, .reg rs2]⟩
  | .sll rd rs1 rs2 => ⟨"sll", [.reg rd, .reg rs1, .reg rs2]⟩
  | .mul rd rs1 rs2 => ⟨"mul", [.reg rd, .reg rs1, .reg rs2]⟩
  | .addi rd rs1 imm => ⟨"addi", [.reg rd, .reg rs1, .num imm.toInt]⟩
  | .andi rd rs1 imm => ⟨"andi", [.reg rd, .reg rs1, .num imm.toInt]⟩
  | .ori rd rs1 imm => ⟨"ori", [.reg rd, .reg rs1, .num imm.toInt]⟩
  | .xori rd rs1 imm => ⟨"xori", [.reg rd, .reg rs1, .num imm.toInt]⟩
  | .slti rd rs1 imm => ⟨"slti", [.reg rd, .reg rs1, .num imm.toInt]⟩
  | .sltiu rd rs1 imm => ⟨"sltiu", [.reg rd, .reg rs1, .num imm.toInt]⟩
  | .srai rd rs1 shamt => ⟨"srai", [.reg rd, .reg rs1, .num shamt.toNat]⟩
  | .srli rd rs1 shamt => ⟨"srli", [.reg rd, .reg rs1, .num shamt.toNat]⟩
  | .slli rd rs1 shamt => ⟨"slli", [.reg rd, .reg rs1, .num shamt.toNat]⟩
  | .lui rd imm => ⟨"lui", [.reg rd, .num imm.toNat]⟩
  | .auipc rd imm => ⟨"auipc", [.reg rd, .num imm.toNat]⟩
  | .lw rd imm rs1 => ⟨"lw", [.reg rd, .mem imm.toInt rs1]⟩
  | .sw rs2 imm rs1 => ⟨"sw", [.reg rs2, .mem imm.toInt rs1]⟩
  | .jal rd offset => ⟨"jal", [.reg rd, .num offset.toInt]⟩
  | .jr rs1 => ⟨"jr", [.reg rs1]⟩
  | .jalr rd rs1 imm => ⟨"jalr", [.reg rd, .reg rs1, .num imm.toInt]⟩
  | .beq rs1 rs2 offset => ⟨"beq", [.reg rs1, .reg rs2, .num offset.toInt]⟩
  | .bne rs1 rs2 offset => ⟨"bne", [.reg rs1, .reg rs2, .num offset.toInt]⟩
  | .blt rs1 rs2 offset => ⟨"blt", [.reg rs1, .reg rs2, .num offset.toInt]⟩
  | .bge rs1 rs2 offset => ⟨"bge", [.reg rs1, .reg rs2, .num offset.toInt]⟩
  | .bltu rs1 rs2 offset => ⟨"bltu", [.reg rs1, .reg rs2, .num offset.toInt]⟩
  | .bgeu rs1 rs2 offset => ⟨"bgeu", [.reg rs1, .reg rs2, .num offset.toInt]⟩

/-- A number as a signed field of `n` bits, where it is in range (30_encoding.md R102, R103). -/
def signedField (n : Nat) (k : Int) : Option (BitVec n) :=
  if (BitVec.ofInt n k).toInt = k then some (BitVec.ofInt n k) else none

/-- A number as an unsigned field of `n` bits, where it is in range (30_encoding.md R102, R103). -/
def unsignedField (n : Nat) (k : Int) : Option (BitVec n) :=
  if ((BitVec.ofInt n k).toNat : Int) = k then some (BitVec.ofInt n k) else none

/-- The register-register mnemonics. -/
def asmRegReg : String → Option (RegIdx → RegIdx → RegIdx → Instr)
  | "add" => some .add | "sub" => some .sub | "and" => some .and | "or" => some .or | "xor" => some .xor
  | "slt" => some .slt | "sltu" => some .sltu | "sra" => some .sra | "srl" => some .srl | "sll" => some .sll
  | "mul" => some .mul
  | _ => none

/-- The mnemonics with two registers and a 12-bit signed number. -/
def asmRegImm : String → Option (RegIdx → RegIdx → BitVec 12 → Instr)
  | "addi" => some .addi | "andi" => some .andi | "ori" => some .ori | "xori" => some .xori
  | "slti" => some .slti | "sltiu" => some .sltiu | "jalr" => some .jalr
  | _ => none

/-- The mnemonics with two registers and a shift amount. -/
def asmShiftImm : String → Option (RegIdx → RegIdx → BitVec 5 → Instr)
  | "srai" => some .srai | "srli" => some .srli | "slli" => some .slli
  | _ => none

/-- The branch mnemonics. -/
def asmBranch : String → Option (RegIdx → RegIdx → BitVec 13 → Instr)
  | "beq" => some .beq | "bne" => some .bne | "blt" => some .blt | "bge" => some .bge
  | "bltu" => some .bltu | "bgeu" => some .bgeu
  | _ => none

/-- The mnemonics with a register and a raw 20-bit field. -/
def asmUpper : String → Option (RegIdx → BitVec 20 → Instr)
  | "lui" => some .lui | "auipc" => some .auipc
  | _ => none

/-- Two registers and a number: register-immediate, shift by a constant, JALR or branch. -/
def assembleRegRegNum (m : String) (a b : RegIdx) (k : Int) : Option Instr :=
  match asmRegImm m, asmShiftImm m, asmBranch m with
  | some f, _, _ => (signedField 12 k).map (f a b)
  | none, some f, _ => (unsignedField 5 k).map (f a b)
  | none, none, some f => (signedField 13 k).map (f a b)
  | none, none, none => none

/-- A register and a number: CSRR, LUI, AUIPC or JAL. -/
def assembleRegNum (m : String) (rd : RegIdx) (k : Int) : Option Instr :=
  if m = "csrr" then (unsignedField 12 k).map (.csrr rd)
  else if m = "jal" then (signedField 21 k).map (.jal rd)
  else (asmUpper m).bind fun f => (unsignedField 20 k).map (f rd)

/-- A register and a memory operand: LW or SW. -/
def assembleMem (m : String) (r : RegIdx) (k : Int) (base : RegIdx) : Option Instr :=
  (signedField 12 k).bind fun imm =>
    if m = "lw" then some (.lw r imm base) else if m = "sw" then some (.sw r imm base) else none

/-- The instruction a line stands for, before the check of its version and of an odd offset. `nop` is
`addi x0, x0, 0` in both versions (46_pseudo_instructions.md R200); `jr rs1` is the real JR in TinyRV1 and
`jalr x0, rs1, 0` in TinyRV2 (R201). -/
def assembleAny (v : IsaVersion) (l : AsmLine) : Option Instr :=
  match l.operands with
  | [] => if l.mnemonic = "nop" then some (.addi 0#5 0#5 0#12) else none
  | [.reg r] =>
    if l.mnemonic = "jr" then some (match v with | .tinyRV1 => .jr r | .tinyRV2 => .jalr 0#5 r 0#12) else none
  | [.reg a, .reg b, .reg c] => (asmRegReg l.mnemonic).map fun f => f a b c
  | [.reg a, .reg b, .num k] => assembleRegRegNum l.mnemonic a b k
  | [.reg a, .num k] => assembleRegNum l.mnemonic a k
  | [.num k, .reg a] => if l.mnemonic = "csrw" then (unsignedField 12 k).map fun csr => .csrw csr a else none
  | [.reg a, .mem k base] => assembleMem l.mnemonic a k base
  | _ => none

/-- Assembling a line for a machine of version `v` (30_encoding.md R102, R103; 46_pseudo_instructions.md R204). -/
def assemble (v : IsaVersion) (l : AsmLine) : Option Instr :=
  (assembleAny v l).filter fun i => i.wf && i.inVersion v

end Sys2Proof.Machine
end

