-- ==== Sys2Proof/Safety.lean ====
section
/-! DEFINITION. The terms claims are made in: what a step came to, which states are legal, what stays the same from one
state to the next, and when the processor waits for the manager. Nothing here is part of the machine. -/

namespace Sys2Proof.Machine

/-- The next state of a step that has one. -/
def nextOf : StepResult → Option State
  | .next t => some t
  | _ => none

/-- The fault of a step that ended in one. -/
def faultOf : StepResult → Option Fault
  | .fault f => some f
  | _ => none

/-! ### Legal states -/

/-- A FIFO holds no more words than its depth (10_state.md R33, R34). -/
def fifoWithin (q : List Word) : Option Nat → Bool
  | none => true
  | some depth => decide (q.length ≤ depth)

/-- What holds of the state of every run: memory and `stored` are in their canonical form and hold addresses of memory
only, the parameters are in their ranges, no FIFO holds more than its depth, what waits in `proc2mngr_q` is the newest of
what was sent, and `pc` is even (10_state.md R26: every instruction adds or clears to an even value). -/
structure State.Inv (s : State) : Prop where
  memWf : Memory.wf s.mem = true
  storedWf : storedWf s.stored = true
  cfgLegal : s.cfg.legal = true
  inputWithin : fifoWithin s.mngr2procQ s.cfg.mngr2procDepth = true
  outputWithin : fifoWithin s.proc2mngrQ s.cfg.proc2mngrDepth = true
  outputSent : s.proc2mngrQ <:+ s.sent
  pcEven : s.pc.getLsbD 0 = false

/-- `k` steps of the machine where the user's predicate for the end of a run is `p` (70_reset_and_hazards.md R252: a claim about
a program names the end it uses), stopping at the first fault or refusal. -/
def runStepsUnder (p : Snapshot → Bool) : Nat → State → StepResult
  | 0, s => .next s
  | k + 1, s =>
    match stepUnder p s with
    | .next t => runStepsUnder p k t
    | .fault f => .fault f
    | .refused r => .refused r

/-- `k` steps of the machine, stopping at the first fault or refusal. -/
def runSteps (k : Nat) (s : State) : StepResult := runStepsUnder endOfRunPredicate k s

/-- A run of `k` steps is safe: it raises no fault (60_exceptions.md R211: a claim about a program has "no fault" as a
premise or a conclusion). -/
def safeFor (k : Nat) (s : State) : Prop := ∃ t, runSteps k s = .next t

/-! ### What stays the same -/

/-- Every x register keeps its value. -/
def keepsRegs (s t : State) : Prop := ∀ r, t.getX r = s.getX r

/-- `x[rd]` is `v` and every other register keeps its value; x0 reads 0 whatever was written to it (10_state.md R21). -/
def writesReg (s t : State) (rd : RegIdx) (v : Word) : Prop :=
  ∀ r, t.getX r = if r = 0#5 then 0#32 else if r = rd then v else s.getX r

/-- Every byte of memory, and the set `stored`, is unchanged. -/
def keepsMem (s t : State) : Prop := (∀ a, Memory.read t.mem a = Memory.read s.mem a) ∧ t.stored = s.stored

/-- Every byte of memory outside the four bytes from `addr` on is unchanged. -/
def keepsMemOutside (s t : State) (addr : Nat) : Prop :=
  ∀ a, (a < addr ∨ addr + 4 ≤ a) → Memory.read t.mem a = Memory.read s.mem a

/-- Both FIFOs and the record of the words sent are unchanged. -/
def keepsFifos (s t : State) : Prop :=
  t.mngr2procQ = s.mngr2procQ ∧ t.proc2mngrQ = s.proc2mngrQ ∧ t.sent = s.sent

/-- The turns left and the configuration are unchanged. -/
def keepsSetting (s t : State) : Prop := t.agenda = s.agenda ∧ t.cfg = s.cfg

/-- Everything but the x registers and `pc` is unchanged. -/
def keepsAllButRegsPc (s t : State) : Prop :=
  keepsMem s t ∧ t.statsEn = s.statsEn ∧ keepsFifos s t ∧ keepsSetting s t

/-- The whole effect of an instruction that writes `v` to `x[rd]`, goes on at `pc + 4` and changes nothing else. -/
def onlyWrites (s t : State) (rd : RegIdx) (v : Word) : Prop :=
  writesReg s t rd v ∧ t.pc = s.pc + 4#32 ∧ keepsAllButRegsPc s t

/-- The whole effect of an instruction that sets `pc` and changes nothing else. -/
def onlySetsPc (s t : State) (target : Word) : Prop :=
  keepsRegs s t ∧ t.pc = target ∧ keepsAllButRegsPc s t

/-- The register an instruction names as its destination (10_state.md R23). -/
def destination : Instr → Option RegIdx
  | .csrr rd _ | .add rd _ _ | .sub rd _ _ | .and rd _ _ | .or rd _ _ | .xor rd _ _ | .slt rd _ _ | .sltu rd _ _
  | .sra rd _ _ | .srl rd _ _ | .sll rd _ _ | .mul rd _ _ | .addi rd _ _ | .andi rd _ _ | .ori rd _ _ | .xori rd _ _
  | .slti rd _ _ | .sltiu rd _ _ | .srai rd _ _ | .srli rd _ _ | .slli rd _ _ | .lui rd _ | .auipc rd _ | .lw rd _ _
  | .jal rd _ | .jalr rd _ _ => some rd
  | .csrw _ _ | .sw _ _ _ | .jr _ | .beq _ _ _ | .bne _ _ _ | .blt _ _ _ | .bge _ _ _ | .bltu _ _ _ | .bgeu _ _ _ => none

/-- The instructions that say what `pc` becomes (10_state.md R25): the jumps and the branches. -/
def setsPc : Instr → Bool
  | .jal _ _ | .jr _ | .jalr _ _ _ | .beq _ _ _ | .bne _ _ _ | .blt _ _ _ | .bge _ _ _ | .bltu _ _ _ | .bgeu _ _ _ => true
  | .csrr _ _ | .csrw _ _ | .add _ _ _ | .sub _ _ _ | .and _ _ _ | .or _ _ _ | .xor _ _ _ | .slt _ _ _ | .sltu _ _ _
  | .sra _ _ _ | .srl _ _ _ | .sll _ _ _ | .mul _ _ _ | .addi _ _ _ | .andi _ _ _ | .ori _ _ _ | .xori _ _ _
  | .slti _ _ _ | .sltiu _ _ _ | .srai _ _ _ | .srli _ _ _ | .slli _ _ _ | .lui _ _ | .auipc _ _ | .lw _ _ _
  | .sw _ _ _ => false

/-! ### Waiting for the manager -/

/-- The instruction waits: a CSRR of an empty `mngr2proc`, or a CSRW of a `proc2mngr` that is not ready (00_scope.md
R14). -/
def waits (i : Instr) (s : State) : Bool :=
  match i with
  | .csrr _ csr => csr == csrMngr2proc && s.mngr2procQ.isEmpty
  | .csrw csr _ => csr == csrProc2mngr && !fifoReady s.proc2mngrQ s.cfg.proc2mngrDepth
  | _ => false

/-- The instruction the next processor step performs, where it fetches and decodes one. -/
def nextInstr (s : State) : Option Instr :=
  match fetch s with
  | .error _ => none
  | .ok w =>
    match decode s.cfg.isaVersion w with
    | .error _ => none
    | .ok i => some i

/-- The processor is stalled: its next instruction waits (60_exceptions.md R226, R227). -/
def stalled (s : State) : Bool :=
  match nextInstr s with
  | none => false
  | some i => waits i s

/-- The next turn is the processor's, and the turns after it (60_exceptions.md R226). -/
def processorsTurn (s : State) (rest : List Turn) : Prop :=
  (s.agenda = [] ∧ rest = []) ∨ s.agenda = .processor :: rest

/-- The same state on a machine of another version (00_scope.md R3). -/
def State.onVersion (s : State) (v : IsaVersion) : State := { s with cfg := { s.cfg with isaVersion := v } }

/-! ### Rows of the opcode table -/

/-- A row of the opcode table: every word with the row's fixed bits decodes, in the versions of the row and in no other, to
the instruction built from the word's fields, whose assembly line is the one given (30_encoding.md R94, R95, R102). -/
def rowDecodes (versions : List IsaVersion) (pattern mask : Word) (built : Word → Instr) (line : Word → AsmLine) : Prop :=
  ∀ (v : IsaVersion) (w : Word), w &&& mask = pattern →
    (decode v w = .ok (built w) ↔ v ∈ versions) ∧ asmLine (built w) = line w

/-- An R-type instruction of a word: `rd = inst[11:7]`, `rs1 = inst[19:15]`, `rs2 = inst[24:20]` (30_encoding.md R81). -/
def builtR (f : RegIdx → RegIdx → RegIdx → Instr) (w : Word) : Instr :=
  f (w.extractLsb' 7 5) (w.extractLsb' 15 5) (w.extractLsb' 20 5)

/-- An I-type instruction of a word, its immediate `inst[31:20]` (30_encoding.md R82, R85). -/
def builtI (f : RegIdx → RegIdx → BitVec 12 → Instr) (w : Word) : Instr :=
  f (w.extractLsb' 7 5) (w.extractLsb' 15 5) (w.extractLsb' 20 12)

/-- A U-type instruction of a word, its immediate `inst[31:12]` (30_encoding.md R84, R88). -/
def builtU (f : RegIdx → BitVec 20 → Instr) (w : Word) : Instr := f (w.extractLsb' 7 5) (w.extractLsb' 12 20)

/-- A branch of a word, its offset `{inst[31], inst[7], inst[30:25], inst[11:8], 0}` (30_encoding.md R83, R87). -/
def builtB (f : RegIdx → RegIdx → BitVec 13 → Instr) (w : Word) : Instr :=
  f (w.extractLsb' 15 5) (w.extractLsb' 20 5)
    (w.extractLsb' 31 1 ++ w.extractLsb' 7 1 ++ w.extractLsb' 25 6 ++ w.extractLsb' 8 4 ++ 0#1)

/-- The line `name rd, rs1, rs2` of a word (30_encoding.md R102). -/
def lineR (name : String) (w : Word) : AsmLine :=
  ⟨name, [.reg (w.extractLsb' 7 5), .reg (w.extractLsb' 15 5), .reg (w.extractLsb' 20 5)]⟩

/-- The line `name rd, rs1, imm` of a word, the immediate signed (30_encoding.md R102). -/
def lineI (name : String) (w : Word) : AsmLine :=
  ⟨name, [.reg (w.extractLsb' 7 5), .reg (w.extractLsb' 15 5), .num (w.extractLsb' 20 12).toInt]⟩

/-- The line `name rd, rs1, imm` of a word, the immediate a shift amount (30_encoding.md R102). -/
def lineShift (name : String) (w : Word) : AsmLine :=
  ⟨name, [.reg (w.extractLsb' 7 5), .reg (w.extractLsb' 15 5), .num (w.extractLsb' 20 5).toNat]⟩

/-- The line `name rd, imm` of a word, the immediate its raw upper 20 bits (30_encoding.md R102). -/
def lineU (name : String) (w : Word) : AsmLine :=
  ⟨name, [.reg (w.extractLsb' 7 5), .num (w.extractLsb' 12 20).toNat]⟩

/-- The line `name rs1, rs2, imm` of a word, the immediate the signed byte offset (30_encoding.md R102). -/
def lineB (name : String) (w : Word) : AsmLine :=
  ⟨name, [.reg (w.extractLsb' 15 5), .reg (w.extractLsb' 20 5),
    .num (w.extractLsb' 31 1 ++ w.extractLsb' 7 1 ++ w.extractLsb' 25 6 ++ w.extractLsb' 8 4 ++ 0#1).toInt]⟩

end Sys2Proof.Machine
end

