-- ==== Sys2Proof/Certificates/Slice0/Obligations.lean ====
section
/-! DEFINITION. The statements of this row, from the numbered rules of spec/. Where a clause rests on the spec's own decision
(D<n>), on its general knowledge (G<n>) or on a choice of the model (notes/assumptions/<n>.md), the docstring says so. A clause
`rowDecodes` says of a row of the opcode table (30_encoding.md R94) that every word with the row's fixed bits decodes to it in
exactly the row's versions, and that its assembly line is the row's (R102). -/

open Sys2Proof Sys2Proof.Machine

/-! ### Encoding -/

/-- Decoding the word of a well-formed instruction on a machine that has the instruction gives it back: no operand bit is
dropped (30_encoding.md R80 to R98). -/
def Obligations.DecodeInvertsEncode : Prop :=
  ∀ (v : IsaVersion) (i : Instr), i.wf = true → i.inVersion v = true → decode v (encode i) = .ok i

/-- Each word has one meaning: the word of a decoded instruction is the word decoded, bit for bit, and the instruction is
well-formed and of the machine's version (30_encoding.md R95, R100). -/
def Obligations.EncodeInvertsDecode : Prop :=
  ∀ (v : IsaVersion) (w : Word) (i : Instr),
    decode v w = .ok i → encode i = w ∧ i.wf = true ∧ i.inVersion v = true

/-- 30_encoding.md R95: the decoder accepts exactly the words that match a row of the opcode table of its version, as that
row's instruction; within a version no word matches two rows. -/
def Obligations.DecoderAgreesWithOpcodeTable : Prop :=
  ∀ (v : IsaVersion) (w : Word),
    (∀ i, decode v w = .ok i →
      ∃ r ∈ opcodeTable, r.inVersion v = true ∧ w &&& r.mask = r.pattern ∧ r.mnemonic = i.mnemonic) ∧
    (∀ r ∈ opcodeTable, r.inVersion v = true → w &&& r.mask = r.pattern →
      ∃ i, decode v w = .ok i ∧ i.mnemonic = r.mnemonic) ∧
    (∀ r ∈ opcodeTable, ∀ q ∈ opcodeTable, r.inVersion v = true → q.inVersion v = true →
      w &&& r.mask = r.pattern → w &&& q.mask = q.pattern → r = q)

/-- 30_encoding.md R85 to R89: the five 32-bit immediates of a word, in the bit order of the source's diagrams, and their
ranges; the B- and J-immediates are even. -/
def Obligations.ImmediateDiagrams : Prop :=
  ∀ w : Word,
    (imm12 (fieldImmI w) =
        (w.extractLsb' 31 1).signExtend 21 ++ w.extractLsb' 25 6 ++ w.extractLsb' 21 4 ++ w.extractLsb' 20 1 ∧
      -2048 ≤ (imm12 (fieldImmI w)).toInt ∧ (imm12 (fieldImmI w)).toInt ≤ 2047) ∧
    (imm12 (fieldImmS w) =
        (w.extractLsb' 31 1).signExtend 21 ++ w.extractLsb' 25 6 ++ w.extractLsb' 8 4 ++ w.extractLsb' 7 1 ∧
      -2048 ≤ (imm12 (fieldImmS w)).toInt ∧ (imm12 (fieldImmS w)).toInt ≤ 2047) ∧
    (immB (fieldImmB w) =
        (w.extractLsb' 31 1).signExtend 20 ++ w.extractLsb' 7 1 ++ w.extractLsb' 25 6 ++ w.extractLsb' 8 4 ++ 0#1 ∧
      -4096 ≤ (immB (fieldImmB w)).toInt ∧ (immB (fieldImmB w)).toInt ≤ 4094) ∧
    immU (fieldImmU w) = w.extractLsb' 12 20 ++ 0#12 ∧
    (immJ (fieldImmJ w) =
        (w.extractLsb' 31 1).signExtend 12 ++ w.extractLsb' 12 8 ++ w.extractLsb' 20 1 ++ w.extractLsb' 25 6 ++
          w.extractLsb' 21 4 ++ 0#1 ∧
      -1048576 ≤ (immJ (fieldImmJ w)).toInt ∧ (immJ (fieldImmJ w)).toInt ≤ 1048574)

/-- A few words written out in the spec's examples decode to the instructions they stand for (R120, R131, R151, R171,
R180, R192). -/
def Obligations.ExampleWordsDecode : Prop :=
  decode .tinyRV2 0xFC0022F3#32 = .ok (.csrr 5#5 0xFC0#12) ∧ decode .tinyRV2 0x002081B3#32 = .ok (.add 3#5 1#5 2#5) ∧
  decode .tinyRV1 0xFFF30293#32 = .ok (.addi 5#5 6#5 0xFFF#12) ∧
  decode .tinyRV2 0xFE512E23#32 = .ok (.sw 5#5 0xFFC#12 2#5) ∧
  decode .tinyRV1 0xFF9FF06F#32 = .ok (.jal 0#5 0x1FFFF8#21) ∧
  decode .tinyRV2 0xFE209EE3#32 = .ok (.bne 1#5 2#5 0x1FFC#13)

/-- The words RV32I and the privileged architecture use for ECALL, EBREAK, MRET, WFI, FENCE and FENCE.I, a byte load, a
divide, and the all-zero and all-ones words are no instructions of either version (R66, R97, R232; the names are the spec's
general knowledge G10, and that such words fault is its decision D3). -/
def Obligations.AbsentInstructionWordsRejected : Prop :=
  ∀ v : IsaVersion, ∀ w ∈ [0x00000073#32, 0x00100073#32, 0x30200073#32, 0x10500073#32, 0x0000000F#32, 0x0000100F#32,
    0x00000003#32, 0x02004033#32, 0x00000000#32, 0xFFFFFFFF#32], ∀ i, decode v w ≠ .ok i

/-- What a TinyRV1 machine decodes (30_encoding.md R96, the spec's decision D1): the words of the seven instructions it
shares with TinyRV2, as there, and the word of `jalr x0, rs1, 0` as JR. -/
def Obligations.TinyRV1DecodesItsEightInstructions : Prop :=
  ∀ (w : Word) (i : Instr), decode .tinyRV1 w = .ok i ↔
    (∃ rs1, i = .jr rs1 ∧ decode .tinyRV2 w = .ok (.jalr 0#5 rs1 0#12)) ∨
    (decode .tinyRV2 w = .ok i ∧ i.inVersion .tinyRV1 = true)

/-! ### Registers and the frame of every instruction -/

/-- x0 reads 0 in every state, a write to it changes nothing at all, and an instruction whose destination is x0 changes no
register (10_state.md R21). -/
def Obligations.ZeroRegisterIsHardwired : Prop :=
  ∀ s : State, s.getX 0#5 = 0#32 ∧ (∀ v, s.setX 0#5 v = s) ∧
    ∀ i t, destination i = some 0#5 → exec i s = .next t → keepsRegs s t

/-- No instruction changes an x register other than the destination it names (10_state.md R23). -/
def Obligations.RegistersChangeOnlyAtDestination : Prop :=
  ∀ (i : Instr) (s t : State) (r : RegIdx), exec i s = .next t → destination i ≠ some r → t.getX r = s.getX r

/-- An instruction that is no jump and no branch goes on at `pc + 4`, unless it waits for the manager and changes nothing
(10_state.md R25; a wait is a next state equal to the old one by the model's choice, log 9). -/
def Obligations.PcAdvancesByFour : Prop :=
  ∀ (i : Instr) (s t : State), exec i s = .next t → setsPc i = false →
    t.pc = s.pc + 4#32 ∨ (waits i s = true ∧ t = s)

/-- Only SW changes a byte of memory or the set `stored`; only CSRW of `stats_en` changes it; only CSRR of `mngr2proc` and
CSRW of `proc2mngr` change the FIFOs; nothing changes the turns left or the configuration (10_state.md R39, R40, R42;
40_csr_instructions.md R120, R121). -/
def Obligations.OnlyStoresAndCsrsChangeTheRest : Prop :=
  ∀ (i : Instr) (s t : State), exec i s = .next t →
    ((∀ rs2 imm rs1, i ≠ .sw rs2 imm rs1) → keepsMem s t) ∧
    ((∀ rs1, i ≠ .csrw csrStatsEn rs1) → t.statsEn = s.statsEn) ∧
    ((∀ rd, i ≠ .csrr rd csrMngr2proc) → t.mngr2procQ = s.mngr2procQ) ∧
    ((∀ rs1, i ≠ .csrw csrProc2mngr rs1) → t.proc2mngrQ = s.proc2mngrQ ∧ t.sent = s.sent) ∧
    keepsSetting s t

/-! ### Register-register arithmetic -/

/-- ADD, SUB and MUL complete in every state, write the sum, difference or product modulo 2^32 to `x[rd]`, go on at
`pc + 4` and change nothing else, and every word of their rows decodes to them (R131, R132, R141; that results wrap is the
spec's general knowledge G2). -/
def Obligations.AddSubMulResults : Prop :=
  rowDecodes [.tinyRV1, .tinyRV2] 0x00000033#32 0xFE00707F#32 (builtR .add) (lineR "add") ∧
  rowDecodes [.tinyRV2] 0x40000033#32 0xFE00707F#32 (builtR .sub) (lineR "sub") ∧
  rowDecodes [.tinyRV1, .tinyRV2] 0x02000033#32 0xFE00707F#32 (builtR .mul) (lineR "mul") ∧
  ∀ (rd rs1 rs2 : RegIdx) (s : State),
    (∃ t v, exec (.add rd rs1 rs2) s = .next t ∧ onlyWrites s t rd v ∧
      v.toNat = ((s.getX rs1).toNat + (s.getX rs2).toNat) % 2 ^ 32) ∧
    (∃ t v, exec (.sub rd rs1 rs2) s = .next t ∧ onlyWrites s t rd v ∧
      (v.toNat : Int) = ((s.getX rs1).toNat - (s.getX rs2).toNat : Int) % 2 ^ 32) ∧
    (∃ t v, exec (.mul rd rs1 rs2) s = .next t ∧ onlyWrites s t rd v ∧
      v.toNat = ((s.getX rs1).toNat * (s.getX rs2).toNat) % 2 ^ 32)

/-- The multiply law at every sign combination: what MUL writes is the product of the operands read as signed numbers,
modulo 2^32, and is that product itself wherever it lies in -2^31 to 2^31 - 1 (R142, which the spec derives from R130). -/
def Obligations.MultiplySignedLaw : Prop :=
  ∀ (rd rs1 rs2 : RegIdx) (s : State), ∃ t v, exec (.mul rd rs1 rs2) s = .next t ∧ onlyWrites s t rd v ∧
    (v.toNat : Int) = ((s.getX rs1).toInt * (s.getX rs2).toInt) % 2 ^ 32 ∧
    (-2 ^ 31 ≤ (s.getX rs1).toInt * (s.getX rs2).toInt → (s.getX rs1).toInt * (s.getX rs2).toInt < 2 ^ 31 →
      v.toInt = (s.getX rs1).toInt * (s.getX rs2).toInt)

/-- AND, OR and XOR complete in every state and write the bitwise result, bit by bit (R133, R134, R135). -/
def Obligations.LogicalResults : Prop :=
  rowDecodes [.tinyRV2] 0x00007033#32 0xFE00707F#32 (builtR .and) (lineR "and") ∧
  rowDecodes [.tinyRV2] 0x00006033#32 0xFE00707F#32 (builtR .or) (lineR "or") ∧
  rowDecodes [.tinyRV2] 0x00004033#32 0xFE00707F#32 (builtR .xor) (lineR "xor") ∧
  ∀ (rd rs1 rs2 : RegIdx) (s : State),
    (∃ t v, exec (.and rd rs1 rs2) s = .next t ∧ onlyWrites s t rd v ∧
      ∀ k < 32, v.getLsbD k = ((s.getX rs1).getLsbD k && (s.getX rs2).getLsbD k)) ∧
    (∃ t v, exec (.or rd rs1 rs2) s = .next t ∧ onlyWrites s t rd v ∧
      ∀ k < 32, v.getLsbD k = ((s.getX rs1).getLsbD k || (s.getX rs2).getLsbD k)) ∧
    (∃ t v, exec (.xor rd rs1 rs2) s = .next t ∧ onlyWrites s t rd v ∧
      ∀ k < 32, v.getLsbD k = ((s.getX rs1).getLsbD k != (s.getX rs2).getLsbD k))

/-- SLT and SLTU complete in every state and write 1 where the signed, or the unsigned, comparison holds and 0 where it
does not (R136, R137; the values 1 and 0 are the spec's general knowledge G3). -/
def Obligations.ComparisonResults : Prop :=
  rowDecodes [.tinyRV2] 0x00002033#32 0xFE00707F#32 (builtR .slt) (lineR "slt") ∧
  rowDecodes [.tinyRV2] 0x00003033#32 0xFE00707F#32 (builtR .sltu) (lineR "sltu") ∧
  ∀ (rd rs1 rs2 : RegIdx) (s : State),
    (∃ t v, exec (.slt rd rs1 rs2) s = .next t ∧ onlyWrites s t rd v ∧
      ((s.getX rs1).toInt < (s.getX rs2).toInt → v = 1#32) ∧ (¬(s.getX rs1).toInt < (s.getX rs2).toInt → v = 0#32)) ∧
    (∃ t v, exec (.sltu rd rs1 rs2) s = .next t ∧ onlyWrites s t rd v ∧
      ((s.getX rs1).toNat < (s.getX rs2).toNat → v = 1#32) ∧ (¬(s.getX rs1).toNat < (s.getX rs2).toNat → v = 0#32))

/-- SRA, SRL and SLL complete in every state and shift by the bottom five bits of `x[rs2]` alone: the arithmetic shift is
the floor of the signed division by the power of two, the logical one of the unsigned, the left shift the product modulo
2^32 (R138, R139, R140). -/
def Obligations.RegisterShiftResults : Prop :=
  rowDecodes [.tinyRV2] 0x40005033#32 0xFE00707F#32 (builtR .sra) (lineR "sra") ∧
  rowDecodes [.tinyRV2] 0x00005033#32 0xFE00707F#32 (builtR .srl) (lineR "srl") ∧
  rowDecodes [.tinyRV2] 0x00001033#32 0xFE00707F#32 (builtR .sll) (lineR "sll") ∧
  ∀ (rd rs1 rs2 : RegIdx) (s : State),
    (∃ t v, exec (.sra rd rs1 rs2) s = .next t ∧ onlyWrites s t rd v ∧
      v.toInt = (s.getX rs1).toInt / 2 ^ ((s.getX rs2).toNat % 32)) ∧
    (∃ t v, exec (.srl rd rs1 rs2) s = .next t ∧ onlyWrites s t rd v ∧
      v.toNat = (s.getX rs1).toNat / 2 ^ ((s.getX rs2).toNat % 32)) ∧
    (∃ t v, exec (.sll rd rs1 rs2) s = .next t ∧ onlyWrites s t rd v ∧
      v.toNat = ((s.getX rs1).toNat * 2 ^ ((s.getX rs2).toNat % 32)) % 2 ^ 32)

/-! ### Register-immediate arithmetic -/

/-- ADDI completes in every state and adds the signed 12-bit constant modulo 2^32 (R151; that the sum wraps is the spec's
general knowledge G2). -/
def Obligations.AddImmediateResult : Prop :=
  rowDecodes [.tinyRV1, .tinyRV2] 0x00000013#32 0x0000707F#32 (builtI .addi) (lineI "addi") ∧
  ∀ (rd rs1 : RegIdx) (imm : BitVec 12) (s : State),
    ∃ t v, exec (.addi rd rs1 imm) s = .next t ∧ onlyWrites s t rd v ∧
      (v.toNat : Int) = ((s.getX rs1).toNat + imm.toInt) % 2 ^ 32

/-- ANDI, ORI and XORI complete in every state and combine `x[rs1]` with the immediate bit by bit, its bit 11 standing for
every bit above it: the immediate is sign-extended for all three (R152, R153, R154). -/
def Obligations.LogicalImmediateResults : Prop :=
  rowDecodes [.tinyRV2] 0x00007013#32 0x0000707F#32 (builtI .andi) (lineI "andi") ∧
  rowDecodes [.tinyRV2] 0x00006013#32 0x0000707F#32 (builtI .ori) (lineI "ori") ∧
  rowDecodes [.tinyRV2] 0x00004013#32 0x0000707F#32 (builtI .xori) (lineI "xori") ∧
  ∀ (rd rs1 : RegIdx) (imm : BitVec 12) (s : State),
    (∃ t v, exec (.andi rd rs1 imm) s = .next t ∧ onlyWrites s t rd v ∧
      ∀ k < 32, v.getLsbD k = ((s.getX rs1).getLsbD k && imm.getLsbD (min k 11))) ∧
    (∃ t v, exec (.ori rd rs1 imm) s = .next t ∧ onlyWrites s t rd v ∧
      ∀ k < 32, v.getLsbD k = ((s.getX rs1).getLsbD k || imm.getLsbD (min k 11))) ∧
    (∃ t v, exec (.xori rd rs1 imm) s = .next t ∧ onlyWrites s t rd v ∧
      ∀ k < 32, v.getLsbD k = ((s.getX rs1).getLsbD k != imm.getLsbD (min k 11)))

/-- SLTI and SLTIU complete in every state; SLTI compares with the signed constant, SLTIU with the constant sign-extended
and then read as unsigned (R155, R156; the values 1 and 0 are the spec's general knowledge G3). -/
def Obligations.ComparisonImmediateResults : Prop :=
  rowDecodes [.tinyRV2] 0x00002013#32 0x0000707F#32 (builtI .slti) (lineI "slti") ∧
  rowDecodes [.tinyRV2] 0x00003013#32 0x0000707F#32 (builtI .sltiu) (lineI "sltiu") ∧
  ∀ (rd rs1 : RegIdx) (imm : BitVec 12) (s : State),
    (∃ t v, exec (.slti rd rs1 imm) s = .next t ∧ onlyWrites s t rd v ∧
      ((s.getX rs1).toInt < imm.toInt → v = 1#32) ∧ (¬(s.getX rs1).toInt < imm.toInt → v = 0#32)) ∧
    (∃ t v, exec (.sltiu rd rs1 imm) s = .next t ∧ onlyWrites s t rd v ∧
      (((s.getX rs1).toNat : Int) < imm.toInt % 2 ^ 32 → v = 1#32) ∧
      (¬((s.getX rs1).toNat : Int) < imm.toInt % 2 ^ 32 → v = 0#32))

/-- SRAI, SRLI and SLLI complete in every state and shift by the unsigned 5-bit constant; the field above it is a fixed
function code (R157, R158, R159). A word with any other code there is no instruction: R97, the spec's own decision D3
(log 16). -/
def Obligations.ConstantShiftResults : Prop :=
  rowDecodes [.tinyRV2] 0x40005013#32 0xFE00707F#32 (builtR .srai) (lineShift "srai") ∧
  rowDecodes [.tinyRV2] 0x00005013#32 0xFE00707F#32 (builtR .srli) (lineShift "srli") ∧
  rowDecodes [.tinyRV2] 0x00001013#32 0xFE00707F#32 (builtR .slli) (lineShift "slli") ∧
  (∀ (v : IsaVersion) (w : Word), w.extractLsb' 25 7 ≠ 0b0000000#7 →
    (w &&& 0x0000707F#32 = 0x00005013#32 ∧ w.extractLsb' 25 7 ≠ 0b0100000#7) ∨ w &&& 0x0000707F#32 = 0x00001013#32 →
    ∀ i, decode v w ≠ .ok i) ∧
  ∀ (rd rs1 : RegIdx) (shamt : BitVec 5) (s : State),
    (∃ t v, exec (.srai rd rs1 shamt) s = .next t ∧ onlyWrites s t rd v ∧
      v.toInt = (s.getX rs1).toInt / 2 ^ shamt.toNat) ∧
    (∃ t v, exec (.srli rd rs1 shamt) s = .next t ∧ onlyWrites s t rd v ∧
      v.toNat = (s.getX rs1).toNat / 2 ^ shamt.toNat) ∧
    (∃ t v, exec (.slli rd rs1 shamt) s = .next t ∧ onlyWrites s t rd v ∧
      v.toNat = ((s.getX rs1).toNat * 2 ^ shamt.toNat) % 2 ^ 32)

/-- LUI and AUIPC complete in every state: LUI writes the 20-bit field shifted left by 12, once; AUIPC adds it to the
address of the AUIPC itself modulo 2^32. LUI then ADDI builds any constant `K`, with one field and one immediate: the top
20 bits of `K + 0x800` and the low 12 bits of `K` (R160, R161). That last clause is the spec's own inference, which R160 derives
from R150 and R151; it rests, as AUIPC's sum modulo 2^32 does, on sums that wrap, the spec's general knowledge G2 (log 20). -/
def Obligations.UpperImmediateResults : Prop :=
  rowDecodes [.tinyRV2] 0x00000037#32 0x0000007F#32 (builtU .lui) (lineU "lui") ∧
  rowDecodes [.tinyRV2] 0x00000017#32 0x0000007F#32 (builtU .auipc) (lineU "auipc") ∧
  ∀ (rd : RegIdx) (imm : BitVec 20) (s : State),
    (∃ t v, exec (.lui rd imm) s = .next t ∧ onlyWrites s t rd v ∧ v.toNat = imm.toNat * 4096) ∧
    (∃ t v, exec (.auipc rd imm) s = .next t ∧ onlyWrites s t rd v ∧
      v.toNat = (s.pc.toNat + imm.toNat * 4096) % 2 ^ 32) ∧
    ∀ (low : BitVec 12) (k : Word), rd ≠ 0#5 →
      ((∃ t u, exec (.lui rd imm) s = .next t ∧ exec (.addi rd rd low) t = .next u ∧ u.getX rd = k) ↔
        imm = (k + 0x800#32).extractLsb' 12 20 ∧ low = k.extractLsb' 0 12)

/-! ### Memory -/

/-- The effective address is the base register plus the signed offset modulo 2^32, for LW and SW alike (R172, which the
spec derives from R130). -/
def Obligations.EffectiveAddressWraps : Prop :=
  ∀ (s : State) (rs1 : RegIdx) (imm : BitVec 12),
    ((effectiveAddress s rs1 imm).toNat : Int) = ((s.getX rs1).toNat + imm.toInt) % 2 ^ 32

/-- LW from an aligned address of memory completes, loads the little-endian word there and changes nothing else (R170,
R52, R53; all of it also with `rd` x0 or `rd = rs1`). -/
def Obligations.LoadWordResult : Prop :=
  rowDecodes [.tinyRV1, .tinyRV2] 0x00002003#32 0x0000707F#32
    (fun w => .lw (w.extractLsb' 7 5) (w.extractLsb' 20 12) (w.extractLsb' 15 5))
    (fun w => ⟨"lw", [.reg (w.extractLsb' 7 5), .mem (w.extractLsb' 20 12).toInt (w.extractLsb' 15 5)]⟩) ∧
  ∀ (rd : RegIdx) (imm : BitVec 12) (rs1 : RegIdx) (s : State),
    (effectiveAddress s rs1 imm).toNat % 4 = 0 → (effectiveAddress s rs1 imm).toNat ≤ 0x000fffff →
    ∃ t, exec (.lw rd imm rs1) s = .next t ∧
      onlyWrites s t rd
        (Memory.read s.mem ((effectiveAddress s rs1 imm).toNat + 3) ++
          Memory.read s.mem ((effectiveAddress s rs1 imm).toNat + 2) ++
          Memory.read s.mem ((effectiveAddress s rs1 imm).toNat + 1) ++
          Memory.read s.mem (effectiveAddress s rs1 imm).toNat)

/-- LW faults exactly when its address is misaligned or, where it is aligned, outside memory, misalignment being tested
first (the spec's decisions D5, D6, D2 on R55, R56, R213). -/
def Obligations.LoadFaults : Prop :=
  ∀ (rd : RegIdx) (imm : BitVec 12) (rs1 : RegIdx) (s : State) (f : Fault),
    exec (.lw rd imm rs1) s = .fault f ↔
      ((effectiveAddress s rs1 imm).toNat % 4 ≠ 0 ∧ f = .loadMisaligned (effectiveAddress s rs1 imm)) ∨
      ((effectiveAddress s rs1 imm).toNat % 4 = 0 ∧ 0x000fffff < (effectiveAddress s rs1 imm).toNat ∧
        f = .loadOutOfRange (effectiveAddress s rs1 imm))

/-- SW to an aligned address of memory completes, leaves every byte outside the four it stores, adds the address to
`stored`, goes on at `pc + 4` and changes no register and nothing else; in a memory in canonical form the four bytes are
those of `x[rs2]`, the least significant at the lowest address (R171, R52, R54; `stored` is the spec's bookkeeping, D16). -/
def Obligations.StoreWordResult : Prop :=
  rowDecodes [.tinyRV1, .tinyRV2] 0x00002023#32 0x0000707F#32
    (fun w => .sw (w.extractLsb' 20 5) (w.extractLsb' 25 7 ++ w.extractLsb' 7 5) (w.extractLsb' 15 5))
    (fun w => ⟨"sw", [.reg (w.extractLsb' 20 5),
      .mem (w.extractLsb' 25 7 ++ w.extractLsb' 7 5).toInt (w.extractLsb' 15 5)]⟩) ∧
  ∀ (rs2 : RegIdx) (imm : BitVec 12) (rs1 : RegIdx) (s : State),
    (effectiveAddress s rs1 imm).toNat % 4 = 0 → (effectiveAddress s rs1 imm).toNat ≤ 0x000fffff →
    ∃ t, exec (.sw rs2 imm rs1) s = .next t ∧ keepsRegs s t ∧ t.pc = s.pc + 4#32 ∧
      keepsMemOutside s t (effectiveAddress s rs1 imm).toNat ∧
      (∀ a, a ∈ t.stored ↔ a = (effectiveAddress s rs1 imm).toNat ∨ a ∈ s.stored) ∧
      t.statsEn = s.statsEn ∧ keepsFifos s t ∧ keepsSetting s t ∧
      (Memory.wf s.mem = true → ∀ k < 4,
        Memory.read t.mem ((effectiveAddress s rs1 imm).toNat + k) = (s.getX rs2).extractLsb' (8 * k) 8)

/-- SW faults exactly when its address is misaligned or, where it is aligned, outside memory (the spec's decisions D5, D6,
D2 on R55, R56, R213). -/
def Obligations.StoreFaults : Prop :=
  ∀ (rs2 : RegIdx) (imm : BitVec 12) (rs1 : RegIdx) (s : State) (f : Fault),
    exec (.sw rs2 imm rs1) s = .fault f ↔
      ((effectiveAddress s rs1 imm).toNat % 4 ≠ 0 ∧ f = .storeMisaligned (effectiveAddress s rs1 imm)) ∨
      ((effectiveAddress s rs1 imm).toNat % 4 = 0 ∧ 0x000fffff < (effectiveAddress s rs1 imm).toNat ∧
        f = .storeOutOfRange (effectiveAddress s rs1 imm))

/-- A word stored by SW is what the very next LW of that address loads, whatever registers address it, in a memory in
canonical form (R64, R245). -/
def Obligations.StoreThenLoadGivesTheWord : Prop :=
  ∀ (rs2 rs1 rd base : RegIdx) (imm off : BitVec 12) (s t : State), Memory.wf s.mem = true →
    exec (.sw rs2 imm rs1) s = .next t → effectiveAddress t base off = effectiveAddress s rs1 imm →
    ∃ u, exec (.lw rd off base) t = .next u ∧ onlyWrites t u rd (s.getX rs2)

/-- Reading a word right after it was written gives it back, and a word at any other aligned address reads as before
(20_memory.md R53, R54, R64); in a memory in canonical form. -/
def Obligations.MemoryReadAfterWrite : Prop :=
  ∀ (s t : State) (addr other v : Word), Memory.wf s.mem = true → memWrite addr v s = .done () t →
    Memory.wf t.mem = true ∧ memRead addr t = .done v t ∧
    (other ≠ addr → other.toNat % 4 = 0 → other.toNat ≤ 0x000fffff →
      ∃ x, memRead other s = .done x s ∧ memRead other t = .done x t)

/-! ### CSRs -/

/-- CSRR completes: of `mngr2proc` with a word waiting it takes the head into `x[rd]`, also when `rd` is x0; of `coreid`,
`numcores` and `stats_en` it copies the value and changes nothing else (R120, R31, R32, R35, R36; that `stats_en` keeps
all 32 bits is the spec's decision D12). -/
def Obligations.CsrReadResults : Prop :=
  rowDecodes [.tinyRV2] 0x00002073#32 0x000FF07F#32 (fun w => .csrr (w.extractLsb' 7 5) (w.extractLsb' 20 12))
    (fun w => ⟨"csrr", [.reg (w.extractLsb' 7 5), .num (w.extractLsb' 20 12).toNat]⟩) ∧
  ∀ (rd : RegIdx) (s : State),
    (∀ h rest, s.mngr2procQ = h :: rest →
      ∃ t, exec (.csrr rd 0xFC0#12) s = .next t ∧ writesReg s t rd h ∧ t.mngr2procQ = rest ∧ t.pc = s.pc + 4#32 ∧
        keepsMem s t ∧ t.statsEn = s.statsEn ∧ t.proc2mngrQ = s.proc2mngrQ ∧ t.sent = s.sent ∧ keepsSetting s t) ∧
    (∃ t, exec (.csrr rd 0xF14#12) s = .next t ∧ onlyWrites s t rd s.cfg.coreId) ∧
    (∃ t, exec (.csrr rd 0xFC1#12) s = .next t ∧ onlyWrites s t rd s.cfg.numCores) ∧
    (∃ t, exec (.csrr rd 0x7C1#12) s = .next t ∧ onlyWrites s t rd s.statsEn)

/-- CSRW completes: of a ready `proc2mngr` it appends all 32 bits of `x[rs1]` at the tail; of `stats_en` it replaces the
value; neither changes an x register or anything else (R121, R30, R36; what "ready" means is the spec's decision D14; that
`stats_en` takes all 32 bits of `x[rs1]` is the spec's reading in R36, its decision D12, log 22; `sent` is the model's record,
log 12). -/
def Obligations.CsrWriteResults : Prop :=
  rowDecodes [.tinyRV2] 0x00001073#32 0x00007FFF#32 (fun w => .csrw (w.extractLsb' 20 12) (w.extractLsb' 15 5))
    (fun w => ⟨"csrw", [.num (w.extractLsb' 20 12).toNat, .reg (w.extractLsb' 15 5)]⟩) ∧
  ∀ (rs1 : RegIdx) (s : State),
    ((∀ depth, s.cfg.proc2mngrDepth = some depth → s.proc2mngrQ.length < depth) →
      ∃ t, exec (.csrw 0x7C0#12 rs1) s = .next t ∧ t.proc2mngrQ = s.proc2mngrQ ++ [s.getX rs1] ∧
        t.sent = s.sent ++ [s.getX rs1] ∧ keepsRegs s t ∧ t.pc = s.pc + 4#32 ∧ keepsMem s t ∧ t.statsEn = s.statsEn ∧
        t.mngr2procQ = s.mngr2procQ ∧ keepsSetting s t) ∧
    (∃ t, exec (.csrw 0x7C1#12 rs1) s = .next t ∧ t.statsEn = s.getX rs1 ∧ keepsRegs s t ∧ t.pc = s.pc + 4#32 ∧
      keepsMem s t ∧ keepsFifos s t ∧ keepsSetting s t)

/-- CSRR and CSRW fault exactly on a number that is none of the five, and on the direction the source calls undefined (the
spec's decisions D8, D9 on R29 to R37). -/
def Obligations.CsrFaults : Prop :=
  ∀ (r : RegIdx) (n : CsrNum) (s : State) (f : Fault),
    (exec (.csrr r n) s = .fault f ↔
      (n = 0x7C0#12 ∧ f = .undefinedCsrAccess n .read) ∨
      (n ∉ [0x7C0#12, 0xFC0#12, 0xF14#12, 0xFC1#12, 0x7C1#12] ∧ f = .unsupportedCsr n)) ∧
    (exec (.csrw n r) s = .fault f ↔
      (n ∈ [0xFC0#12, 0xFC1#12, 0xF14#12] ∧ f = .undefinedCsrAccess n .write) ∨
      (n ∉ [0x7C0#12, 0xFC0#12, 0xF14#12, 0xFC1#12, 0x7C1#12] ∧ f = .unsupportedCsr n))

/-- CSRR of an empty `mngr2proc` and CSRW of a `proc2mngr` that is not ready wait: the state stays as it is (R14, R30, R31;
that a stall is a next state equal to the old one is the model's choice, log 9). -/
def Obligations.CsrStallsLeaveTheState : Prop :=
  ∀ (r : RegIdx) (s : State),
    (s.mngr2procQ = [] → exec (.csrr r 0xFC0#12) s = .next s) ∧
    (∀ depth, s.cfg.proc2mngrDepth = some depth → depth ≤ s.proc2mngrQ.length →
      exec (.csrw 0x7C0#12 r) s = .next s)

/-! ### Jumps and branches -/

/-- JAL completes in every state: `x[rd]` becomes `pc + 4`, `pc` becomes `pc` plus the signed offset, nothing else changes,
and every word of its row decodes to it with the offset bits where R89 puts them (R180). -/
def Obligations.JumpAndLinkResult : Prop :=
  rowDecodes [.tinyRV1, .tinyRV2] 0x0000006F#32 0x0000007F#32
    (fun w => .jal (w.extractLsb' 7 5)
      (w.extractLsb' 31 1 ++ w.extractLsb' 12 8 ++ w.extractLsb' 20 1 ++ w.extractLsb' 21 10 ++ 0#1))
    (fun w => ⟨"jal", [.reg (w.extractLsb' 7 5),
      .num (w.extractLsb' 31 1 ++ w.extractLsb' 12 8 ++ w.extractLsb' 20 1 ++ w.extractLsb' 21 10 ++ 0#1).toInt]⟩) ∧
  ∀ (rd : RegIdx) (offset : BitVec 21) (s : State),
    ∃ t, exec (.jal rd offset) s = .next t ∧ writesReg s t rd (s.pc + 4#32) ∧
      (t.pc.toNat : Int) = (s.pc.toNat + offset.toInt) % 2 ^ 32 ∧ keepsAllButRegsPc s t

/-- JALR completes in every state: the target is the OLD `x[rs1]` plus the signed offset modulo 2^32 with bit 0 cleared
after the sum, the link is `pc + 4`, nothing else changes (R182; that the old value is used where `rd = rs1` is the spec's
decision D19). -/
def Obligations.JumpAndLinkRegisterResult : Prop :=
  rowDecodes [.tinyRV2] 0x00000067#32 0x0000707F#32 (builtI .jalr) (lineI "jalr") ∧
  ∀ (rd rs1 : RegIdx) (imm : BitVec 12) (s : State),
    ∃ t, exec (.jalr rd rs1 imm) s = .next t ∧ writesReg s t rd (s.pc + 4#32) ∧
      (t.pc.toNat : Int) = (((s.getX rs1).toNat + imm.toInt) % 2 ^ 32) / 2 * 2 ∧ keepsAllButRegsPc s t

/-- JR on a TinyRV1 machine goes to `x[rs1]` and changes nothing else when that is even, and faults when it is odd (R181;
the fault is the spec's decision D20). -/
def Obligations.JumpRegisterResult : Prop :=
  rowDecodes [.tinyRV1] 0x00000067#32 0xFFF07FFF#32 (fun w => .jr (w.extractLsb' 15 5))
    (fun w => ⟨"jr", [.reg (w.extractLsb' 15 5)]⟩) ∧
  ∀ (rs1 : RegIdx) (s : State), s.cfg.isaVersion = .tinyRV1 →
    ((s.getX rs1).toNat % 2 = 0 → ∃ t, exec (.jr rs1) s = .next t ∧ onlySetsPc s t (s.getX rs1)) ∧
    ((s.getX rs1).toNat % 2 = 1 → exec (.jr rs1) s = .fault (.jrTargetOdd (s.getX rs1)))

/-- 46_pseudo_instructions.md R201: the word of JR is `000000000000_sssss_000_00000_1100111`; a TinyRV1 machine reads it as
JR and a TinyRV2 machine as `jalr x0, rs1, 0`, which sets `pc` to `x[rs1] & 0xFFFFFFFE` and writes no register. -/
def Obligations.JrIsJalrUnderTinyRV2 : Prop :=
  ∀ (rs1 : RegIdx) (s : State),
    encode (.jr rs1) = 0#12 ++ rs1 ++ 0#3 ++ 0#5 ++ 0b1100111#7 ∧
    decode .tinyRV1 (encode (.jr rs1)) = .ok (.jr rs1) ∧
    decode .tinyRV2 (encode (.jr rs1)) = .ok (.jalr 0#5 rs1 0#12) ∧
    assemble .tinyRV1 ⟨"jr", [.reg rs1]⟩ = some (.jr rs1) ∧
    assemble .tinyRV2 ⟨"jr", [.reg rs1]⟩ = some (.jalr 0#5 rs1 0#12) ∧
    (∃ t, exec (.jalr 0#5 rs1 0#12) s = .next t ∧ onlySetsPc s t (s.getX rs1 &&& 0xFFFFFFFE#32)) ∧
    (s.cfg.isaVersion = .tinyRV2 → exec (.jr rs1) s = exec (.jalr 0#5 rs1 0#12) s)

/-- BEQ and BNE complete in every state: all 32 bits compared, `pc` plus the signed offset when taken and `pc + 4` when
not, nothing else changed (R190, R191, R192). -/
def Obligations.EqualityBranchResults : Prop :=
  rowDecodes [.tinyRV2] 0x00000063#32 0x0000707F#32 (builtB .beq) (lineB "beq") ∧
  rowDecodes [.tinyRV1, .tinyRV2] 0x00001063#32 0x0000707F#32 (builtB .bne) (lineB "bne") ∧
  ∀ (rs1 rs2 : RegIdx) (offset : BitVec 13) (s : State),
    (∃ t, exec (.beq rs1 rs2 offset) s = .next t ∧
      onlySetsPc s t (if s.getX rs1 = s.getX rs2 then s.pc + offset.signExtend 32 else s.pc + 4#32)) ∧
    (∃ t, exec (.bne rs1 rs2 offset) s = .next t ∧
      onlySetsPc s t (if s.getX rs1 = s.getX rs2 then s.pc + 4#32 else s.pc + offset.signExtend 32))

/-- BLT and BGE complete in every state and branch on the signed comparison; one is taken exactly when the other is not
(R190, R193, R194). -/
def Obligations.SignedBranchResults : Prop :=
  rowDecodes [.tinyRV2] 0x00004063#32 0x0000707F#32 (builtB .blt) (lineB "blt") ∧
  rowDecodes [.tinyRV2] 0x00005063#32 0x0000707F#32 (builtB .bge) (lineB "bge") ∧
  ∀ (rs1 rs2 : RegIdx) (offset : BitVec 13) (s : State),
    (∃ t, exec (.blt rs1 rs2 offset) s = .next t ∧
      onlySetsPc s t
        (if (s.getX rs1).toInt < (s.getX rs2).toInt then s.pc + offset.signExtend 32 else s.pc + 4#32)) ∧
    (∃ t, exec (.bge rs1 rs2 offset) s = .next t ∧
      onlySetsPc s t
        (if (s.getX rs1).toInt < (s.getX rs2).toInt then s.pc + 4#32 else s.pc + offset.signExtend 32))

/-- BLTU and BGEU complete in every state and branch on the unsigned comparison; one is taken exactly when the other is
not (R190, R195, R196). -/
def Obligations.UnsignedBranchResults : Prop :=
  rowDecodes [.tinyRV2] 0x00006063#32 0x0000707F#32 (builtB .bltu) (lineB "bltu") ∧
  rowDecodes [.tinyRV2] 0x00007063#32 0x0000707F#32 (builtB .bgeu) (lineB "bgeu") ∧
  ∀ (rs1 rs2 : RegIdx) (offset : BitVec 13) (s : State),
    (∃ t, exec (.bltu rs1 rs2 offset) s = .next t ∧
      onlySetsPc s t
        (if (s.getX rs1).toNat < (s.getX rs2).toNat then s.pc + offset.signExtend 32 else s.pc + 4#32)) ∧
    (∃ t, exec (.bgeu rs1 rs2 offset) s = .next t ∧
      onlySetsPc s t
        (if (s.getX rs1).toNat < (s.getX rs2).toNat then s.pc + 4#32 else s.pc + offset.signExtend 32))

/-! ### The step -/

/-- A step runs the decoded instruction: when it is the processor's turn, the run is not over, `pc` is an aligned address of
memory that no SW wrote, and the four bytes there decode to `i`, the step is `exec i` in the state with the turn used up
(00_scope.md R11, 20_memory.md R58, R59). That those bytes make the word little endian is the spec's reading in R58, its decision
D21 (log 21); turns are the model's field (log 10). -/
def Obligations.StepRunsTheDecodedInstruction : Prop :=
  ∀ (s : State) (rest : List Turn) (i : Instr), runEnded s = false → processorsTurn s rest →
    s.pc.toNat % 4 = 0 → s.pc.toNat ≤ 0x000fffff → s.pc.toNat ∉ s.stored →
    decodeBytes s.cfg.isaVersion [Memory.read s.mem s.pc.toNat, Memory.read s.mem (s.pc.toNat + 1),
      Memory.read s.mem (s.pc.toNat + 2), Memory.read s.mem (s.pc.toNat + 3)] = .ok (i, []) →
    step s = exec i (s.setAgenda rest)

/-- When a processor step faults before it executes: a misaligned `pc`, then a `pc` outside memory, then a word a SW wrote,
then a word that is no instruction of the version (R59, R97, R213; each fault is the spec's own decision D3, D6, D7, D16, and
that the word is read little endian D21). -/
def Obligations.FetchAndDecodeFaults : Prop :=
  ∀ (s : State) (rest : List Turn), runEnded s = false → processorsTurn s rest →
    (s.pc.toNat % 4 ≠ 0 → step s = .fault (.fetchMisaligned s.pc)) ∧
    (s.pc.toNat % 4 = 0 → 0x000fffff < s.pc.toNat → step s = .fault (.fetchOutOfRange s.pc)) ∧
    (s.pc.toNat % 4 = 0 → s.pc.toNat ≤ 0x000fffff → s.pc.toNat ∈ s.stored → step s = .fault (.fetchAfterStore s.pc)) ∧
    (s.pc.toNat % 4 = 0 → s.pc.toNat ≤ 0x000fffff → s.pc.toNat ∉ s.stored →
      (∀ i, decode s.cfg.isaVersion (Memory.readWord s.mem s.pc.toNat) ≠ .ok i) →
      step s = .fault (.illegalInstruction s.pc (Memory.readWord s.mem s.pc.toNat)))

/-- The reasons an instruction itself can fault are those of the closed list, and only LW, SW, CSRR, CSRW and a TinyRV1 JR
have any (R212, R213; the spec's own decisions D5, D6, D8, D9, D20). -/
def Obligations.ExecuteFaultsAreTheClosedList : Prop :=
  ∀ (i : Instr) (s : State) (f : Fault), exec i s = .fault f →
    (∃ rd imm rs1 a, i = .lw rd imm rs1 ∧ (f = .loadMisaligned a ∨ f = .loadOutOfRange a)) ∨
    (∃ rs2 imm rs1 a, i = .sw rs2 imm rs1 ∧ (f = .storeMisaligned a ∨ f = .storeOutOfRange a)) ∨
    (∃ rd n, i = .csrr rd n ∧ (f = .unsupportedCsr n ∨ f = .undefinedCsrAccess n .read)) ∨
    (∃ n rs1, i = .csrw n rs1 ∧ (f = .unsupportedCsr n ∨ f = .undefinedCsrAccess n .write)) ∨
    (∃ rs1, i = .jr rs1 ∧ s.cfg.isaVersion = .tinyRV1 ∧ f = .jrTargetOdd (s.getX rs1))

/-- A step is always defined: it is a next state or one of the spec's faults, never a refusal (70_reset_and_hazards.md
R250; a stall is a next state by the model's choice, log 9). -/
def Obligations.StepIsAlwaysDefined : Prop :=
  ∀ (s : State) (r : Refusal), step s ≠ .refused r

/-- The state at which a run ends is final: no number of steps changes it, whatever predicate the user supplies for the end of a
run (R252, the spec's decision D17; that the end is a repeated state is the model's choice, log 8). `runSteps` is the case of the
predicate `endOfRunPredicate`, of which nothing is known. -/
def Obligations.FinalStateStays : Prop :=
  ∀ (p : Snapshot → Bool) (s : State) (k : Nat), runEndedUnder p s = true →
    runStepsUnder p k s = .next s ∧ (p = endOfRunPredicate → runSteps k s = .next s)

/-- What ends a run for each value of the model's `END_OF_RUN`, whatever predicate `p` the user supplies (R252, the spec's
decision D17). Where the configuration names the user's predicate, the run is over exactly when it holds of the state. Three values
are the instances R252 offers: `pc` at the chosen address, the chosen number of words sent, or `jal x0, 0` next. The fifth,
`never`, that the choice among the five is plain data, and that the predicate sees neither the configuration nor the turns are the
model's choice (log 8, log 10); the words sent are counted in the model's record (log 12). Where a run is not over, the step does
not depend on the predicate, and `step` is the step for `endOfRunPredicate`, of which nothing is known. -/
def Obligations.EndOfRunInstances : Prop :=
  ∀ (p : Snapshot → Bool) (s : State),
    (s.cfg.endOfRun = .predicate → (runEndedUnder p s = true ↔ p s.snapshot = true)) ∧
    (s.cfg.endOfRun = .never → runEndedUnder p s = false) ∧
    (∀ a, s.cfg.endOfRun = .atPc a → (runEndedUnder p s = true ↔ s.pc = a)) ∧
    (∀ n, s.cfg.endOfRun = .afterWords n → (runEndedUnder p s = true ↔ n ≤ s.sent.length)) ∧
    (s.cfg.endOfRun = .selfLoop → (runEndedUnder p s = true ↔ nextInstr s = some (.jal 0#5 0#21))) ∧
    (∀ t : State, t.snapshot = s.snapshot → t.cfg = s.cfg → runEndedUnder p t = runEndedUnder p s) ∧
    (∀ q, runEndedUnder p s = false → runEndedUnder q s = false → stepUnder p s = stepUnder q s) ∧
    (p = endOfRunPredicate → runEndedUnder p s = runEnded s ∧ stepUnder p s = step s)

/-- The manager's two steps change the FIFOs and nothing else but the turns left: `enqueue(w)` appends at the tail of
`mngr2proc_q` when it is not full, `dequeue` removes the head of `proc2mngr_q` when it is not empty (R226, the spec's
decision D14; turns are the model's field, log 10 and log 11). -/
def Obligations.ManagerTurnResults : Prop :=
  ∀ (s : State) (rest : List Turn), runEnded s = false →
    (∀ w, s.agenda = .enqueue w :: rest → ∃ t, step s = .next t ∧ t.agenda = rest ∧
      t.mngr2procQ =
        (if fifoReady s.mngr2procQ s.cfg.mngr2procDepth = true then s.mngr2procQ ++ [w] else s.mngr2procQ) ∧
      t.proc2mngrQ = s.proc2mngrQ ∧ t.sent = s.sent ∧ keepsRegs s t ∧ t.pc = s.pc ∧ keepsMem s t ∧
      t.statsEn = s.statsEn ∧ t.cfg = s.cfg) ∧
    (s.agenda = .dequeue :: rest → ∃ t, step s = .next t ∧ t.agenda = rest ∧ t.proc2mngrQ = s.proc2mngrQ.drop 1 ∧
      t.mngr2procQ = s.mngr2procQ ∧ t.sent = s.sent ∧ keepsRegs s t ∧ t.pc = s.pc ∧ keepsMem s t ∧
      t.statsEn = s.statsEn ∧ t.cfg = s.cfg)

/-- A stall the manager never lifts lasts for ever: with no turn of the manager left, a stalled processor stays in the same
state for any number of steps (R14, R227; the model's choices of log 9 and log 10). -/
def Obligations.StallLastsWithoutTheManager : Prop :=
  ∀ (s : State) (k : Nat), s.agenda = [] → stalled s = true → runSteps k s = .next s

/-- A processor stalled on an empty `mngr2proc_q` becomes able to step after an `enqueue`: it is no longer stalled, and, unless the
user's own predicate ends the run in the state after the `enqueue`, one step later the word is in `x[rd]`, the FIFO is empty again,
`pc` has advanced and nothing else but the turns has changed (R226, the spec's decision D14; the end of a run, R252, is any
predicate `p`, log 8; the model's choices of log 9 and log 10). -/
def Obligations.StallEndsWithAnEnqueue : Prop :=
  ∀ (p : Snapshot → Bool) (s : State) (rd : RegIdx) (w : Word) (rest : List Turn), runEndedUnder p s = false →
    s.cfg.legal = true → s.agenda = .enqueue w :: .processor :: rest → nextInstr s = some (.csrr rd 0xFC0#12) →
    s.mngr2procQ = [] →
    stalled s = true ∧
    ∃ u, stepUnder p s = .next u ∧ nextInstr u = nextInstr s ∧ stalled u = false ∧
      ((s.cfg.endOfRun = .predicate → p u.snapshot = false) →
        ∃ t, stepUnder p u = .next t ∧ runStepsUnder p 2 s = .next t ∧ writesReg s t rd w ∧ t.mngr2procQ = [] ∧
          t.pc = s.pc + 4#32 ∧ t.agenda = rest ∧ keepsMem s t ∧ t.statsEn = s.statsEn ∧ t.proc2mngrQ = s.proc2mngrQ ∧
          t.sent = s.sent ∧ t.cfg = s.cfg)

/-- A processor stalled on a `proc2mngr_q` that is not ready becomes able to step after a `dequeue`: it is no longer stalled, and,
unless the user's own predicate ends the run in the state after the `dequeue`, one step later the head is gone, `x[rs1]` stands at
the tail, `pc` has advanced and nothing else but the turns has changed (R226, and what "ready" means, the spec's decision D14; the
end of a run, R252, is any predicate `p`, log 8; the model's choices of log 9 and log 10, and its record `sent`, log 12). The queue
holds no more than its depth, as R34 has it. -/
def Obligations.StallEndsWithADequeue : Prop :=
  ∀ (p : Snapshot → Bool) (s : State) (rs1 : RegIdx) (rest : List Turn), runEndedUnder p s = false → s.cfg.legal = true →
    fifoWithin s.proc2mngrQ s.cfg.proc2mngrDepth = true → fifoReady s.proc2mngrQ s.cfg.proc2mngrDepth = false →
    s.agenda = .dequeue :: .processor :: rest → nextInstr s = some (.csrw 0x7C0#12 rs1) →
    stalled s = true ∧
    ∃ u, stepUnder p s = .next u ∧ nextInstr u = nextInstr s ∧ stalled u = false ∧
      ((s.cfg.endOfRun = .predicate → p u.snapshot = false) →
        ∃ t, stepUnder p u = .next t ∧ runStepsUnder p 2 s = .next t ∧
          t.proc2mngrQ = s.proc2mngrQ.drop 1 ++ [s.getX rs1] ∧ t.sent = s.sent ++ [s.getX rs1] ∧ keepsRegs s t ∧
          t.pc = s.pc + 4#32 ∧ t.agenda = rest ∧ keepsMem s t ∧ t.statsEn = s.statsEn ∧ t.mngr2procQ = s.mngr2procQ ∧
          t.cfg = s.cfg)

/-- The word placed by `withFetchWord` is the very instruction the next step fetches and runs (the model's definition, log 7 and
log 26). In a memory in canonical form, with `pc` an aligned address of memory, the state it leaves is the state it was placed in
but for this: the four bytes at `pc` are the word's, `pc` alone is no longer in `stored`, a turn of the processor comes first, and
of the configuration the version is the one that reads the word (log 26) and the run has no end (log 7). The word lies in memory
little endian, as a fetch reads it (the spec's decision D21, log 21). -/
def Obligations.PlacedWordIsRunNext : Prop :=
  ∀ (s : State) (nbits w : Nat) (i : Instr), Memory.wf s.mem = true → s.pc.toNat % 4 = 0 → s.pc.toNat ≤ 0x000fffff →
    decodeTableWord nbits w = some i →
    step (s.withFetchWord nbits w) = exec i ((s.withFetchWord nbits w).setAgenda s.agenda) ∧
    (s.withFetchWord nbits w).regs = s.regs ∧ (s.withFetchWord nbits w).pc = s.pc ∧
    keepsMemOutside s (s.withFetchWord nbits w) s.pc.toNat ∧
    Memory.readWord (s.withFetchWord nbits w).mem s.pc.toNat = tableWord nbits w ∧
    (∀ a, a ∈ (s.withFetchWord nbits w).stored ↔ a ∈ s.stored ∧ a ≠ s.pc.toNat) ∧
    (s.withFetchWord nbits w).statsEn = s.statsEn ∧ keepsFifos s (s.withFetchWord nbits w) ∧
    (s.withFetchWord nbits w).agenda = .processor :: s.agenda ∧
    (s.withFetchWord nbits w).cfg =
      { s.cfg with isaVersion := tableVersion (tableWord nbits w), endOfRun := .never }

/-! ### Reset -/

/-- After reset `pc` is 0x00000200, whatever the open values are, and the first word fetched is the one at 0x00000200
(70_reset_and_hazards.md R240). -/
def Obligations.ResetStartsAtTheResetVector : Prop :=
  (∀ p : ResetParams, (State.resetWith p).pc = 0x00000200#32 ∧
    fetch (State.resetWith p) = .ok (Memory.readWord p.memInit 0x200)) ∧
  State.reset.pc = 0x00000200#32

/-- What else reset leaves (10_state.md R41): x0 is 0 and the open values are the ones given. That `stored` is empty is the spec's
own treatment in R41's table, its decision D16 (log 15), and that both FIFOs are empty its decision D14 and the model's choice of
log 10. At `State.reset` itself registers, `stats_en` and memory read 0 and the version is TinyRV2: the model's choices
(log 4, 5, 6, 1). -/
def Obligations.ResetLeavesTheGivenValues : Prop :=
  (∀ p : ResetParams, (State.resetWith p).getX 0#5 = 0#32 ∧ (State.resetWith p).stored = [] ∧
    (State.resetWith p).mngr2procQ = [] ∧ (State.resetWith p).proc2mngrQ = [] ∧
    (State.resetWith p).statsEn = p.statsEnReset ∧ (State.resetWith p).mem = p.memInit ∧
    (State.resetWith p).cfg = p.cfg ∧
    ∀ r : RegIdx, r ≠ 0#5 → some ((State.resetWith p).getX r) = p.xReset[r.toNat - 1]?) ∧
  (∀ r, State.reset.getX r = 0#32) ∧ State.reset.statsEn = 0#32 ∧ (∀ a, Memory.read State.reset.mem a = 0#8) ∧
  State.reset.cfg.isaVersion = .tinyRV2

/-- The state after reset is legal: at `State.reset`, and for any open values within their ranges. -/
def Obligations.ResetIsLegal : Prop :=
  State.reset.Inv ∧
  ∀ p : ResetParams, Memory.wf p.memInit = true → p.cfg.legal = true → (State.resetWith p).Inv

/-! ### Invariants and whole-machine rules -/

/-- Every step keeps a legal state legal: memory and `stored` in canonical form and within memory, the configuration in its
ranges, no FIFO above its depth, what waits for the manager the newest of what was sent, `pc` even (R26, R33, R34, R39,
R40). -/
def Obligations.StepKeepsLegalStates : Prop :=
  ∀ s t : State, s.Inv → step s = .next t → t.Inv

/-- No byte of memory changes in a step unless its word is then in `stored`, and no word leaves `stored` (R40: the set of
word addresses that a SW has written since reset). -/
def Obligations.ChangedWordsAreRecorded : Prop :=
  ∀ s t : State, step s = .next t →
    (∀ a, Memory.read t.mem a ≠ Memory.read s.mem a → a - a % 4 ∈ t.stored) ∧ (∀ a ∈ s.stored, a ∈ t.stored)

/-- Code is never other than it was loaded: whatever a run from any state with `stored` empty has done, a word it can fetch
is the word that was there at the start (20_memory.md R68, the spec's decision D16: "Code that is never stored to is fetched
from MEM_INIT unchanged"). -/
def Obligations.FetchedCodeIsAsLoaded : Prop :=
  ∀ (s t : State) (k : Nat) (w : Word), s.stored = [] → runSteps k s = .next t → fetch t = .ok w →
    w = Memory.readWord s.mem t.pc.toNat

/-- A step a TinyRV1 machine takes, a TinyRV2 machine takes alike (92_eei_decisions.md D1: "every TinyRV1 program without an
odd JR target runs identically under TinyRV2"). -/
def Obligations.TinyRV1RunsAlikeUnderTinyRV2 : Prop :=
  ∀ s t : State, s.cfg.isaVersion = .tinyRV1 → step s = .next t →
    t.cfg.isaVersion = .tinyRV1 ∧ step (s.onVersion .tinyRV2) = .next (t.onVersion .tinyRV2)

/-- Over a run the configuration stays what it was and the words sent are only ever added to, at the end (10_state.md R42,
R34; 60_exceptions.md R228; `sent` is the model's record, log 12). -/
def Obligations.OutputIsOnlyAddedTo : Prop :=
  ∀ (s t : State) (k : Nat), runSteps k s = .next t → t.cfg = s.cfg ∧ s.sent <+: t.sent

/-! ### Assembly -/

/-- Assembling the line of a well-formed instruction gives it back, on a machine that has the instruction (30_encoding.md
R102, R103; how operands are spelled is the model's, log 27). -/
def Obligations.AssemblingALineGivesItsInstruction : Prop :=
  ∀ (v : IsaVersion) (i : Instr), i.wf = true → i.inVersion v = true → assemble v (asmLine i) = some i

/-- NOP is `addi x0, x0, 0`, word 0x00000013, in both versions; it changes nothing but `pc`, cannot fault and cannot stall
(46_pseudo_instructions.md R200). -/
def Obligations.NopOnlyAdvances : Prop :=
  (∀ v, assemble v ⟨"nop", []⟩ = some (.addi 0#5 0#5 0#12)) ∧ encode (.addi 0#5 0#5 0#12) = 0x00000013#32 ∧
  (∀ v, decode v 0x00000013#32 = .ok (.addi 0#5 0#5 0#12)) ∧
  ∀ s : State, ∃ t, exec (.addi 0#5 0#5 0#12) s = .next t ∧ onlySetsPc s t (s.pc + 4#32)
end

