-- ==== Sys2Proof/Laws/State.lean ====
section
/-! SUPPORT. One lemma per field per update of the state, each true by rfl, so that no proof unfolds a record update. -/

namespace Sys2Proof.Machine

variable (s : State)

/-! ### `setX` -/

@[simp] theorem setX_regs (r : RegIdx) (v : Word) : (s.setX r v).regs = writeReg s.regs r v := rfl
@[simp] theorem setX_pc (r : RegIdx) (v : Word) : (s.setX r v).pc = s.pc := rfl
@[simp] theorem setX_mem (r : RegIdx) (v : Word) : (s.setX r v).mem = s.mem := rfl
@[simp] theorem setX_stored (r : RegIdx) (v : Word) : (s.setX r v).stored = s.stored := rfl
@[simp] theorem setX_statsEn (r : RegIdx) (v : Word) : (s.setX r v).statsEn = s.statsEn := rfl
@[simp] theorem setX_mngr2procQ (r : RegIdx) (v : Word) : (s.setX r v).mngr2procQ = s.mngr2procQ := rfl
@[simp] theorem setX_proc2mngrQ (r : RegIdx) (v : Word) : (s.setX r v).proc2mngrQ = s.proc2mngrQ := rfl
@[simp] theorem setX_sent (r : RegIdx) (v : Word) : (s.setX r v).sent = s.sent := rfl
@[simp] theorem setX_agenda (r : RegIdx) (v : Word) : (s.setX r v).agenda = s.agenda := rfl
@[simp] theorem setX_cfg (r : RegIdx) (v : Word) : (s.setX r v).cfg = s.cfg := rfl

/-! ### `setPc` -/

@[simp] theorem setPc_regs (t : Word) : (s.setPc t).regs = s.regs := rfl
@[simp] theorem setPc_pc (t : Word) : (s.setPc t).pc = t := rfl
@[simp] theorem setPc_mem (t : Word) : (s.setPc t).mem = s.mem := rfl
@[simp] theorem setPc_stored (t : Word) : (s.setPc t).stored = s.stored := rfl
@[simp] theorem setPc_statsEn (t : Word) : (s.setPc t).statsEn = s.statsEn := rfl
@[simp] theorem setPc_mngr2procQ (t : Word) : (s.setPc t).mngr2procQ = s.mngr2procQ := rfl
@[simp] theorem setPc_proc2mngrQ (t : Word) : (s.setPc t).proc2mngrQ = s.proc2mngrQ := rfl
@[simp] theorem setPc_sent (t : Word) : (s.setPc t).sent = s.sent := rfl
@[simp] theorem setPc_agenda (t : Word) : (s.setPc t).agenda = s.agenda := rfl
@[simp] theorem setPc_cfg (t : Word) : (s.setPc t).cfg = s.cfg := rfl

/-! ### `advance` -/

@[simp] theorem advance_regs : (s.advance).regs = s.regs := rfl
@[simp] theorem advance_pc : (s.advance).pc = s.nextPc := rfl
@[simp] theorem advance_mem : (s.advance).mem = s.mem := rfl
@[simp] theorem advance_stored : (s.advance).stored = s.stored := rfl
@[simp] theorem advance_statsEn : (s.advance).statsEn = s.statsEn := rfl
@[simp] theorem advance_mngr2procQ : (s.advance).mngr2procQ = s.mngr2procQ := rfl
@[simp] theorem advance_proc2mngrQ : (s.advance).proc2mngrQ = s.proc2mngrQ := rfl
@[simp] theorem advance_sent : (s.advance).sent = s.sent := rfl
@[simp] theorem advance_agenda : (s.advance).agenda = s.agenda := rfl
@[simp] theorem advance_cfg : (s.advance).cfg = s.cfg := rfl

/-! ### `storeWord` -/

@[simp] theorem storeWord_regs (addr v : Word) : (s.storeWord addr v).regs = s.regs := rfl
@[simp] theorem storeWord_pc (addr v : Word) : (s.storeWord addr v).pc = s.pc := rfl
@[simp] theorem storeWord_mem (addr v : Word) : (s.storeWord addr v).mem = Memory.writeWord s.mem addr.toNat v := rfl
@[simp] theorem storeWord_stored (addr v : Word) : (s.storeWord addr v).stored = storedInsert s.stored addr.toNat := rfl
@[simp] theorem storeWord_statsEn (addr v : Word) : (s.storeWord addr v).statsEn = s.statsEn := rfl
@[simp] theorem storeWord_mngr2procQ (addr v : Word) : (s.storeWord addr v).mngr2procQ = s.mngr2procQ := rfl
@[simp] theorem storeWord_proc2mngrQ (addr v : Word) : (s.storeWord addr v).proc2mngrQ = s.proc2mngrQ := rfl
@[simp] theorem storeWord_sent (addr v : Word) : (s.storeWord addr v).sent = s.sent := rfl
@[simp] theorem storeWord_agenda (addr v : Word) : (s.storeWord addr v).agenda = s.agenda := rfl
@[simp] theorem storeWord_cfg (addr v : Word) : (s.storeWord addr v).cfg = s.cfg := rfl

/-! ### `sendWord` -/

@[simp] theorem sendWord_regs (v : Word) : (s.sendWord v).regs = s.regs := rfl
@[simp] theorem sendWord_pc (v : Word) : (s.sendWord v).pc = s.pc := rfl
@[simp] theorem sendWord_mem (v : Word) : (s.sendWord v).mem = s.mem := rfl
@[simp] theorem sendWord_stored (v : Word) : (s.sendWord v).stored = s.stored := rfl
@[simp] theorem sendWord_statsEn (v : Word) : (s.sendWord v).statsEn = s.statsEn := rfl
@[simp] theorem sendWord_mngr2procQ (v : Word) : (s.sendWord v).mngr2procQ = s.mngr2procQ := rfl
@[simp] theorem sendWord_proc2mngrQ (v : Word) : (s.sendWord v).proc2mngrQ = s.proc2mngrQ ++ [v] := rfl
@[simp] theorem sendWord_sent (v : Word) : (s.sendWord v).sent = s.sent ++ [v] := rfl
@[simp] theorem sendWord_agenda (v : Word) : (s.sendWord v).agenda = s.agenda := rfl
@[simp] theorem sendWord_cfg (v : Word) : (s.sendWord v).cfg = s.cfg := rfl

/-! ### `setMngr2procQ` -/

@[simp] theorem setMngr2procQ_regs (q : List Word) : (s.setMngr2procQ q).regs = s.regs := rfl
@[simp] theorem setMngr2procQ_pc (q : List Word) : (s.setMngr2procQ q).pc = s.pc := rfl
@[simp] theorem setMngr2procQ_mem (q : List Word) : (s.setMngr2procQ q).mem = s.mem := rfl
@[simp] theorem setMngr2procQ_stored (q : List Word) : (s.setMngr2procQ q).stored = s.stored := rfl
@[simp] theorem setMngr2procQ_statsEn (q : List Word) : (s.setMngr2procQ q).statsEn = s.statsEn := rfl
@[simp] theorem setMngr2procQ_mngr2procQ (q : List Word) : (s.setMngr2procQ q).mngr2procQ = q := rfl
@[simp] theorem setMngr2procQ_proc2mngrQ (q : List Word) : (s.setMngr2procQ q).proc2mngrQ = s.proc2mngrQ := rfl
@[simp] theorem setMngr2procQ_sent (q : List Word) : (s.setMngr2procQ q).sent = s.sent := rfl
@[simp] theorem setMngr2procQ_agenda (q : List Word) : (s.setMngr2procQ q).agenda = s.agenda := rfl
@[simp] theorem setMngr2procQ_cfg (q : List Word) : (s.setMngr2procQ q).cfg = s.cfg := rfl

/-! ### `setStatsEn` -/

@[simp] theorem setStatsEn_regs (v : Word) : (s.setStatsEn v).regs = s.regs := rfl
@[simp] theorem setStatsEn_pc (v : Word) : (s.setStatsEn v).pc = s.pc := rfl
@[simp] theorem setStatsEn_mem (v : Word) : (s.setStatsEn v).mem = s.mem := rfl
@[simp] theorem setStatsEn_stored (v : Word) : (s.setStatsEn v).stored = s.stored := rfl
@[simp] theorem setStatsEn_statsEn (v : Word) : (s.setStatsEn v).statsEn = v := rfl
@[simp] theorem setStatsEn_mngr2procQ (v : Word) : (s.setStatsEn v).mngr2procQ = s.mngr2procQ := rfl
@[simp] theorem setStatsEn_proc2mngrQ (v : Word) : (s.setStatsEn v).proc2mngrQ = s.proc2mngrQ := rfl
@[simp] theorem setStatsEn_sent (v : Word) : (s.setStatsEn v).sent = s.sent := rfl
@[simp] theorem setStatsEn_agenda (v : Word) : (s.setStatsEn v).agenda = s.agenda := rfl
@[simp] theorem setStatsEn_cfg (v : Word) : (s.setStatsEn v).cfg = s.cfg := rfl

/-! ### `snapshot` -/

@[simp] theorem snapshot_regs : s.snapshot.regs = s.regs := rfl
@[simp] theorem snapshot_pc : s.snapshot.pc = s.pc := rfl
@[simp] theorem snapshot_mem : s.snapshot.mem = s.mem := rfl
@[simp] theorem snapshot_stored : s.snapshot.stored = s.stored := rfl
@[simp] theorem snapshot_statsEn : s.snapshot.statsEn = s.statsEn := rfl
@[simp] theorem snapshot_mngr2procQ : s.snapshot.mngr2procQ = s.mngr2procQ := rfl
@[simp] theorem snapshot_proc2mngrQ : s.snapshot.proc2mngrQ = s.proc2mngrQ := rfl
@[simp] theorem snapshot_sent : s.snapshot.sent = s.sent := rfl
@[simp] theorem snapshot_setAgenda (turns : List Turn) : (s.setAgenda turns).snapshot = s.snapshot := rfl
@[simp] theorem snapshot_onVersion (v : IsaVersion) : (s.onVersion v).snapshot = s.snapshot := rfl

/-! ### `setAgenda` -/

@[simp] theorem setAgenda_regs (turns : List Turn) : (s.setAgenda turns).regs = s.regs := rfl
@[simp] theorem setAgenda_pc (turns : List Turn) : (s.setAgenda turns).pc = s.pc := rfl
@[simp] theorem setAgenda_mem (turns : List Turn) : (s.setAgenda turns).mem = s.mem := rfl
@[simp] theorem setAgenda_stored (turns : List Turn) : (s.setAgenda turns).stored = s.stored := rfl
@[simp] theorem setAgenda_statsEn (turns : List Turn) : (s.setAgenda turns).statsEn = s.statsEn := rfl
@[simp] theorem setAgenda_mngr2procQ (turns : List Turn) : (s.setAgenda turns).mngr2procQ = s.mngr2procQ := rfl
@[simp] theorem setAgenda_proc2mngrQ (turns : List Turn) : (s.setAgenda turns).proc2mngrQ = s.proc2mngrQ := rfl
@[simp] theorem setAgenda_sent (turns : List Turn) : (s.setAgenda turns).sent = s.sent := rfl
@[simp] theorem setAgenda_agenda (turns : List Turn) : (s.setAgenda turns).agenda = turns := rfl
@[simp] theorem setAgenda_cfg (turns : List Turn) : (s.setAgenda turns).cfg = s.cfg := rfl

/-! ### `onVersion` -/

@[simp] theorem onVersion_regs (v : IsaVersion) : (s.onVersion v).regs = s.regs := rfl
@[simp] theorem onVersion_pc (v : IsaVersion) : (s.onVersion v).pc = s.pc := rfl
@[simp] theorem onVersion_mem (v : IsaVersion) : (s.onVersion v).mem = s.mem := rfl
@[simp] theorem onVersion_stored (v : IsaVersion) : (s.onVersion v).stored = s.stored := rfl
@[simp] theorem onVersion_statsEn (v : IsaVersion) : (s.onVersion v).statsEn = s.statsEn := rfl
@[simp] theorem onVersion_mngr2procQ (v : IsaVersion) : (s.onVersion v).mngr2procQ = s.mngr2procQ := rfl
@[simp] theorem onVersion_proc2mngrQ (v : IsaVersion) : (s.onVersion v).proc2mngrQ = s.proc2mngrQ := rfl
@[simp] theorem onVersion_sent (v : IsaVersion) : (s.onVersion v).sent = s.sent := rfl
@[simp] theorem onVersion_agenda (v : IsaVersion) : (s.onVersion v).agenda = s.agenda := rfl
@[simp] theorem onVersion_cfg (v : IsaVersion) : (s.onVersion v).cfg = { s.cfg with isaVersion := v } := rfl

/-! ### `managerDequeue` and `managerEnqueue` -/

@[simp] theorem managerDequeue_regs : (managerDequeue s).regs = s.regs := rfl
@[simp] theorem managerDequeue_pc : (managerDequeue s).pc = s.pc := rfl
@[simp] theorem managerDequeue_mem : (managerDequeue s).mem = s.mem := rfl
@[simp] theorem managerDequeue_stored : (managerDequeue s).stored = s.stored := rfl
@[simp] theorem managerDequeue_statsEn : (managerDequeue s).statsEn = s.statsEn := rfl
@[simp] theorem managerDequeue_mngr2procQ : (managerDequeue s).mngr2procQ = s.mngr2procQ := rfl
@[simp] theorem managerDequeue_proc2mngrQ : (managerDequeue s).proc2mngrQ = s.proc2mngrQ.tail := rfl
@[simp] theorem managerDequeue_sent : (managerDequeue s).sent = s.sent := rfl
@[simp] theorem managerDequeue_agenda : (managerDequeue s).agenda = s.agenda := rfl
@[simp] theorem managerDequeue_cfg : (managerDequeue s).cfg = s.cfg := rfl

@[simp] theorem managerEnqueue_regs (w : Word) : (managerEnqueue w s).regs = s.regs := by unfold managerEnqueue; split <;> rfl
@[simp] theorem managerEnqueue_pc (w : Word) : (managerEnqueue w s).pc = s.pc := by unfold managerEnqueue; split <;> rfl
@[simp] theorem managerEnqueue_mem (w : Word) : (managerEnqueue w s).mem = s.mem := by unfold managerEnqueue; split <;> rfl
@[simp] theorem managerEnqueue_stored (w : Word) : (managerEnqueue w s).stored = s.stored := by unfold managerEnqueue; split <;> rfl
@[simp] theorem managerEnqueue_statsEn (w : Word) : (managerEnqueue w s).statsEn = s.statsEn := by unfold managerEnqueue; split <;> rfl
@[simp] theorem managerEnqueue_mngr2procQ (w : Word) : (managerEnqueue w s).mngr2procQ =
    if fifoReady s.mngr2procQ s.cfg.mngr2procDepth then s.mngr2procQ ++ [w] else s.mngr2procQ := by
  unfold managerEnqueue; split <;> rfl
@[simp] theorem managerEnqueue_proc2mngrQ (w : Word) : (managerEnqueue w s).proc2mngrQ = s.proc2mngrQ := by unfold managerEnqueue; split <;> rfl
@[simp] theorem managerEnqueue_sent (w : Word) : (managerEnqueue w s).sent = s.sent := by unfold managerEnqueue; split <;> rfl
@[simp] theorem managerEnqueue_agenda (w : Word) : (managerEnqueue w s).agenda = s.agenda := by unfold managerEnqueue; split <;> rfl
@[simp] theorem managerEnqueue_cfg (w : Word) : (managerEnqueue w s).cfg = s.cfg := by unfold managerEnqueue; split <;> rfl

/-! ### `placeWord` -/

@[simp] theorem placeWord_regs (word : Word) : (placeWord word s).regs = s.regs := rfl
@[simp] theorem placeWord_pc (word : Word) : (placeWord word s).pc = s.pc := rfl
@[simp] theorem placeWord_mem (word : Word) : (placeWord word s).mem = Memory.writeWord s.mem s.pc.toNat word := rfl
@[simp] theorem placeWord_stored (word : Word) : (placeWord word s).stored = s.stored.filter (fun a => a != s.pc.toNat) := rfl
@[simp] theorem placeWord_statsEn (word : Word) : (placeWord word s).statsEn = s.statsEn := rfl
@[simp] theorem placeWord_mngr2procQ (word : Word) : (placeWord word s).mngr2procQ = s.mngr2procQ := rfl
@[simp] theorem placeWord_proc2mngrQ (word : Word) : (placeWord word s).proc2mngrQ = s.proc2mngrQ := rfl
@[simp] theorem placeWord_sent (word : Word) : (placeWord word s).sent = s.sent := rfl
@[simp] theorem placeWord_agenda (word : Word) : (placeWord word s).agenda = .processor :: s.agenda := rfl
@[simp] theorem placeWord_cfg (word : Word) : (placeWord word s).cfg = { s.cfg with isaVersion := tableVersion word, endOfRun := .never } := rfl

/-! ### Reset -/

@[simp] theorem resetWith_regs (p : ResetParams) : (State.resetWith p).regs = p.xReset := rfl
@[simp] theorem resetWith_pc (p : ResetParams) : (State.resetWith p).pc = resetVector := rfl
@[simp] theorem resetWith_mem (p : ResetParams) : (State.resetWith p).mem = p.memInit := rfl
@[simp] theorem resetWith_stored (p : ResetParams) : (State.resetWith p).stored = [] := rfl
@[simp] theorem resetWith_statsEn (p : ResetParams) : (State.resetWith p).statsEn = p.statsEnReset := rfl
@[simp] theorem resetWith_mngr2procQ (p : ResetParams) : (State.resetWith p).mngr2procQ = [] := rfl
@[simp] theorem resetWith_proc2mngrQ (p : ResetParams) : (State.resetWith p).proc2mngrQ = [] := rfl
@[simp] theorem resetWith_sent (p : ResetParams) : (State.resetWith p).sent = [] := rfl
@[simp] theorem resetWith_agenda (p : ResetParams) : (State.resetWith p).agenda = p.agenda := rfl
@[simp] theorem resetWith_cfg (p : ResetParams) : (State.resetWith p).cfg = p.cfg := rfl

end Sys2Proof.Machine
end

