-- ==== Sys2Proof/Laws/Fields.lean ====
section
/-! SUPPORT. The fields of an encoded word (30_encoding.md R80 to R91): what each field extractor reads from each of the six
word layouts, the word put together again from its fields, and the fixed bits of a layout under its mask. -/

namespace Sys2Proof

/-- A slice that lies in the high part of a concatenation. -/
theorem slice_high {v w : Nat} (x : BitVec v) (y : BitVec w) {start len : Nat} (h : w ≤ start) :
    (x ++ y).extractLsb' start len = x.extractLsb' (start - w) len := BitVec.extractLsb'_append_eq_of_le h

/-- A slice that lies in the low part of a concatenation. -/
theorem slice_low {v w : Nat} (x : BitVec v) (y : BitVec w) {start len : Nat} (h : start + len ≤ w) :
    (x ++ y).extractLsb' start len = y.extractLsb' start len := BitVec.extractLsb'_append_eq_of_add_le h

/-- Two slices next to each other are one. -/
theorem slice_join {w : Nat} (x : BitVec w) {a b m n : Nat} (h : a = b + n) :
    x.extractLsb' a m ++ x.extractLsb' b n = x.extractLsb' b (m + n) :=
  BitVec.extractLsb'_append_extractLsb'_eq_extractLsb' h

/-! ### `wordR` -/

@[simp] theorem fieldOpcode_wordR (funct7 : BitVec 7) (rs2 rs1 : RegIdx) (funct3 : BitVec 3) (rd : RegIdx) (opcode : BitVec 7) :
    fieldOpcode (wordR funct7 rs2 rs1 funct3 rd opcode) = opcode := by
  unfold fieldOpcode wordR
  rw [slice_low _ _ (by decide)]
  exact BitVec.extractLsb'_eq_self

@[simp] theorem fieldRd_wordR (funct7 : BitVec 7) (rs2 rs1 : RegIdx) (funct3 : BitVec 3) (rd : RegIdx) (opcode : BitVec 7) :
    fieldRd (wordR funct7 rs2 rs1 funct3 rd opcode) = rd := by
  unfold fieldRd wordR
  repeat rw [slice_high _ _ (by decide)]
  rw [slice_low _ _ (by decide)]
  exact BitVec.extractLsb'_eq_self

@[simp] theorem fieldFunct3_wordR (funct7 : BitVec 7) (rs2 rs1 : RegIdx) (funct3 : BitVec 3) (rd : RegIdx) (opcode : BitVec 7) :
    fieldFunct3 (wordR funct7 rs2 rs1 funct3 rd opcode) = funct3 := by
  unfold fieldFunct3 wordR
  repeat rw [slice_high _ _ (by decide)]
  rw [slice_low _ _ (by decide)]
  exact BitVec.extractLsb'_eq_self

@[simp] theorem fieldRs1_wordR (funct7 : BitVec 7) (rs2 rs1 : RegIdx) (funct3 : BitVec 3) (rd : RegIdx) (opcode : BitVec 7) :
    fieldRs1 (wordR funct7 rs2 rs1 funct3 rd opcode) = rs1 := by
  unfold fieldRs1 wordR
  repeat rw [slice_high _ _ (by decide)]
  rw [slice_low _ _ (by decide)]
  exact BitVec.extractLsb'_eq_self

@[simp] theorem fieldRs2_wordR (funct7 : BitVec 7) (rs2 rs1 : RegIdx) (funct3 : BitVec 3) (rd : RegIdx) (opcode : BitVec 7) :
    fieldRs2 (wordR funct7 rs2 rs1 funct3 rd opcode) = rs2 := by
  unfold fieldRs2 wordR
  repeat rw [slice_high _ _ (by decide)]
  rw [slice_low _ _ (by decide)]
  exact BitVec.extractLsb'_eq_self

@[simp] theorem fieldShamt_wordR (funct7 : BitVec 7) (rs2 rs1 : RegIdx) (funct3 : BitVec 3) (rd : RegIdx) (opcode : BitVec 7) :
    fieldShamt (wordR funct7 rs2 rs1 funct3 rd opcode) = rs2 := by
  unfold fieldShamt wordR
  repeat rw [slice_high _ _ (by decide)]
  rw [slice_low _ _ (by decide)]
  exact BitVec.extractLsb'_eq_self

@[simp] theorem fieldFunct7_wordR (funct7 : BitVec 7) (rs2 rs1 : RegIdx) (funct3 : BitVec 3) (rd : RegIdx) (opcode : BitVec 7) :
    fieldFunct7 (wordR funct7 rs2 rs1 funct3 rd opcode) = funct7 := by
  unfold fieldFunct7 wordR
  repeat rw [slice_high _ _ (by decide)]
  exact BitVec.extractLsb'_eq_self

/-! ### `wordI` -/

@[simp] theorem fieldOpcode_wordI (imm : BitVec 12) (rs1 : RegIdx) (funct3 : BitVec 3) (rd : RegIdx) (opcode : BitVec 7) :
    fieldOpcode (wordI imm rs1 funct3 rd opcode) = opcode := by
  unfold fieldOpcode wordI
  rw [slice_low _ _ (by decide)]
  exact BitVec.extractLsb'_eq_self

@[simp] theorem fieldRd_wordI (imm : BitVec 12) (rs1 : RegIdx) (funct3 : BitVec 3) (rd : RegIdx) (opcode : BitVec 7) :
    fieldRd (wordI imm rs1 funct3 rd opcode) = rd := by
  unfold fieldRd wordI
  repeat rw [slice_high _ _ (by decide)]
  rw [slice_low _ _ (by decide)]
  exact BitVec.extractLsb'_eq_self

@[simp] theorem fieldFunct3_wordI (imm : BitVec 12) (rs1 : RegIdx) (funct3 : BitVec 3) (rd : RegIdx) (opcode : BitVec 7) :
    fieldFunct3 (wordI imm rs1 funct3 rd opcode) = funct3 := by
  unfold fieldFunct3 wordI
  repeat rw [slice_high _ _ (by decide)]
  rw [slice_low _ _ (by decide)]
  exact BitVec.extractLsb'_eq_self

@[simp] theorem fieldRs1_wordI (imm : BitVec 12) (rs1 : RegIdx) (funct3 : BitVec 3) (rd : RegIdx) (opcode : BitVec 7) :
    fieldRs1 (wordI imm rs1 funct3 rd opcode) = rs1 := by
  unfold fieldRs1 wordI
  repeat rw [slice_high _ _ (by decide)]
  rw [slice_low _ _ (by decide)]
  exact BitVec.extractLsb'_eq_self

@[simp] theorem fieldCsr_wordI (imm : BitVec 12) (rs1 : RegIdx) (funct3 : BitVec 3) (rd : RegIdx) (opcode : BitVec 7) :
    fieldCsr (wordI imm rs1 funct3 rd opcode) = imm := by
  unfold fieldCsr wordI
  repeat rw [slice_high _ _ (by decide)]
  exact BitVec.extractLsb'_eq_self

@[simp] theorem fieldImmI_wordI (imm : BitVec 12) (rs1 : RegIdx) (funct3 : BitVec 3) (rd : RegIdx) (opcode : BitVec 7) :
    fieldImmI (wordI imm rs1 funct3 rd opcode) = imm := by
  unfold fieldImmI wordI
  repeat rw [slice_high _ _ (by decide)]
  exact BitVec.extractLsb'_eq_self

/-! ### `wordS` -/

@[simp] theorem fieldOpcode_wordS (imm : BitVec 12) (rs2 rs1 : RegIdx) (funct3 : BitVec 3) (opcode : BitVec 7) :
    fieldOpcode (wordS imm rs2 rs1 funct3 opcode) = opcode := by
  unfold fieldOpcode wordS
  rw [slice_low _ _ (by decide)]
  exact BitVec.extractLsb'_eq_self

@[simp] theorem fieldFunct3_wordS (imm : BitVec 12) (rs2 rs1 : RegIdx) (funct3 : BitVec 3) (opcode : BitVec 7) :
    fieldFunct3 (wordS imm rs2 rs1 funct3 opcode) = funct3 := by
  unfold fieldFunct3 wordS
  repeat rw [slice_high _ _ (by decide)]
  rw [slice_low _ _ (by decide)]
  exact BitVec.extractLsb'_eq_self

@[simp] theorem fieldRs1_wordS (imm : BitVec 12) (rs2 rs1 : RegIdx) (funct3 : BitVec 3) (opcode : BitVec 7) :
    fieldRs1 (wordS imm rs2 rs1 funct3 opcode) = rs1 := by
  unfold fieldRs1 wordS
  repeat rw [slice_high _ _ (by decide)]
  rw [slice_low _ _ (by decide)]
  exact BitVec.extractLsb'_eq_self

@[simp] theorem fieldRs2_wordS (imm : BitVec 12) (rs2 rs1 : RegIdx) (funct3 : BitVec 3) (opcode : BitVec 7) :
    fieldRs2 (wordS imm rs2 rs1 funct3 opcode) = rs2 := by
  unfold fieldRs2 wordS
  repeat rw [slice_high _ _ (by decide)]
  rw [slice_low _ _ (by decide)]
  exact BitVec.extractLsb'_eq_self

@[simp] theorem fieldImmS_wordS (imm : BitVec 12) (rs2 rs1 : RegIdx) (funct3 : BitVec 3) (opcode : BitVec 7) :
    fieldImmS (wordS imm rs2 rs1 funct3 opcode) = imm := by
  unfold fieldImmS wordS
  have hi : (imm.extractLsb' 5 7 ++ rs2 ++ rs1 ++ funct3 ++ imm.extractLsb' 0 5 ++ opcode).extractLsb' 25 7 =
      imm.extractLsb' 5 7 := by
    repeat rw [slice_high _ _ (by decide)]
    exact BitVec.extractLsb'_eq_self
  have lo : (imm.extractLsb' 5 7 ++ rs2 ++ rs1 ++ funct3 ++ imm.extractLsb' 0 5 ++ opcode).extractLsb' 7 5 =
      imm.extractLsb' 0 5 := by
    rw [slice_high _ _ (by decide), slice_low _ _ (by decide)]
    exact BitVec.extractLsb'_eq_self
  rw [hi, lo]
  exact (slice_join imm (by decide)).trans BitVec.extractLsb'_eq_self

/-! ### `wordB` -/

@[simp] theorem fieldOpcode_wordB (offset : BitVec 13) (rs2 rs1 : RegIdx) (funct3 : BitVec 3) (opcode : BitVec 7) :
    fieldOpcode (wordB offset rs2 rs1 funct3 opcode) = opcode := by
  unfold fieldOpcode wordB
  rw [slice_low _ _ (by decide)]
  exact BitVec.extractLsb'_eq_self

@[simp] theorem fieldFunct3_wordB (offset : BitVec 13) (rs2 rs1 : RegIdx) (funct3 : BitVec 3) (opcode : BitVec 7) :
    fieldFunct3 (wordB offset rs2 rs1 funct3 opcode) = funct3 := by
  unfold fieldFunct3 wordB
  repeat rw [slice_high _ _ (by decide)]
  rw [slice_low _ _ (by decide)]
  exact BitVec.extractLsb'_eq_self

@[simp] theorem fieldRs1_wordB (offset : BitVec 13) (rs2 rs1 : RegIdx) (funct3 : BitVec 3) (opcode : BitVec 7) :
    fieldRs1 (wordB offset rs2 rs1 funct3 opcode) = rs1 := by
  unfold fieldRs1 wordB
  repeat rw [slice_high _ _ (by decide)]
  rw [slice_low _ _ (by decide)]
  exact BitVec.extractLsb'_eq_self

@[simp] theorem fieldRs2_wordB (offset : BitVec 13) (rs2 rs1 : RegIdx) (funct3 : BitVec 3) (opcode : BitVec 7) :
    fieldRs2 (wordB offset rs2 rs1 funct3 opcode) = rs2 := by
  unfold fieldRs2 wordB
  repeat rw [slice_high _ _ (by decide)]
  rw [slice_low _ _ (by decide)]
  exact BitVec.extractLsb'_eq_self

/-! ### `wordU` -/

@[simp] theorem fieldOpcode_wordU (imm : BitVec 20) (rd : RegIdx) (opcode : BitVec 7) :
    fieldOpcode (wordU imm rd opcode) = opcode := by
  unfold fieldOpcode wordU
  rw [slice_low _ _ (by decide)]
  exact BitVec.extractLsb'_eq_self

@[simp] theorem fieldRd_wordU (imm : BitVec 20) (rd : RegIdx) (opcode : BitVec 7) :
    fieldRd (wordU imm rd opcode) = rd := by
  unfold fieldRd wordU
  repeat rw [slice_high _ _ (by decide)]
  rw [slice_low _ _ (by decide)]
  exact BitVec.extractLsb'_eq_self

@[simp] theorem fieldImmU_wordU (imm : BitVec 20) (rd : RegIdx) (opcode : BitVec 7) :
    fieldImmU (wordU imm rd opcode) = imm := by
  unfold fieldImmU wordU
  repeat rw [slice_high _ _ (by decide)]
  exact BitVec.extractLsb'_eq_self

/-! ### `wordJ` -/

@[simp] theorem fieldOpcode_wordJ (offset : BitVec 21) (rd : RegIdx) (opcode : BitVec 7) :
    fieldOpcode (wordJ offset rd opcode) = opcode := by
  unfold fieldOpcode wordJ
  rw [slice_low _ _ (by decide)]
  exact BitVec.extractLsb'_eq_self

@[simp] theorem fieldRd_wordJ (offset : BitVec 21) (rd : RegIdx) (opcode : BitVec 7) :
    fieldRd (wordJ offset rd opcode) = rd := by
  unfold fieldRd wordJ
  repeat rw [slice_high _ _ (by decide)]
  rw [slice_low _ _ (by decide)]
  exact BitVec.extractLsb'_eq_self

/-! ### The B- and J-immediates -/

/-- The bits of an even offset: bit 0 is 0. -/
theorem evenOffset_low {n : Nat} {offset : BitVec n} (h : evenOffset offset = true) : offset.extractLsb' 0 1 = 0#1 := by
  apply BitVec.eq_of_getLsbD_eq
  intro i hi
  obtain rfl : i = 0 := by omega
  simpa [evenOffset] using h

/-- An offset whose lowest slice is 0 is even. -/
theorem evenOffset_of_low {n : Nat} {offset : BitVec n} (h : offset.extractLsb' 0 1 = 0#1) : evenOffset offset = true := by
  have := congrArg (fun b => b.getLsbD 0) h
  simpa [evenOffset] using this

/-- The B-immediate of an S-type word with an even offset (R87). -/
theorem fieldImmB_wordB {offset : BitVec 13} (h : evenOffset offset = true) (rs2 rs1 : RegIdx) (funct3 : BitVec 3)
    (opcode : BitVec 7) : fieldImmB (wordB offset rs2 rs1 funct3 opcode) = offset := by
  have e12 : (wordB offset rs2 rs1 funct3 opcode).extractLsb' 31 1 = offset.extractLsb' 12 1 := by
    unfold wordB
    repeat rw [slice_high _ _ (by decide)]
    exact BitVec.extractLsb'_eq_self
  have e11 : (wordB offset rs2 rs1 funct3 opcode).extractLsb' 7 1 = offset.extractLsb' 11 1 := by
    unfold wordB
    rw [slice_high _ _ (by decide), slice_low _ _ (by decide)]
    exact BitVec.extractLsb'_eq_self
  have e5 : (wordB offset rs2 rs1 funct3 opcode).extractLsb' 25 6 = offset.extractLsb' 5 6 := by
    unfold wordB
    repeat rw [slice_high _ _ (by decide)]
    rw [slice_low _ _ (by decide)]
    exact BitVec.extractLsb'_eq_self
  have e1 : (wordB offset rs2 rs1 funct3 opcode).extractLsb' 8 4 = offset.extractLsb' 1 4 := by
    unfold wordB
    rw [slice_high _ _ (by decide), slice_high _ _ (by decide), slice_low _ _ (by decide)]
    exact BitVec.extractLsb'_eq_self
  unfold fieldImmB
  rw [e12, e11, e5, e1, ← evenOffset_low h, slice_join offset (by decide), slice_join offset (by decide), slice_join offset (by decide),
    slice_join offset (by decide)]
  exact BitVec.extractLsb'_eq_self

/-- The J-immediate of a U-type word with an even offset (R89). -/
theorem fieldImmJ_wordJ {offset : BitVec 21} (h : evenOffset offset = true) (rd : RegIdx) (opcode : BitVec 7) :
    fieldImmJ (wordJ offset rd opcode) = offset := by
  have e20 : (wordJ offset rd opcode).extractLsb' 31 1 = offset.extractLsb' 20 1 := by
    unfold wordJ
    repeat rw [slice_high _ _ (by decide)]
    exact BitVec.extractLsb'_eq_self
  have e12 : (wordJ offset rd opcode).extractLsb' 12 8 = offset.extractLsb' 12 8 := by
    unfold wordJ
    rw [slice_high _ _ (by decide), slice_high _ _ (by decide), slice_low _ _ (by decide)]
    exact BitVec.extractLsb'_eq_self
  have e11 : (wordJ offset rd opcode).extractLsb' 20 1 = offset.extractLsb' 11 1 := by
    unfold wordJ
    repeat rw [slice_high _ _ (by decide)]
    rw [slice_low _ _ (by decide)]
    exact BitVec.extractLsb'_eq_self
  have e1 : (wordJ offset rd opcode).extractLsb' 21 10 = offset.extractLsb' 1 10 := by
    unfold wordJ
    repeat rw [slice_high _ _ (by decide)]
    rw [slice_low _ _ (by decide)]
    exact BitVec.extractLsb'_eq_self
  unfold fieldImmJ
  rw [e20, e12, e11, e1, ← evenOffset_low h, slice_join offset (by decide), slice_join offset (by decide), slice_join offset (by decide),
    slice_join offset (by decide)]
  exact BitVec.extractLsb'_eq_self

/-- A decoded branch offset is even (R87). -/
@[simp] theorem evenOffset_fieldImmB (w : Word) : evenOffset (fieldImmB w) = true :=
  evenOffset_of_low (by unfold fieldImmB; rw [slice_low _ _ (by decide)]; rfl)

/-- A decoded jump offset is even (R89). -/
@[simp] theorem evenOffset_fieldImmJ (w : Word) : evenOffset (fieldImmJ w) = true :=
  evenOffset_of_low (by unfold fieldImmJ; rw [slice_low _ _ (by decide)]; rfl)

/-! ### A word put together again from its fields -/

theorem wordR_fields (w : Word) :
    wordR (fieldFunct7 w) (fieldRs2 w) (fieldRs1 w) (fieldFunct3 w) (fieldRd w) (fieldOpcode w) = w := by
  unfold wordR fieldFunct7 fieldRs2 fieldRs1 fieldFunct3 fieldRd fieldOpcode
  rw [slice_join w (by decide), slice_join w (by decide), slice_join w (by decide), slice_join w (by decide), slice_join w (by decide)]
  exact BitVec.extractLsb'_eq_self

theorem wordI_fields (w : Word) :
    wordI (fieldImmI w) (fieldRs1 w) (fieldFunct3 w) (fieldRd w) (fieldOpcode w) = w := by
  unfold wordI fieldImmI fieldRs1 fieldFunct3 fieldRd fieldOpcode
  rw [slice_join w (by decide), slice_join w (by decide), slice_join w (by decide), slice_join w (by decide)]
  exact BitVec.extractLsb'_eq_self

theorem wordU_fields (w : Word) : wordU (fieldImmU w) (fieldRd w) (fieldOpcode w) = w := by
  unfold wordU fieldImmU fieldRd fieldOpcode
  rw [slice_join w (by decide), slice_join w (by decide)]
  exact BitVec.extractLsb'_eq_self

theorem wordS_fields (w : Word) :
    wordS (fieldImmS w) (fieldRs2 w) (fieldRs1 w) (fieldFunct3 w) (fieldOpcode w) = w := by
  have hi : (fieldImmS w).extractLsb' 5 7 = w.extractLsb' 25 7 := by
    unfold fieldImmS; rw [slice_high _ _ (by decide)]; exact BitVec.extractLsb'_eq_self
  have lo : (fieldImmS w).extractLsb' 0 5 = w.extractLsb' 7 5 := by
    unfold fieldImmS; rw [slice_low _ _ (by decide)]; exact BitVec.extractLsb'_eq_self
  unfold wordS
  rw [hi, lo]
  exact wordR_fields w

theorem wordB_fields (w : Word) :
    wordB (fieldImmB w) (fieldRs2 w) (fieldRs1 w) (fieldFunct3 w) (fieldOpcode w) = w := by
  have e12 : (fieldImmB w).extractLsb' 12 1 = w.extractLsb' 31 1 := by
    unfold fieldImmB; repeat rw [slice_high _ _ (by decide)]
    exact BitVec.extractLsb'_eq_self
  have e11 : (fieldImmB w).extractLsb' 11 1 = w.extractLsb' 7 1 := by
    unfold fieldImmB; repeat rw [slice_high _ _ (by decide)]
    rw [slice_low _ _ (by decide)]; exact BitVec.extractLsb'_eq_self
  have e5 : (fieldImmB w).extractLsb' 5 6 = w.extractLsb' 25 6 := by
    unfold fieldImmB; repeat rw [slice_high _ _ (by decide)]
    rw [slice_low _ _ (by decide)]; exact BitVec.extractLsb'_eq_self
  have e1 : (fieldImmB w).extractLsb' 1 4 = w.extractLsb' 8 4 := by
    unfold fieldImmB; rw [slice_high _ _ (by decide), slice_low _ _ (by decide)]; exact BitVec.extractLsb'_eq_self
  unfold wordB fieldRs2 fieldRs1 fieldFunct3 fieldOpcode
  rw [e12, e11, e5, e1, slice_join w (by decide), slice_join w (by decide), slice_join w (by decide), slice_join w (by decide), slice_join w (by decide),
    slice_join w (by decide), slice_join w (by decide)]
  exact BitVec.extractLsb'_eq_self

theorem wordJ_fields (w : Word) : wordJ (fieldImmJ w) (fieldRd w) (fieldOpcode w) = w := by
  have e20 : (fieldImmJ w).extractLsb' 20 1 = w.extractLsb' 31 1 := by
    unfold fieldImmJ; repeat rw [slice_high _ _ (by decide)]
    exact BitVec.extractLsb'_eq_self
  have e12 : (fieldImmJ w).extractLsb' 12 8 = w.extractLsb' 12 8 := by
    unfold fieldImmJ; repeat rw [slice_high _ _ (by decide)]
    rw [slice_low _ _ (by decide)]; exact BitVec.extractLsb'_eq_self
  have e11 : (fieldImmJ w).extractLsb' 11 1 = w.extractLsb' 20 1 := by
    unfold fieldImmJ; repeat rw [slice_high _ _ (by decide)]
    rw [slice_low _ _ (by decide)]; exact BitVec.extractLsb'_eq_self
  have e1 : (fieldImmJ w).extractLsb' 1 10 = w.extractLsb' 21 10 := by
    unfold fieldImmJ; rw [slice_high _ _ (by decide), slice_low _ _ (by decide)]; exact BitVec.extractLsb'_eq_self
  unfold wordJ fieldRd fieldOpcode
  rw [e20, e12, e11, e1, slice_join w (by decide), slice_join w (by decide), slice_join w (by decide), slice_join w (by decide), slice_join w (by decide)]
  exact BitVec.extractLsb'_eq_self

/-! ### Fixed bits under a mask (R94) -/

/-- R-type and the shifts by a constant fix `funct7`, `funct3` and the opcode. -/
theorem wordR_masked (funct7 : BitVec 7) (rs2 rs1 : RegIdx) (funct3 : BitVec 3) (rd : RegIdx) (opcode : BitVec 7) :
    wordR funct7 rs2 rs1 funct3 rd opcode &&& 0xFE00707F#32 = wordR funct7 0#5 0#5 funct3 0#5 opcode := by
  rw [show 0xFE00707F#32 = wordR (BitVec.allOnes 7) 0#5 0#5 (BitVec.allOnes 3) 0#5 (BitVec.allOnes 7) by decide]
  unfold wordR
  rw [BitVec.and_append, BitVec.and_append, BitVec.and_append, BitVec.and_append, BitVec.and_append]
  simp only [BitVec.and_allOnes, BitVec.and_zero]

/-- I-type fixes `funct3` and the opcode. -/
theorem wordI_masked (imm : BitVec 12) (rs1 : RegIdx) (funct3 : BitVec 3) (rd : RegIdx) (opcode : BitVec 7) :
    wordI imm rs1 funct3 rd opcode &&& 0x0000707F#32 = wordI 0#12 0#5 funct3 0#5 opcode := by
  rw [show 0x0000707F#32 = wordI 0#12 0#5 (BitVec.allOnes 3) 0#5 (BitVec.allOnes 7) by decide]
  unfold wordI
  rw [BitVec.and_append, BitVec.and_append, BitVec.and_append, BitVec.and_append]
  simp only [BitVec.and_allOnes, BitVec.and_zero]

/-- CSRR fixes its `rs1` field too (R98). -/
theorem wordI_masked_csrr (imm : BitVec 12) (rs1 : RegIdx) (funct3 : BitVec 3) (rd : RegIdx) (opcode : BitVec 7) :
    wordI imm rs1 funct3 rd opcode &&& 0x000FF07F#32 = wordI 0#12 rs1 funct3 0#5 opcode := by
  rw [show 0x000FF07F#32 = wordI 0#12 (BitVec.allOnes 5) (BitVec.allOnes 3) 0#5 (BitVec.allOnes 7) by decide]
  unfold wordI
  rw [BitVec.and_append, BitVec.and_append, BitVec.and_append, BitVec.and_append]
  simp only [BitVec.and_allOnes, BitVec.and_zero]

/-- CSRW fixes its `rd` field too (R98). -/
theorem wordI_masked_csrw (imm : BitVec 12) (rs1 : RegIdx) (funct3 : BitVec 3) (rd : RegIdx) (opcode : BitVec 7) :
    wordI imm rs1 funct3 rd opcode &&& 0x00007FFF#32 = wordI 0#12 0#5 funct3 rd opcode := by
  rw [show 0x00007FFF#32 = wordI 0#12 0#5 (BitVec.allOnes 3) (BitVec.allOnes 5) (BitVec.allOnes 7) by decide]
  unfold wordI
  rw [BitVec.and_append, BitVec.and_append, BitVec.and_append, BitVec.and_append]
  simp only [BitVec.and_allOnes, BitVec.and_zero]

/-- JR fixes everything but `rs1` (R181). -/
theorem wordI_masked_jr (imm : BitVec 12) (rs1 : RegIdx) (funct3 : BitVec 3) (rd : RegIdx) (opcode : BitVec 7) :
    wordI imm rs1 funct3 rd opcode &&& 0xFFF07FFF#32 = wordI imm 0#5 funct3 rd opcode := by
  rw [show 0xFFF07FFF#32 = wordI (BitVec.allOnes 12) 0#5 (BitVec.allOnes 3) (BitVec.allOnes 5) (BitVec.allOnes 7) by decide]
  unfold wordI
  rw [BitVec.and_append, BitVec.and_append, BitVec.and_append, BitVec.and_append]
  simp only [BitVec.and_allOnes, BitVec.and_zero]

/-- U-type fixes the opcode alone. -/
theorem wordU_masked (imm : BitVec 20) (rd : RegIdx) (opcode : BitVec 7) :
    wordU imm rd opcode &&& 0x0000007F#32 = wordU 0#20 0#5 opcode := by
  rw [show 0x0000007F#32 = wordU 0#20 0#5 (BitVec.allOnes 7) by decide]
  unfold wordU
  rw [BitVec.and_append, BitVec.and_append]
  simp only [BitVec.and_allOnes, BitVec.and_zero]

/-- Any word under a mask of `funct3` and the opcode, by its fields. -/
theorem masked_I (w : Word) : w &&& 0x0000707F#32 = wordI 0#12 0#5 (fieldFunct3 w) 0#5 (fieldOpcode w) := by
  conv_lhs => rw [← wordI_fields w]
  exact wordI_masked _ _ _ _ _

/-- Any word under a mask of `funct7`, `funct3` and the opcode, by its fields. -/
theorem masked_R (w : Word) :
    w &&& 0xFE00707F#32 = wordR (fieldFunct7 w) 0#5 0#5 (fieldFunct3 w) 0#5 (fieldOpcode w) := by
  conv_lhs => rw [← wordR_fields w]
  exact wordR_masked _ _ _ _ _ _

/-- Any word under the mask of CSRR, by its fields. -/
theorem masked_csrr (w : Word) : w &&& 0x000FF07F#32 = wordI 0#12 (fieldRs1 w) (fieldFunct3 w) 0#5 (fieldOpcode w) := by
  conv_lhs => rw [← wordI_fields w]
  exact wordI_masked_csrr _ _ _ _ _

/-- Any word under the mask of CSRW, by its fields. -/
theorem masked_csrw (w : Word) : w &&& 0x00007FFF#32 = wordI 0#12 0#5 (fieldFunct3 w) (fieldRd w) (fieldOpcode w) := by
  conv_lhs => rw [← wordI_fields w]
  exact wordI_masked_csrw _ _ _ _ _

/-- Any word under the mask of JR, by its fields. -/
theorem masked_jr (w : Word) :
    w &&& 0xFFF07FFF#32 = wordI (fieldImmI w) 0#5 (fieldFunct3 w) (fieldRd w) (fieldOpcode w) := by
  conv_lhs => rw [← wordI_fields w]
  exact wordI_masked_jr _ _ _ _ _

/-- Any word under a mask of the opcode alone. -/
theorem masked_U (w : Word) : w &&& 0x0000007F#32 = wordU 0#20 0#5 (fieldOpcode w) := by
  conv_lhs => rw [← wordU_fields w]
  exact wordU_masked _ _ _

end Sys2Proof
end

