-- ==== Sys2Proof/Laws/Memory.lean ====
section
/-! SUPPORT. The laws of memory: what reads see of writes, and that every memory operation keeps the canonical form
(20_memory.md R53, R54; 10_state.md R39, R40). -/

namespace Sys2Proof.Machine

/-- An address below the first that is listed reads as an unlisted byte. -/
theorem read_below {m : Memory} {lo a : Nat} (h : Memory.wfFrom lo m = true) (ha : a < lo) :
    Memory.read m a = unlistedByte := by
  induction m generalizing lo with
  | nil => rfl
  | cons c rest ih =>
    obtain ⟨x, b⟩ := c
    simp only [Memory.wfFrom, Bool.and_eq_true, decide_eq_true_eq] at h
    simp only [Memory.read, show x ≠ a by omega, if_false]
    exact ih h.2 (by omega)

/-- Writing one address leaves the bytes at all others, whatever the form of memory. -/
theorem read_write_other (m : Memory) {a b : Nat} (v : Byte) (h : b ≠ a) :
    Memory.read (Memory.write m a v) b = Memory.read m b := by
  induction m with
  | nil => unfold Memory.write; split <;> simp [Memory.read, h.symm]
  | cons c rest ih =>
    obtain ⟨x, y⟩ := c
    unfold Memory.write
    split
    · split <;> simp [Memory.read, h.symm]
    · split
      · subst_vars; split <;> simp [Memory.read, h.symm]
      · simp only [Memory.read, ih]

/-- A byte written reads back, in canonical memory. -/
theorem read_write_same {m : Memory} {lo a : Nat} (hm : Memory.wfFrom lo m = true) (v : Byte) :
    Memory.read (Memory.write m a v) a = v := by
  induction m generalizing lo with
  | nil => unfold Memory.write; split <;> simp_all [Memory.read]
  | cons c rest ih =>
    obtain ⟨x, y⟩ := c
    have hr : Memory.wfFrom (x + 1) rest = true := by
      simp only [Memory.wfFrom, Bool.and_eq_true] at hm; exact hm.2
    unfold Memory.write
    split
    · split
      · rw [Memory.read, if_neg (by omega), read_below hr (by omega)]; simp_all
      · simp [Memory.read]
    · split
      · subst_vars
        split
        · rw [read_below hr (by omega)]; simp_all
        · simp [Memory.read]
      · simp only [Memory.read, show x ≠ a by omega, if_false]; exact ih hr

/-- Writing keeps the canonical form above a bound. -/
theorem write_wfFrom {m : Memory} {lo a : Nat} (hm : Memory.wfFrom lo m = true) (hlo : lo ≤ a) (ha : a < memBytes)
    (v : Byte) : Memory.wfFrom lo (Memory.write m a v) = true := by
  induction m generalizing lo with
  | nil => unfold Memory.write; split <;> simp_all [Memory.wfFrom]
  | cons c rest ih =>
    obtain ⟨x, y⟩ := c
    have h := hm
    simp only [Memory.wfFrom, Bool.and_eq_true, decide_eq_true_eq] at h
    obtain ⟨⟨⟨h1, h2⟩, h3⟩, h4⟩ := h
    unfold Memory.write
    split
    · split
      · exact hm
      · simp only [Memory.wfFrom, Bool.and_eq_true, decide_eq_true_eq]
        exact ⟨⟨⟨hlo, ha⟩, by assumption⟩, ⟨⟨by omega, h2⟩, h3⟩, h4⟩
    · split
      · subst_vars
        split
        · revert h4
          cases rest with
          | nil => exact fun _ => rfl
          | cons d tl =>
            simp only [Memory.wfFrom, Bool.and_eq_true, decide_eq_true_eq]
            exact fun h => ⟨⟨⟨by omega, h.1.1.2⟩, h.1.2⟩, h.2⟩
        · simp only [Memory.wfFrom, Bool.and_eq_true, decide_eq_true_eq]
          exact ⟨⟨⟨hlo, ha⟩, by assumption⟩, h4⟩
      · simp only [Memory.wfFrom, Bool.and_eq_true, decide_eq_true_eq]
        exact ⟨⟨⟨h1, h2⟩, h3⟩, ih h4 (by omega)⟩

/-- Writing a byte of memory keeps the canonical form. -/
theorem write_wf {m : Memory} {a : Nat} (hm : Memory.wf m = true) (ha : a < memBytes) (v : Byte) :
    Memory.wf (Memory.write m a v) = true := write_wfFrom hm (Nat.zero_le a) ha v

/-- Writing a word within memory keeps the canonical form. -/
theorem writeWord_wf {m : Memory} {a : Nat} (hm : Memory.wf m = true) (ha : a + 3 < memBytes) (v : Word) :
    Memory.wf (Memory.writeWord m a v) = true :=
  write_wf (write_wf (write_wf (write_wf hm (by omega) _) (by omega) _) (by omega) _) ha _

/-- Writing a word leaves every byte outside it. -/
theorem read_writeWord_other (m : Memory) {a b : Nat} (v : Word) (h : b < a ∨ a + 4 ≤ b) :
    Memory.read (Memory.writeWord m a v) b = Memory.read m b := by
  unfold Memory.writeWord
  rw [read_write_other _ _ (by omega), read_write_other _ _ (by omega), read_write_other _ _ (by omega),
    read_write_other _ _ (by omega)]

/-- The four bytes of a word just written, in canonical memory. -/
theorem read_writeWord {m : Memory} {a : Nat} (hm : Memory.wf m = true) (ha : a + 3 < memBytes) (v : Word) :
    Memory.read (Memory.writeWord m a v) a = v.extractLsb' 0 8 ∧
    Memory.read (Memory.writeWord m a v) (a + 1) = v.extractLsb' 8 8 ∧
    Memory.read (Memory.writeWord m a v) (a + 2) = v.extractLsb' 16 8 ∧
    Memory.read (Memory.writeWord m a v) (a + 3) = v.extractLsb' 24 8 := by
  have h1 := write_wf hm (show a < memBytes by omega) (v.extractLsb' 0 8)
  have h2 := write_wf h1 (show a + 1 < memBytes by omega) (v.extractLsb' 8 8)
  have h3 := write_wf h2 (show a + 2 < memBytes by omega) (v.extractLsb' 16 8)
  refine ⟨?_, ?_, ?_, read_write_same h3 _⟩
  · unfold Memory.writeWord
    rw [read_write_other _ _ (by omega), read_write_other _ _ (by omega), read_write_other _ _ (by omega)]
    exact read_write_same hm _
  · unfold Memory.writeWord
    rw [read_write_other _ _ (by omega), read_write_other _ _ (by omega)]
    exact read_write_same h1 _
  · unfold Memory.writeWord
    rw [read_write_other _ _ (by omega)]
    exact read_write_same h2 _

/-- A word taken apart into bytes and put together again. -/
theorem wordOfBytes_bytes (v : Word) :
    wordOfBytes (v.extractLsb' 0 8) (v.extractLsb' 8 8) (v.extractLsb' 16 8) (v.extractLsb' 24 8) = v := by
  unfold wordOfBytes
  ext i hi
  simp only [BitVec.getElem_append, BitVec.getElem_extractLsb']
  split
  · simp [BitVec.getLsbD_eq_getElem hi]
  · split
    · rw [show 8 + (i - 8) = i by omega, BitVec.getLsbD_eq_getElem hi]
    · split
      · rw [show 16 + (i - 8 - 8) = i by omega, BitVec.getLsbD_eq_getElem hi]
      · rw [show 24 + (i - 8 - 8 - 8) = i by omega, BitVec.getLsbD_eq_getElem hi]

/-- A word written reads back. -/
theorem readWord_writeWord {m : Memory} {a : Nat} (hm : Memory.wf m = true) (ha : a + 3 < memBytes) (v : Word) :
    Memory.readWord (Memory.writeWord m a v) a = v := by
  obtain ⟨h0, h1, h2, h3⟩ := read_writeWord hm ha v
  rw [Memory.readWord, h0, h1, h2, h3, wordOfBytes_bytes]

/-- A word that the written one does not overlap reads as before. -/
theorem readWord_writeWord_other (m : Memory) {a b : Nat} (v : Word) (h : b + 4 ≤ a ∨ a + 4 ≤ b) :
    Memory.readWord (Memory.writeWord m a v) b = Memory.readWord m b := by
  unfold Memory.readWord
  rw [read_writeWord_other _ _ (by omega), read_writeWord_other _ _ (by omega), read_writeWord_other _ _ (by omega),
    read_writeWord_other _ _ (by omega)]

/-- Words whose bytes agree are equal. -/
theorem readWord_congr {m n : Memory} {a : Nat} (h : ∀ b, a ≤ b → b < a + 4 → Memory.read m b = Memory.read n b) :
    Memory.readWord m a = Memory.readWord n a := by
  unfold Memory.readWord
  rw [h a (by omega) (by omega), h (a + 1) (by omega) (by omega), h (a + 2) (by omega) (by omega),
    h (a + 3) (by omega) (by omega)]

/-! ### The set `stored` -/

/-- What `stored ∪ {a}` holds (R40). -/
@[simp] theorem mem_storedInsert (l : List Nat) (a b : Nat) : b ∈ storedInsert l a ↔ b = a ∨ b ∈ l := by
  induction l with
  | nil => simp [storedInsert]
  | cons x rest ih =>
    unfold storedInsert
    split
    · simp
    · split
      · subst_vars; simp
      · simp only [List.mem_cons, ih]; tauto

/-- Inserting a word address keeps the canonical form above a bound. -/
theorem storedInsert_wfFrom {l : List Nat} {lo a : Nat} (h : storedWfFrom lo l = true) (hlo : lo ≤ a) (h4 : a % 4 = 0)
    (ha : a < memBytes) : storedWfFrom lo (storedInsert l a) = true := by
  induction l generalizing lo with
  | nil => simp [storedInsert, storedWfFrom, hlo, h4, ha]
  | cons x rest ih =>
    have hx := h
    simp only [storedWfFrom, Bool.and_eq_true, decide_eq_true_eq] at hx
    unfold storedInsert
    split
    · simp only [storedWfFrom, Bool.and_eq_true, decide_eq_true_eq]
      exact ⟨⟨⟨hlo, h4⟩, ha⟩, ⟨⟨by omega, hx.1.1.2⟩, hx.1.2⟩, hx.2⟩
    · split
      · exact h
      · simp only [storedWfFrom, Bool.and_eq_true, decide_eq_true_eq]
        exact ⟨hx.1, ih hx.2 (by omega)⟩

/-- Inserting a word address of memory keeps the canonical form of `stored` (R40). -/
theorem storedInsert_wf {l : List Nat} {a : Nat} (h : storedWf l = true) (h4 : a % 4 = 0) (ha : a < memBytes) :
    storedWf (storedInsert l a) = true := storedInsert_wfFrom h (Nat.zero_le a) h4 ha

/-! ### Addresses -/

/-- `addr[1:0] != 00`, on numbers (20_memory.md R55). -/
theorem misaligned_false_iff (addr : Word) : misaligned addr = false ↔ addr.toNat % 4 = 0 := by
  unfold misaligned
  rw [bne_eq_false_iff_eq, ← BitVec.toNat_inj]
  simp [BitVec.extractLsb'_toNat]

/-- The range check, on numbers (20_memory.md R51, R56). -/
theorem outOfRange_false_iff (addr : Word) : outOfRange addr = false ↔ addr.toNat < memBytes := by
  simp only [outOfRange, decide_eq_false_iff_not, memBytes]; omega

/-- An aligned address within memory is that of a whole word of it (20_memory.md R56). -/
theorem whole_word {addr : Word} (h4 : misaligned addr = false) (hr : outOfRange addr = false) :
    addr.toNat + 3 < memBytes := by
  rw [misaligned_false_iff] at h4; rw [outOfRange_false_iff] at hr; simp only [memBytes] at *; omega

/-- A store that raised no fault keeps memory and `stored` in their canonical form. -/
theorem storeWord_wf {s : State} {addr : Word} (v : Word) (h4 : misaligned addr = false) (hr : outOfRange addr = false)
    (hm : Memory.wf s.mem = true) (hs : storedWf s.stored = true) :
    Memory.wf (s.storeWord addr v).mem = true ∧ storedWf (s.storeWord addr v).stored = true :=
  ⟨writeWord_wf hm (whole_word h4 hr) v,
    storedInsert_wf hs ((misaligned_false_iff addr).1 h4) ((outOfRange_false_iff addr).1 hr)⟩

end Sys2Proof.Machine
end

