-- ==== Sys2Proof/Laws/Registers.lean ====
section
/-! SUPPORT. Reading an x register after each update (10_state.md R20, R21). -/

namespace Sys2Proof.Machine

/-- x0 reads 0 (R21). -/
@[simp] theorem getX_zero (s : State) : s.getX 0#5 = 0#32 := by simp [State.getX]

/-- A write to x0 is discarded (R21). -/
@[simp] theorem writeReg_zero (regs : Vector Word 31) (v : Word) : writeReg regs 0#5 v = regs := by simp [writeReg]

/-- A register reads as its storage says. -/
theorem getX_congr {s t : State} (h : t.regs = s.regs) (r : RegIdx) : t.getX r = s.getX r := by
  unfold State.getX; split
  · rfl
  · simp only [h]

/-- Two register numbers other than 0 have different places. -/
theorem place_ne {r q : RegIdx} (hr : r ≠ 0#5) (hq : q ≠ 0#5) (h : q ≠ r) : q.toNat - 1 ≠ r.toNat - 1 := by
  have h1 : r.toNat ≠ 0 := fun e => hr (BitVec.eq_of_toNat_eq (by simpa using e))
  have h2 : q.toNat ≠ 0 := fun e => hq (BitVec.eq_of_toNat_eq (by simpa using e))
  have h3 : r.toNat ≠ q.toNat := fun e => h (BitVec.eq_of_toNat_eq e.symm)
  omega

/-- Every register after a write of one (R21). -/
theorem getX_setX (s : State) (rd r : RegIdx) (v : Word) :
    (s.setX rd v).getX r = if r = 0#5 then 0#32 else if r = rd then v else s.getX r := by
  unfold State.getX
  by_cases hr : r = 0#5
  · simp [hr]
  · simp only [hr, if_false, setX_regs]
    by_cases hd : r = rd
    · subst hd; simp [writeReg, hr]
    · by_cases h0 : rd = 0#5
      · simp [h0, writeReg, hr]
      · simp only [writeReg, h0, if_false, hd]
        exact Vector.getElem_set_ne _ _ (place_ne hr h0 (Ne.symm hd))

@[simp] theorem getX_setPc (s : State) (t : Word) (r : RegIdx) : (s.setPc t).getX r = s.getX r := rfl
@[simp] theorem getX_advance (s : State) (r : RegIdx) : s.advance.getX r = s.getX r := rfl
@[simp] theorem getX_storeWord (s : State) (a v : Word) (r : RegIdx) : (s.storeWord a v).getX r = s.getX r := rfl
@[simp] theorem getX_sendWord (s : State) (v : Word) (r : RegIdx) : (s.sendWord v).getX r = s.getX r := rfl
@[simp] theorem getX_setMngr2procQ (s : State) (q : List Word) (r : RegIdx) : (s.setMngr2procQ q).getX r = s.getX r := rfl
@[simp] theorem getX_setStatsEn (s : State) (v : Word) (r : RegIdx) : (s.setStatsEn v).getX r = s.getX r := rfl
@[simp] theorem getX_setAgenda (s : State) (l : List Turn) (r : RegIdx) : (s.setAgenda l).getX r = s.getX r := rfl
@[simp] theorem getX_onVersion (s : State) (v : IsaVersion) (r : RegIdx) : (s.onVersion v).getX r = s.getX r := rfl
@[simp] theorem getX_managerDequeue (s : State) (r : RegIdx) : (managerDequeue s).getX r = s.getX r := rfl
@[simp] theorem getX_managerEnqueue (s : State) (w : Word) (r : RegIdx) : (managerEnqueue w s).getX r = s.getX r :=
  getX_congr (managerEnqueue_regs s w) r

/-- What `writeBack` leaves: the written register, `pc + 4`, and everything else as it was. -/
theorem onlyWrites_setX_advance (s : State) (rd : RegIdx) (v : Word) : onlyWrites s (s.setX rd v).advance rd v :=
  ⟨fun r => by rw [getX_advance, getX_setX], rfl, ⟨fun _ => rfl, rfl⟩, rfl, ⟨rfl, rfl, rfl⟩, rfl, rfl⟩

/-- What setting `pc` leaves: everything else as it was. -/
theorem onlySetsPc_setPc (s : State) (t : Word) : onlySetsPc s (s.setPc t) t :=
  ⟨fun _ => rfl, rfl, ⟨fun _ => rfl, rfl⟩, rfl, ⟨rfl, rfl, rfl⟩, rfl, rfl⟩

/-- The one thing a register-register instruction can do. -/
theorem regReg_next (f : Word → Word → Word) (rd rs1 rs2 : RegIdx) (s : State) :
    ∃ t, regReg f rd rs1 rs2 s = .next t ∧ onlyWrites s t rd (f (s.getX rs1) (s.getX rs2)) :=
  ⟨_, rfl, onlyWrites_setX_advance s rd _⟩

/-- The one thing a register-immediate instruction can do. -/
theorem regImm_next (f : Word → Word → Word) (rd rs1 : RegIdx) (imm : BitVec 12) (s : State) :
    ∃ t, regImm f rd rs1 imm s = .next t ∧ onlyWrites s t rd (f (s.getX rs1) (imm12 imm)) :=
  ⟨_, rfl, onlyWrites_setX_advance s rd _⟩

/-- The one thing a shift by a constant can do. -/
theorem shiftImm_next (f : Word → BitVec 5 → Word) (rd rs1 : RegIdx) (shamt : BitVec 5) (s : State) :
    ∃ t, shiftImm f rd rs1 shamt s = .next t ∧ onlyWrites s t rd (f (s.getX rs1) shamt) :=
  ⟨_, rfl, onlyWrites_setX_advance s rd _⟩

/-- The one thing `branchIf` can do. -/
theorem branchIf_next (c : Bool) (offset : BitVec 13) (s : State) :
    ∃ t, branchIf c offset s = .next t ∧ onlySetsPc s t (if c then s.pc + immB offset else s.nextPc) :=
  ⟨_, rfl, onlySetsPc_setPc s _⟩

end Sys2Proof.Machine
end

