-- ==== Sys2Proof/Laws/Ops.lean ====
section
/-! SUPPORT. What each shared operation can do, said once: later proofs cite these and do not unfold the operations. -/

namespace Sys2Proof.Machine

/-! ### Accesses -/

/-- What an access followed by its continuation can answer with a next state (00_scope.md R11, R14). -/
theorem accessThen_next {α : Type} {a : Access α} {s t : State} {k : α → State → StepResult} :
    accessThen a s k = .next t ↔ (∃ v u, a = .done v u ∧ k v u = .next t) ∨ (a = .stall ∧ t = s) := by
  cases a with
  | done v u => simp [accessThen]
  | stall => simp [accessThen, stallStep, eq_comm]
  | fault f => simp [accessThen, raiseFault]

/-- What an access followed by its continuation can fault with. -/
theorem accessThen_fault {α : Type} {a : Access α} {s : State} {f : Fault} {k : α → State → StepResult} :
    accessThen a s k = .fault f ↔ (∃ v u, a = .done v u ∧ k v u = .fault f) ∨ a = .fault f := by
  cases a with
  | done v u => simp [accessThen]
  | stall => simp [accessThen, stallStep]
  | fault g => simp [accessThen, raiseFault]

/-- An access is refused only by its continuation. -/
theorem accessThen_refused {α : Type} {a : Access α} {s : State} {r : Refusal} {k : α → State → StepResult} :
    accessThen a s k = .refused r ↔ ∃ v u, a = .done v u ∧ k v u = .refused r := by
  cases a with
  | done v u => simp [accessThen]
  | stall => simp [accessThen, stallStep]
  | fault g => simp [accessThen, raiseFault]

/-- When a read of memory completes, and with what (20_memory.md R53). -/
theorem memRead_done {addr v : Word} {s t : State} : memRead addr s = .done v t ↔
    misaligned addr = false ∧ outOfRange addr = false ∧ v = Memory.readWord s.mem addr.toNat ∧ t = s := by
  unfold memRead
  cases misaligned addr <;> cases outOfRange addr <;> simp [eq_comm]

/-- A read of memory never stalls. -/
theorem memRead_ne_stall (addr : Word) (s : State) : memRead addr s ≠ .stall := by
  unfold memRead
  cases misaligned addr <;> cases outOfRange addr <;> simp

/-- When a read of memory faults, and how (20_memory.md R53, R55, R56). -/
theorem memRead_fault {addr : Word} {s : State} {f : Fault} : memRead addr s = .fault f ↔
    (misaligned addr = true ∧ f = .loadMisaligned addr) ∨
    (misaligned addr = false ∧ outOfRange addr = true ∧ f = .loadOutOfRange addr) := by
  unfold memRead
  cases misaligned addr <;> cases outOfRange addr <;> simp [eq_comm]

/-- When a write of memory completes, and with what (20_memory.md R54). -/
theorem memWrite_done {addr v : Word} {s t : State} : memWrite addr v s = .done () t ↔
    misaligned addr = false ∧ outOfRange addr = false ∧ t = s.storeWord addr v := by
  unfold memWrite
  cases misaligned addr <;> cases outOfRange addr <;> simp [eq_comm]

/-- A write of memory never stalls. -/
theorem memWrite_ne_stall (addr v : Word) (s : State) : memWrite addr v s ≠ .stall := by
  unfold memWrite
  cases misaligned addr <;> cases outOfRange addr <;> simp

/-- When a write of memory faults, and how (20_memory.md R54, R55, R56). -/
theorem memWrite_fault {addr v : Word} {s : State} {f : Fault} : memWrite addr v s = .fault f ↔
    (misaligned addr = true ∧ f = .storeMisaligned addr) ∨
    (misaligned addr = false ∧ outOfRange addr = true ∧ f = .storeOutOfRange addr) := by
  unfold memWrite
  cases misaligned addr <;> cases outOfRange addr <;> simp [eq_comm]

/-- When a fetch succeeds, and with what (20_memory.md R58, R59). -/
theorem fetch_ok {s : State} {w : Word} : fetch s = .ok w ↔
    misaligned s.pc = false ∧ outOfRange s.pc = false ∧ s.pc.toNat ∉ s.stored ∧
      w = Memory.readWord s.mem s.pc.toNat := by
  unfold fetch
  cases misaligned s.pc <;> cases outOfRange s.pc <;> by_cases h : s.pc.toNat ∈ s.stored <;> simp [h, eq_comm]

/-- When a fetch faults, and how (20_memory.md R59). -/
theorem fetch_error {s : State} {f : Fault} : fetch s = .error f ↔
    (misaligned s.pc = true ∧ f = .fetchMisaligned s.pc) ∨
    (misaligned s.pc = false ∧ outOfRange s.pc = true ∧ f = .fetchOutOfRange s.pc) ∨
    (misaligned s.pc = false ∧ outOfRange s.pc = false ∧ s.pc.toNat ∈ s.stored ∧ f = .fetchAfterStore s.pc) := by
  unfold fetch
  cases misaligned s.pc <;> cases outOfRange s.pc <;> by_cases h : s.pc.toNat ∈ s.stored <;> simp [h, eq_comm]

/-! ### CSRs -/

/-- What reading a CSR can complete with (10_state.md R29 to R37). -/
theorem csrRead_done {n : CsrNum} {v : Word} {s t : State} (h : csrRead n s = .done v t) :
    (n = csrMngr2proc ∧ ∃ rest, s.mngr2procQ = v :: rest ∧ t = s.setMngr2procQ rest) ∨
    (n = csrCoreid ∧ v = s.cfg.coreId ∧ t = s) ∨ (n = csrNumcores ∧ v = s.cfg.numCores ∧ t = s) ∨
    (n = csrStatsEn ∧ v = s.statsEn ∧ t = s) := by
  unfold csrRead at h
  split at h
  · cases h
  · split at h
    · unfold readMngr2proc at h
      split at h
      · cases h
      · cases h; exact .inl ⟨by assumption, _, by assumption, rfl⟩
    · split at h
      · cases h; exact .inr (.inl ⟨by assumption, rfl, rfl⟩)
      · split at h
        · cases h; exact .inr (.inr (.inl ⟨by assumption, rfl, rfl⟩))
        · split at h
          · cases h; exact .inr (.inr (.inr ⟨by assumption, rfl, rfl⟩))
          · cases h

/-- Reading a CSR stalls only on an empty `mngr2proc` (10_state.md R31, 60_exceptions.md R213). -/
theorem csrRead_stall {n : CsrNum} {s : State} : csrRead n s = .stall ↔ n = csrMngr2proc ∧ s.mngr2procQ = [] := by
  unfold csrRead
  split
  · subst_vars; simp [csrProc2mngr, csrMngr2proc]
  · split
    · subst_vars
      unfold readMngr2proc
      cases s.mngr2procQ <;> simp
    · split
      · subst_vars; simp [csrCoreid, csrMngr2proc]
      · split
        · subst_vars; simp [csrNumcores, csrMngr2proc]
        · split
          · subst_vars; simp [csrStatsEn, csrMngr2proc]
          · simp [*]

/-- What writing a CSR can complete with (10_state.md R29 to R37). -/
theorem csrWrite_done {n : CsrNum} {v : Word} {s t : State} (h : csrWrite n v s = .done () t) :
    (n = csrProc2mngr ∧ fifoReady s.proc2mngrQ s.cfg.proc2mngrDepth = true ∧ t = s.sendWord v) ∨
    (n = csrStatsEn ∧ t = s.setStatsEn v) := by
  unfold csrWrite at h
  split at h
  · unfold writeProc2mngr at h
    split at h
    · cases h; exact .inl ⟨by assumption, by assumption, rfl⟩
    · cases h
  · split at h
    · cases h
    · split at h
      · cases h
      · split at h
        · cases h
        · split at h
          · cases h; exact .inr ⟨by assumption, rfl⟩
          · cases h

/-- Writing a CSR stalls only on a `proc2mngr` that is not ready (10_state.md R30, 60_exceptions.md R213). -/
theorem csrWrite_stall {n : CsrNum} {v : Word} {s : State} :
    csrWrite n v s = .stall ↔ n = csrProc2mngr ∧ fifoReady s.proc2mngrQ s.cfg.proc2mngrDepth = false := by
  unfold csrWrite
  split
  · subst_vars
    unfold writeProc2mngr
    cases fifoReady s.proc2mngrQ s.cfg.proc2mngrDepth <;> simp
  · split
    · subst_vars; simp [csrProc2mngr, csrMngr2proc]
    · split
      · subst_vars; simp [csrCoreid, csrProc2mngr]
      · split
        · subst_vars; simp [csrNumcores, csrProc2mngr]
        · split
          · subst_vars; simp [csrStatsEn, csrProc2mngr]
          · simp [*]

/-! ### Even values of `pc` -/

/-- A sum of two even values is even. -/
theorem even_add {a b : Word} (ha : a.getLsbD 0 = false) (hb : b.getLsbD 0 = false) : (a + b).getLsbD 0 = false := by
  rw [BitVec.getLsbD_add (by decide), ha, hb]
  simp [BitVec.carry, Nat.mod_one]

/-- Sign extension keeps an even offset even. -/
theorem even_signExtend {n : Nat} (hn : 0 < n) {offset : BitVec n} (h : evenOffset offset = true) :
    (offset.signExtend 32).getLsbD 0 = false := by
  rw [BitVec.getLsbD_signExtend]
  simpa [evenOffset, hn] using h

/-- `pc + 4` of an even `pc` is even (10_state.md R26). -/
theorem even_nextPc {s : State} (h : s.pc.getLsbD 0 = false) : s.nextPc.getLsbD 0 = false := even_add h (by decide)

/-- Clearing bit 0 clears bit 0 (44_jump_instructions.md R182). -/
theorem even_clearBit0 (t : Word) : (clearBit0 t).getLsbD 0 = false := by
  unfold clearBit0
  rw [BitVec.getLsbD_and]
  simp

/-! ### Everything an instruction can do -/

/-- The ways one instruction can answer with a next state, each with its form. -/
inductive Effect (i : Instr) (s : State) : State → Prop where
  /-- Write a register and go on at `pc + 4`. -/
  | write (rd : RegIdx) (v : Word) (hd : destination i = some rd) (hp : setsPc i = false) :
      Effect i s (s.setX rd v).advance
  /-- CSRR of `mngr2proc`: take the head word (10_state.md R31). -/
  | receive (rd : RegIdx) (w : Word) (rest : List Word) (hi : i = .csrr rd csrMngr2proc) (hq : s.mngr2procQ = w :: rest) :
      Effect i s ((s.setMngr2procQ rest).setX rd w).advance
  /-- CSRW of `proc2mngr`: append a word (10_state.md R30). -/
  | send (rs1 : RegIdx) (hi : i = .csrw csrProc2mngr rs1)
      (hr : fifoReady s.proc2mngrQ s.cfg.proc2mngrDepth = true) : Effect i s (s.sendWord (s.getX rs1)).advance
  /-- CSRW of `stats_en` (10_state.md R36). -/
  | stats (rs1 : RegIdx) (hi : i = .csrw csrStatsEn rs1) : Effect i s (s.setStatsEn (s.getX rs1)).advance
  /-- SW (43_memory_instructions.md R171). -/
  | store (rs2 : RegIdx) (imm : BitVec 12) (rs1 : RegIdx) (hi : i = .sw rs2 imm rs1)
      (h4 : misaligned (effectiveAddress s rs1 imm) = false) (hr : outOfRange (effectiveAddress s rs1 imm) = false) :
      Effect i s (s.storeWord (effectiveAddress s rs1 imm) (s.getX rs2)).advance
  /-- JAL and JALR: link and jump, to an even target where the operands and `pc` are even. -/
  | link (rd : RegIdx) (target : Word) (hd : destination i = some rd) (hp : setsPc i = true)
      (he : i.wf = true → s.pc.getLsbD 0 = false → target.getLsbD 0 = false) :
      Effect i s ((s.setX rd s.nextPc).setPc target)
  /-- JR and the branches: set `pc` alone. -/
  | goto (target : Word) (hd : destination i = none) (hp : setsPc i = true)
      (he : i.wf = true → s.pc.getLsbD 0 = false → target.getLsbD 0 = false) : Effect i s (s.setPc target)
  /-- A stall: nothing changes (00_scope.md R14). -/
  | wait (hw : waits i s = true) : Effect i s s

/-- A branch sets `pc` alone. -/
theorem effect_branch {i : Instr} {s t : State} {c : Bool} {offset : BitVec 13} (h : branchIf c offset s = .next t)
    (hd : destination i = none) (hp : setsPc i = true) (hw : i.wf = evenOffset offset) : Effect i s t := by
  cases h
  refine .goto _ hd hp fun hwf hpc => ?_
  split
  · exact even_add hpc (even_signExtend (by decide) (hw ▸ hwf))
  · exact even_nextPc hpc

/-- What `exec` can answer with a next state: one of the effects, for every instruction. -/
theorem exec_next {i : Instr} {s t : State} (h : exec i s = .next t) : Effect i s t := by
  cases i
  case csrr rd csr =>
    obtain ⟨v, u, hc, hk⟩ | ⟨hc, rfl⟩ := accessThen_next.1 h
    · cases hk
      obtain ⟨rfl, rest, hq, rfl⟩ | ⟨-, -, rfl⟩ | ⟨-, -, rfl⟩ | ⟨-, -, rfl⟩ := csrRead_done hc
      · exact .receive rd v rest rfl hq
      all_goals exact .write rd v rfl rfl
    · obtain ⟨rfl, hq⟩ := csrRead_stall.1 hc
      exact .wait (by simp [waits, hq])
  case csrw csr rs1 =>
    obtain ⟨v, u, hc, hk⟩ | ⟨hc, rfl⟩ := accessThen_next.1 h
    · cases hk
      obtain ⟨rfl, hr, rfl⟩ | ⟨rfl, rfl⟩ := csrWrite_done hc
      · exact .send rs1 rfl hr
      · exact .stats rs1 rfl
    · obtain ⟨rfl, hr⟩ := csrWrite_stall.1 hc
      exact .wait (by simp [waits, hr])
  case lw rd imm rs1 =>
    obtain ⟨v, u, hc, hk⟩ | ⟨hc, -⟩ := accessThen_next.1 h
    · cases hk
      obtain ⟨-, -, -, rfl⟩ := memRead_done.1 hc
      exact .write rd v rfl rfl
    · exact absurd hc (memRead_ne_stall _ _)
  case sw rs2 imm rs1 =>
    obtain ⟨v, u, hc, hk⟩ | ⟨hc, -⟩ := accessThen_next.1 h
    · cases hk
      obtain ⟨h4, hr, rfl⟩ := memWrite_done.1 hc
      exact .store rs2 imm rs1 rfl h4 hr
    · exact absurd hc (memWrite_ne_stall _ _ _)
  case jal rd offset =>
    cases h
    exact .link rd _ rfl rfl fun hw hpc => even_add hpc (even_signExtend (by decide) hw)
  case jalr rd rs1 imm =>
    cases h
    exact .link rd _ rfl rfl fun _ _ => even_clearBit0 _
  case jr rs1 =>
    change execJr rs1 s = .next t at h
    unfold execJr at h
    split at h
    · split at h
      · cases h
      · cases h
        exact .goto _ rfl rfl fun _ _ => by simp_all
    · cases h
      exact .goto _ rfl rfl fun _ _ => even_clearBit0 _
  case beq => exact effect_branch h rfl rfl rfl
  case bne => exact effect_branch h rfl rfl rfl
  case blt => exact effect_branch h rfl rfl rfl
  case bge => exact effect_branch h rfl rfl rfl
  case bltu => exact effect_branch h rfl rfl rfl
  case bgeu => exact effect_branch h rfl rfl rfl
  all_goals cases h; exact .write _ _ rfl rfl

/-! ### Everything a step can do -/

/-- What a processor step can answer with a next state (00_scope.md R11). -/
theorem processorStep_next {s t : State} (h : processorStep s = .next t) :
    ∃ w i, fetch s = .ok w ∧ decode s.cfg.isaVersion w = .ok i ∧ exec i s = .next t := by
  unfold processorStep at h
  split at h
  · cases h
  · split at h
    · cases h
    · exact ⟨_, _, by assumption, by assumption, h⟩

/-- The step, by whether the run is over. -/
theorem step_eq (s : State) : step s = if runEnded s then .next s else takeTurn s := rfl

/-- What a step can answer with a next state: nothing at the end of a run, one of the manager's steps, or a processor step
(70_reset_and_hazards.md R252, 60_exceptions.md R226). -/
theorem step_next {s t : State} (h : step s = .next t) :
    (runEnded s = true ∧ t = s) ∨
    (runEnded s = false ∧
      ((∃ w rest, s.agenda = .enqueue w :: rest ∧ t = managerEnqueue w (s.setAgenda rest)) ∨
       (∃ rest, s.agenda = .dequeue :: rest ∧ t = managerDequeue (s.setAgenda rest)) ∨
       (∃ rest, processorsTurn s rest ∧ processorStep (s.setAgenda rest) = .next t))) := by
  rw [step_eq] at h
  split at h
  · cases h; exact .inl ⟨by assumption, rfl⟩
  · refine .inr ⟨by simp_all, ?_⟩
    unfold takeTurn at h
    split at h
    · rename_i ha
      refine .inr (.inr ⟨[], .inl ⟨ha, rfl⟩, ?_⟩)
      rw [show s.setAgenda [] = s by cases s; subst ha; rfl]
      exact h
    · exact .inr (.inr ⟨_, .inr (by assumption), h⟩)
    · cases h; exact .inl ⟨_, _, by assumption, rfl⟩
    · cases h; exact .inr (.inl ⟨_, by assumption, rfl⟩)

/-! ### What a step reads: fetch, the next instruction and the end of a run -/

/-- A fetch reads `pc`, memory and `stored` alone (20_memory.md R58, R59). -/
theorem fetch_congr {s t : State} (hpc : t.pc = s.pc) (hmem : t.mem = s.mem) (hstored : t.stored = s.stored) :
    fetch t = fetch s := by
  unfold fetch; rw [hpc, hmem, hstored]

/-- The next instruction depends on what a fetch reads and on the version alone. -/
theorem nextInstr_congr {s t : State} (hpc : t.pc = s.pc) (hmem : t.mem = s.mem) (hstored : t.stored = s.stored)
    (hcfg : t.cfg = s.cfg) : nextInstr t = nextInstr s := by
  unfold nextInstr; rw [fetch_congr hpc hmem hstored, hcfg]

/-- Whether a run is over depends on the spec's state and the configuration alone, not on the turns to come
(70_reset_and_hazards.md R252). -/
theorem runEndedUnder_congr {p : Snapshot → Bool} {s t : State} (hstate : t.snapshot = s.snapshot) (hcfg : t.cfg = s.cfg) :
    runEndedUnder p t = runEndedUnder p s := by
  have hpc := congrArg Snapshot.pc hstate
  have hsent := congrArg Snapshot.sent hstate
  have hfetch := fetch_congr hpc (congrArg Snapshot.mem hstate) (congrArg Snapshot.stored hstate)
  simp only [snapshot_pc, snapshot_sent] at hpc hsent
  unfold runEndedUnder; rw [hfetch, hpc, hsent, hcfg, hstate]

/-- Where the end of a run is not the user's predicate, it depends on what a fetch reads, on the words sent and on the
configuration alone; so no turn of the manager ends such a run (70_reset_and_hazards.md R252). -/
theorem runEndedUnder_congr_of_ne {p : Snapshot → Bool} {s t : State} (hne : s.cfg.endOfRun ≠ .predicate) (hpc : t.pc = s.pc)
    (hmem : t.mem = s.mem) (hstored : t.stored = s.stored) (hsent : t.sent = s.sent) (hcfg : t.cfg = s.cfg) :
    runEndedUnder p t = runEndedUnder p s := by
  unfold runEndedUnder; rw [fetch_congr hpc hmem hstored, hpc, hsent, hcfg]
  cases h : s.cfg.endOfRun <;> first | rfl | exact absurd h hne

/-- A processor step performs the next instruction, where there is one (00_scope.md R11). -/
theorem processorStep_of_nextInstr {s : State} {i : Instr} (h : nextInstr s = some i) : processorStep s = exec i s := by
  unfold nextInstr at h
  unfold processorStep
  split at h
  · cases h
  · split at h
    · cases h
    · cases h; simp [*]

/-- The step at a turn of the processor performs the next instruction in the state with the turn used up. -/
theorem stepUnder_of_nextInstr {p : Snapshot → Bool} {s : State} {rest : List Turn} {i : Instr}
    (hend : runEndedUnder p s = false) (hagenda : s.agenda = .processor :: rest) (h : nextInstr s = some i) :
    stepUnder p s = exec i (s.setAgenda rest) := by
  have hi : nextInstr (s.setAgenda rest) = some i := by rw [← h]; exact nextInstr_congr rfl rfl rfl rfl
  unfold stepUnder takeTurn
  simp [hend, hagenda, processorStep_of_nextInstr hi]

/-- The step at an `enqueue` turn is the manager's (60_exceptions.md R226). -/
theorem stepUnder_enqueue {p : Snapshot → Bool} {s : State} {w : Word} {rest : List Turn} (hend : runEndedUnder p s = false)
    (hagenda : s.agenda = .enqueue w :: rest) : stepUnder p s = .next (managerEnqueue w (s.setAgenda rest)) := by
  unfold stepUnder takeTurn; simp [hend, hagenda]

/-- The step at a `dequeue` turn is the manager's (60_exceptions.md R226). -/
theorem stepUnder_dequeue {p : Snapshot → Bool} {s : State} {rest : List Turn} (hend : runEndedUnder p s = false)
    (hagenda : s.agenda = .dequeue :: rest) : stepUnder p s = .next (managerDequeue (s.setAgenda rest)) := by
  unfold stepUnder takeTurn; simp [hend, hagenda]

/-! ### Runs -/

/-- A final state repeats itself (70_reset_and_hazards.md R252). -/
theorem stepUnder_of_ended {p : Snapshot → Bool} {s : State} (h : runEndedUnder p s = true) : stepUnder p s = .next s := by
  unfold stepUnder; rw [if_pos h]

/-- A run of some steps goes on from the next state of its first step. -/
theorem runStepsUnder_succ {p : Snapshot → Bool} {k : Nat} {s u : State} :
    runStepsUnder p (k + 1) s = .next u ↔ ∃ t, stepUnder p s = .next t ∧ runStepsUnder p k t = .next u := by
  rw [runStepsUnder]
  cases stepUnder p s <;> simp

/-- The same of `step` and `runSteps`. -/
theorem runSteps_succ {k : Nat} {s u : State} :
    runSteps (k + 1) s = .next u ↔ ∃ t, step s = .next t ∧ runSteps k t = .next u := runStepsUnder_succ

end Sys2Proof.Machine
end

