-- ==== Sys2Proof/Laws/PerInstr.lean ====
section
/-! SUPPORT. Facts about every instruction as syntax, one lemma per constructor. -/

namespace Sys2Proof.Laws.FixedBits

/-- The word of the instruction holds the fixed bits of its own row of the opcode table, and the versions that have the
instruction are those of the row (30_encoding.md R94). -/
def Statement (i : Instr) : Prop :=
  ∃ r ∈ opcodeTable, r.mnemonic = i.mnemonic ∧ encode i &&& r.mask = r.pattern ∧ ∀ v, r.inVersion v = i.inVersion v

/-- The word of an S-type instruction under the mask of `funct3` and the opcode. -/
theorem wordS_masked (imm : BitVec 12) (rs2 rs1 : RegIdx) (funct3 : BitVec 3) (opcode : BitVec 7) :
    wordS imm rs2 rs1 funct3 opcode &&& 0x0000707F#32 = wordI 0#12 0#5 funct3 0#5 opcode := by
  rw [masked_I, fieldFunct3_wordS, fieldOpcode_wordS]

/-- The word of a branch under the mask of `funct3` and the opcode. -/
theorem wordB_masked (offset : BitVec 13) (rs2 rs1 : RegIdx) (funct3 : BitVec 3) (opcode : BitVec 7) :
    wordB offset rs2 rs1 funct3 opcode &&& 0x0000707F#32 = wordI 0#12 0#5 funct3 0#5 opcode := by
  rw [masked_I, fieldFunct3_wordB, fieldOpcode_wordB]

/-- The word of JAL under the mask of the opcode. -/
theorem wordJ_masked (offset : BitVec 21) (rd : RegIdx) (opcode : BitVec 7) :
    wordJ offset rd opcode &&& 0x0000007F#32 = wordU 0#20 0#5 opcode := by
  rw [masked_U, fieldOpcode_wordJ]

theorem csrr (rd : RegIdx) (csr : CsrNum) : Statement (.csrr rd csr) :=
  ⟨⟨"CSRR", false, true, 0x00002073#32, 0x000FF07F#32⟩, by decide, rfl,
    (wordI_masked_csrr _ _ _ _ _).trans (by decide), fun v => by cases v <;> rfl⟩

theorem csrw (csr : CsrNum) (rs1 : RegIdx) : Statement (.csrw csr rs1) :=
  ⟨⟨"CSRW", false, true, 0x00001073#32, 0x00007FFF#32⟩, by decide, rfl,
    (wordI_masked_csrw _ _ _ _ _).trans (by decide), fun v => by cases v <;> rfl⟩

theorem add (rd rs1 rs2 : RegIdx) : Statement (.add rd rs1 rs2) :=
  ⟨⟨"ADD", true, true, 0x00000033#32, 0xFE00707F#32⟩, by decide, rfl,
    (wordR_masked _ _ _ _ _ _).trans (by decide), fun v => by cases v <;> rfl⟩

theorem sub (rd rs1 rs2 : RegIdx) : Statement (.sub rd rs1 rs2) :=
  ⟨⟨"SUB", false, true, 0x40000033#32, 0xFE00707F#32⟩, by decide, rfl,
    (wordR_masked _ _ _ _ _ _).trans (by decide), fun v => by cases v <;> rfl⟩

theorem and (rd rs1 rs2 : RegIdx) : Statement (.and rd rs1 rs2) :=
  ⟨⟨"AND", false, true, 0x00007033#32, 0xFE00707F#32⟩, by decide, rfl,
    (wordR_masked _ _ _ _ _ _).trans (by decide), fun v => by cases v <;> rfl⟩

theorem or (rd rs1 rs2 : RegIdx) : Statement (.or rd rs1 rs2) :=
  ⟨⟨"OR", false, true, 0x00006033#32, 0xFE00707F#32⟩, by decide, rfl,
    (wordR_masked _ _ _ _ _ _).trans (by decide), fun v => by cases v <;> rfl⟩

theorem xor (rd rs1 rs2 : RegIdx) : Statement (.xor rd rs1 rs2) :=
  ⟨⟨"XOR", false, true, 0x00004033#32, 0xFE00707F#32⟩, by decide, rfl,
    (wordR_masked _ _ _ _ _ _).trans (by decide), fun v => by cases v <;> rfl⟩

theorem slt (rd rs1 rs2 : RegIdx) : Statement (.slt rd rs1 rs2) :=
  ⟨⟨"SLT", false, true, 0x00002033#32, 0xFE00707F#32⟩, by decide, rfl,
    (wordR_masked _ _ _ _ _ _).trans (by decide), fun v => by cases v <;> rfl⟩

theorem sltu (rd rs1 rs2 : RegIdx) : Statement (.sltu rd rs1 rs2) :=
  ⟨⟨"SLTU", false, true, 0x00003033#32, 0xFE00707F#32⟩, by decide, rfl,
    (wordR_masked _ _ _ _ _ _).trans (by decide), fun v => by cases v <;> rfl⟩

theorem sra (rd rs1 rs2 : RegIdx) : Statement (.sra rd rs1 rs2) :=
  ⟨⟨"SRA", false, true, 0x40005033#32, 0xFE00707F#32⟩, by decide, rfl,
    (wordR_masked _ _ _ _ _ _).trans (by decide), fun v => by cases v <;> rfl⟩

theorem srl (rd rs1 rs2 : RegIdx) : Statement (.srl rd rs1 rs2) :=
  ⟨⟨"SRL", false, true, 0x00005033#32, 0xFE00707F#32⟩, by decide, rfl,
    (wordR_masked _ _ _ _ _ _).trans (by decide), fun v => by cases v <;> rfl⟩

theorem sll (rd rs1 rs2 : RegIdx) : Statement (.sll rd rs1 rs2) :=
  ⟨⟨"SLL", false, true, 0x00001033#32, 0xFE00707F#32⟩, by decide, rfl,
    (wordR_masked _ _ _ _ _ _).trans (by decide), fun v => by cases v <;> rfl⟩

theorem mul (rd rs1 rs2 : RegIdx) : Statement (.mul rd rs1 rs2) :=
  ⟨⟨"MUL", true, true, 0x02000033#32, 0xFE00707F#32⟩, by decide, rfl,
    (wordR_masked _ _ _ _ _ _).trans (by decide), fun v => by cases v <;> rfl⟩

theorem addi (rd rs1 : RegIdx) (imm : BitVec 12) : Statement (.addi rd rs1 imm) :=
  ⟨⟨"ADDI", true, true, 0x00000013#32, 0x0000707F#32⟩, by decide, rfl,
    (wordI_masked _ _ _ _ _).trans (by decide), fun v => by cases v <;> rfl⟩

theorem andi (rd rs1 : RegIdx) (imm : BitVec 12) : Statement (.andi rd rs1 imm) :=
  ⟨⟨"ANDI", false, true, 0x00007013#32, 0x0000707F#32⟩, by decide, rfl,
    (wordI_masked _ _ _ _ _).trans (by decide), fun v => by cases v <;> rfl⟩

theorem ori (rd rs1 : RegIdx) (imm : BitVec 12) : Statement (.ori rd rs1 imm) :=
  ⟨⟨"ORI", false, true, 0x00006013#32, 0x0000707F#32⟩, by decide, rfl,
    (wordI_masked _ _ _ _ _).trans (by decide), fun v => by cases v <;> rfl⟩

theorem xori (rd rs1 : RegIdx) (imm : BitVec 12) : Statement (.xori rd rs1 imm) :=
  ⟨⟨"XORI", false, true, 0x00004013#32, 0x0000707F#32⟩, by decide, rfl,
    (wordI_masked _ _ _ _ _).trans (by decide), fun v => by cases v <;> rfl⟩

theorem slti (rd rs1 : RegIdx) (imm : BitVec 12) : Statement (.slti rd rs1 imm) :=
  ⟨⟨"SLTI", false, true, 0x00002013#32, 0x0000707F#32⟩, by decide, rfl,
    (wordI_masked _ _ _ _ _).trans (by decide), fun v => by cases v <;> rfl⟩

theorem sltiu (rd rs1 : RegIdx) (imm : BitVec 12) : Statement (.sltiu rd rs1 imm) :=
  ⟨⟨"SLTIU", false, true, 0x00003013#32, 0x0000707F#32⟩, by decide, rfl,
    (wordI_masked _ _ _ _ _).trans (by decide), fun v => by cases v <;> rfl⟩

theorem srai (rd rs1 : RegIdx) (shamt : BitVec 5) : Statement (.srai rd rs1 shamt) :=
  ⟨⟨"SRAI", false, true, 0x40005013#32, 0xFE00707F#32⟩, by decide, rfl,
    (wordR_masked _ _ _ _ _ _).trans (by decide), fun v => by cases v <;> rfl⟩

theorem srli (rd rs1 : RegIdx) (shamt : BitVec 5) : Statement (.srli rd rs1 shamt) :=
  ⟨⟨"SRLI", false, true, 0x00005013#32, 0xFE00707F#32⟩, by decide, rfl,
    (wordR_masked _ _ _ _ _ _).trans (by decide), fun v => by cases v <;> rfl⟩

theorem slli (rd rs1 : RegIdx) (shamt : BitVec 5) : Statement (.slli rd rs1 shamt) :=
  ⟨⟨"SLLI", false, true, 0x00001013#32, 0xFE00707F#32⟩, by decide, rfl,
    (wordR_masked _ _ _ _ _ _).trans (by decide), fun v => by cases v <;> rfl⟩

theorem lui (rd : RegIdx) (imm : BitVec 20) : Statement (.lui rd imm) :=
  ⟨⟨"LUI", false, true, 0x00000037#32, 0x0000007F#32⟩, by decide, rfl,
    (wordU_masked _ _ _).trans (by decide), fun v => by cases v <;> rfl⟩

theorem auipc (rd : RegIdx) (imm : BitVec 20) : Statement (.auipc rd imm) :=
  ⟨⟨"AUIPC", false, true, 0x00000017#32, 0x0000007F#32⟩, by decide, rfl,
    (wordU_masked _ _ _).trans (by decide), fun v => by cases v <;> rfl⟩

theorem lw (rd : RegIdx) (imm : BitVec 12) (rs1 : RegIdx) : Statement (.lw rd imm rs1) :=
  ⟨⟨"LW", true, true, 0x00002003#32, 0x0000707F#32⟩, by decide, rfl,
    (wordI_masked _ _ _ _ _).trans (by decide), fun v => by cases v <;> rfl⟩

theorem sw (rs2 : RegIdx) (imm : BitVec 12) (rs1 : RegIdx) : Statement (.sw rs2 imm rs1) :=
  ⟨⟨"SW", true, true, 0x00002023#32, 0x0000707F#32⟩, by decide, rfl,
    (wordS_masked _ _ _ _ _).trans (by decide), fun v => by cases v <;> rfl⟩

theorem jal (rd : RegIdx) (offset : BitVec 21) : Statement (.jal rd offset) :=
  ⟨⟨"JAL", true, true, 0x0000006F#32, 0x0000007F#32⟩, by decide, rfl,
    (wordJ_masked _ _ _).trans (by decide), fun v => by cases v <;> rfl⟩

theorem jr (rs1 : RegIdx) : Statement (.jr rs1) :=
  ⟨⟨"JR", true, false, 0x00000067#32, 0xFFF07FFF#32⟩, by decide, rfl,
    (wordI_masked_jr _ _ _ _ _).trans (by decide), fun v => by cases v <;> rfl⟩

theorem jalr (rd rs1 : RegIdx) (imm : BitVec 12) : Statement (.jalr rd rs1 imm) :=
  ⟨⟨"JALR", false, true, 0x00000067#32, 0x0000707F#32⟩, by decide, rfl,
    (wordI_masked _ _ _ _ _).trans (by decide), fun v => by cases v <;> rfl⟩

theorem beq (rs1 rs2 : RegIdx) (offset : BitVec 13) : Statement (.beq rs1 rs2 offset) :=
  ⟨⟨"BEQ", false, true, 0x00000063#32, 0x0000707F#32⟩, by decide, rfl,
    (wordB_masked _ _ _ _ _).trans (by decide), fun v => by cases v <;> rfl⟩

theorem bne (rs1 rs2 : RegIdx) (offset : BitVec 13) : Statement (.bne rs1 rs2 offset) :=
  ⟨⟨"BNE", true, true, 0x00001063#32, 0x0000707F#32⟩, by decide, rfl,
    (wordB_masked _ _ _ _ _).trans (by decide), fun v => by cases v <;> rfl⟩

theorem blt (rs1 rs2 : RegIdx) (offset : BitVec 13) : Statement (.blt rs1 rs2 offset) :=
  ⟨⟨"BLT", false, true, 0x00004063#32, 0x0000707F#32⟩, by decide, rfl,
    (wordB_masked _ _ _ _ _).trans (by decide), fun v => by cases v <;> rfl⟩

theorem bge (rs1 rs2 : RegIdx) (offset : BitVec 13) : Statement (.bge rs1 rs2 offset) :=
  ⟨⟨"BGE", false, true, 0x00005063#32, 0x0000707F#32⟩, by decide, rfl,
    (wordB_masked _ _ _ _ _).trans (by decide), fun v => by cases v <;> rfl⟩

theorem bltu (rs1 rs2 : RegIdx) (offset : BitVec 13) : Statement (.bltu rs1 rs2 offset) :=
  ⟨⟨"BLTU", false, true, 0x00006063#32, 0x0000707F#32⟩, by decide, rfl,
    (wordB_masked _ _ _ _ _).trans (by decide), fun v => by cases v <;> rfl⟩

theorem bgeu (rs1 rs2 : RegIdx) (offset : BitVec 13) : Statement (.bgeu rs1 rs2 offset) :=
  ⟨⟨"BGEU", false, true, 0x00007063#32, 0x0000707F#32⟩, by decide, rfl,
    (wordB_masked _ _ _ _ _).trans (by decide), fun v => by cases v <;> rfl⟩

end Sys2Proof.Laws.FixedBits
end

