-- ==== Sys2Proof/Laws/Values.lean ====
section
/-! SUPPORT. The values of the operand forms as numbers (30_encoding.md R85 to R89; 41_reg_reg_arithmetic.md R130, R138;
44_jump_instructions.md R182), each said once. -/

namespace Sys2Proof.Machine

/-- A 12-bit immediate keeps its signed value (R85, R86). -/
theorem imm12_toInt (imm : BitVec 12) : (imm12 imm).toInt = imm.toInt := BitVec.toInt_signExtend_of_le (by decide)

/-- A branch offset keeps its signed value (R87). -/
theorem immB_toInt (offset : BitVec 13) : (immB offset).toInt = offset.toInt := BitVec.toInt_signExtend_of_le (by decide)

/-- A jump offset keeps its signed value (R89). -/
theorem immJ_toInt (offset : BitVec 21) : (immJ offset).toInt = offset.toInt := BitVec.toInt_signExtend_of_le (by decide)

/-- A U-immediate is its field times 4096 (R88). -/
theorem immU_toNat (imm : BitVec 20) : (immU imm).toNat = imm.toNat * 4096 := by
  unfold immU
  rw [BitVec.toNat_append]
  simp [Nat.shiftLeft_eq]

/-- A word read as unsigned is its signed value modulo 2^32. -/
theorem toNat_eq_toInt_emod (v : Word) : (v.toNat : Int) = v.toInt % 2 ^ 32 := by
  have h := BitVec.toInt_eq_toNat_cond v
  have hv := v.isLt
  split at h <;> omega

/-- A sum with a signed second term, modulo 2^32 (R130). -/
theorem toNat_add_signed (a b : Word) : ((a + b).toNat : Int) = (a.toNat + b.toInt) % 2 ^ 32 := by
  have h := BitVec.toInt_eq_toNat_cond b
  have hs := BitVec.toNat_add a b
  have ha := a.isLt
  have hb := b.isLt
  split at h <;> omega

/-- Only the bottom five bits of a register count as a shift amount (R138). -/
theorem shiftAmount_toNat (v : Word) : (shiftAmount v).toNat = v.toNat % 32 := by
  simp [shiftAmount, BitVec.extractLsb'_toNat]

/-- Clearing bit 0, by slices (R182). -/
theorem clearBit0_eq (t : Word) : clearBit0 t = t.extractLsb' 1 31 ++ 0#1 := by
  have ht : t = t.extractLsb' 1 31 ++ t.extractLsb' 0 1 := by
    rw [slice_join t (by decide)]
    exact BitVec.extractLsb'_eq_self.symm
  unfold clearBit0
  rw [show 0xFFFFFFFE#32 = BitVec.allOnes 31 ++ 0#1 by decide]
  conv_lhs => rw [ht]
  rw [BitVec.and_append]
  simp only [BitVec.and_allOnes, BitVec.and_zero]

/-- Clearing bit 0 rounds down to an even number (R182). -/
theorem clearBit0_toNat (t : Word) : (clearBit0 t).toNat = t.toNat / 2 * 2 := by
  rw [clearBit0_eq, BitVec.toNat_append, BitVec.extractLsb'_toNat]
  simp only [Nat.shiftRight_eq_div_pow, Nat.shiftLeft_eq, BitVec.toNat_ofNat, Nat.zero_mod, Nat.or_zero]
  have := t.isLt
  omega

/-- The alignment check, on numbers (20_memory.md R55). -/
theorem misaligned_true_iff (addr : Word) : misaligned addr = true ↔ addr.toNat % 4 ≠ 0 := by
  rw [← Bool.not_eq_false, misaligned_false_iff]

/-- The range check, on numbers (20_memory.md R51, R56). -/
theorem outOfRange_true_iff (addr : Word) : outOfRange addr = true ↔ 0x000fffff < addr.toNat := by
  simp [outOfRange]

end Sys2Proof.Machine
end

