-- ==== Sys2Proof/Tests/Slice0.lean ====
section
/-! SUPPORT. Tests. Every expected value comes from the spec: the words and results of spec/95_test_vectors.md (V<n>) and
the encodings of 30_encoding.md R94. The witnesses at the end show, for each statement that has hypotheses, a state and
operands that meet them all together, at boundary values. -/

namespace Sys2Proof.Tests

open Sys2Proof Sys2Proof.Machine

/-! ### Helpers -/

/-- A state about to run one word at an address. -/
def at_ (v : IsaVersion) (pc word : Word) : State :=
  { State.reset with pc := pc, mem := Memory.writeWord [] pc.toNat word, cfg := { Config.single with isaVersion := v } }

/-- A TinyRV2 state about to run one word at 0x00000200. -/
def run2 (word : Word) : State := at_ .tinyRV2 0x200#32 word

/-- A TinyRV1 state about to run one word at 0x00000200. -/
def run1 (word : Word) : State := at_ .tinyRV1 0x200#32 word

/-- Two registers set. -/
def with2 (s : State) (a : RegIdx) (x : Word) (b : RegIdx) (y : Word) : State := (s.setX a x).setX b y

/-- A word of data in memory. -/
def withMem (s : State) (addr : Nat) (v : Word) : State := { s with mem := Memory.writeWord s.mem addr v }

/-- FIFOs set. -/
def withFifos (s : State) (input output : List Word) : State := { s with mngr2procQ := input, proc2mngrQ := output, sent := output }

/-- Depths of the FIFOs set. -/
def withDepths (s : State) (input output : Option Nat) : State :=
  { s with cfg := { s.cfg with mngr2procDepth := input, proc2mngrDepth := output } }

/-- The end of the run set. -/
def withEnd (s : State) (e : EndOfRun) : State := { s with cfg := { s.cfg with endOfRun := e } }

/-- `pc` and one register after a step that has a next state. -/
def res (r : RegIdx) (o : StepResult) : Option (Word × Word) := (nextOf o).map fun t => (t.pc, t.getX r)

/-- `pc` and one word of memory after a step that has a next state. -/
def resMem (a : Nat) (o : StepResult) : Option (Word × Word) := (nextOf o).map fun t => (t.pc, Memory.readWord t.mem a)

/-- `pc` and the FIFOs after a step that has a next state. -/
def resFifos (o : StepResult) : Option (Word × List Word × List Word) :=
  (nextOf o).map fun t => (t.pc, t.mngr2procQ, t.proc2mngrQ)

/-- The instruction a word decodes to. -/
def dec (v : IsaVersion) (w : Word) : Option Instr :=
  match decode v w with
  | .ok i => some i
  | .error _ => none

/-! ### Well-formedness: an ill-formed term for each check -/

/-- R89: an odd JAL offset has no encoding. -/
theorem test_wf_jal : (Instr.jal 1#5 3#21).wf = false ∧ (Instr.jal 1#5 4#21).wf = true := by decide

/-- R87: an odd offset of BEQ has no encoding. -/
theorem test_wf_beq : (Instr.beq 1#5 2#5 0x1FFF#13).wf = false ∧ (Instr.beq 1#5 2#5 0x1FFE#13).wf = true := by decide

/-- R87: an odd offset of BNE has no encoding. -/
theorem test_wf_bne : (Instr.bne 1#5 2#5 0x1FFF#13).wf = false ∧ (Instr.bne 1#5 2#5 0x1FFE#13).wf = true := by decide

/-- R87: an odd offset of BLT has no encoding. -/
theorem test_wf_blt : (Instr.blt 1#5 2#5 0x1FFF#13).wf = false ∧ (Instr.blt 1#5 2#5 0x1FFE#13).wf = true := by decide

/-- R87: an odd offset of BGE has no encoding. -/
theorem test_wf_bge : (Instr.bge 1#5 2#5 0x1FFF#13).wf = false ∧ (Instr.bge 1#5 2#5 0x1FFE#13).wf = true := by decide

/-- R87: an odd offset of BLTU has no encoding. -/
theorem test_wf_bltu : (Instr.bltu 1#5 2#5 0x1FFF#13).wf = false ∧ (Instr.bltu 1#5 2#5 0x1FFE#13).wf = true := by decide

/-- R87: an odd offset of BGEU has no encoding. -/
theorem test_wf_bgeu : (Instr.bgeu 1#5 2#5 0x1FFF#13).wf = false ∧ (Instr.bgeu 1#5 2#5 0x1FFE#13).wf = true := by decide

/-- R94: JALR is no instruction of TinyRV1, JR none of TinyRV2, ADD one of both. -/
theorem test_wf_versions : (Instr.jalr 0#5 1#5 0#12).inVersion .tinyRV1 = false ∧ (Instr.jr 1#5).inVersion .tinyRV2 = false ∧
    (Instr.add 3#5 1#5 2#5).inVersion .tinyRV1 = true ∧ (Instr.add 3#5 1#5 2#5).inVersion .tinyRV2 = true := by decide

/-! ### Decoding: every constructor's word, written out bit by bit from the encoding column of R94 -/

theorem test_decode_add : dec .tinyRV2 (0b0000000#7 ++ 0b00010#5 ++ 0b00001#5 ++ 0b000#3 ++ 0b00011#5 ++ 0b0110011#7) = some (.add 3#5 1#5 2#5) := by decide
theorem test_decode_sub : dec .tinyRV2 (0b0100000#7 ++ 0b00010#5 ++ 0b00001#5 ++ 0b000#3 ++ 0b00011#5 ++ 0b0110011#7) = some (.sub 3#5 1#5 2#5) := by decide
theorem test_decode_and : dec .tinyRV2 (0b0000000#7 ++ 0b00010#5 ++ 0b00001#5 ++ 0b111#3 ++ 0b00011#5 ++ 0b0110011#7) = some (.and 3#5 1#5 2#5) := by decide
theorem test_decode_or : dec .tinyRV2 (0b0000000#7 ++ 0b00010#5 ++ 0b00001#5 ++ 0b110#3 ++ 0b00011#5 ++ 0b0110011#7) = some (.or 3#5 1#5 2#5) := by decide
theorem test_decode_xor : dec .tinyRV2 (0b0000000#7 ++ 0b00010#5 ++ 0b00001#5 ++ 0b100#3 ++ 0b00011#5 ++ 0b0110011#7) = some (.xor 3#5 1#5 2#5) := by decide
theorem test_decode_slt : dec .tinyRV2 (0b0000000#7 ++ 0b00010#5 ++ 0b00001#5 ++ 0b010#3 ++ 0b00011#5 ++ 0b0110011#7) = some (.slt 3#5 1#5 2#5) := by decide
theorem test_decode_sltu : dec .tinyRV2 (0b0000000#7 ++ 0b00010#5 ++ 0b00001#5 ++ 0b011#3 ++ 0b00011#5 ++ 0b0110011#7) = some (.sltu 3#5 1#5 2#5) := by decide
theorem test_decode_sra : dec .tinyRV2 (0b0100000#7 ++ 0b00010#5 ++ 0b00001#5 ++ 0b101#3 ++ 0b00011#5 ++ 0b0110011#7) = some (.sra 3#5 1#5 2#5) := by decide
theorem test_decode_srl : dec .tinyRV2 (0b0000000#7 ++ 0b00010#5 ++ 0b00001#5 ++ 0b101#3 ++ 0b00011#5 ++ 0b0110011#7) = some (.srl 3#5 1#5 2#5) := by decide
theorem test_decode_sll : dec .tinyRV2 (0b0000000#7 ++ 0b00010#5 ++ 0b00001#5 ++ 0b001#3 ++ 0b00011#5 ++ 0b0110011#7) = some (.sll 3#5 1#5 2#5) := by decide
theorem test_decode_mul : dec .tinyRV2 (0b0000001#7 ++ 0b00010#5 ++ 0b00001#5 ++ 0b000#3 ++ 0b00011#5 ++ 0b0110011#7) = some (.mul 3#5 1#5 2#5) := by decide
theorem test_decode_addi : dec .tinyRV2 (0b100000000101#12 ++ 0b00110#5 ++ 0b000#3 ++ 0b00101#5 ++ 0b0010011#7) = some (.addi 5#5 6#5 0x805#12) := by decide
theorem test_decode_andi : dec .tinyRV2 (0b100000000101#12 ++ 0b00110#5 ++ 0b111#3 ++ 0b00101#5 ++ 0b0010011#7) = some (.andi 5#5 6#5 0x805#12) := by decide
theorem test_decode_ori : dec .tinyRV2 (0b100000000101#12 ++ 0b00110#5 ++ 0b110#3 ++ 0b00101#5 ++ 0b0010011#7) = some (.ori 5#5 6#5 0x805#12) := by decide
theorem test_decode_xori : dec .tinyRV2 (0b100000000101#12 ++ 0b00110#5 ++ 0b100#3 ++ 0b00101#5 ++ 0b0010011#7) = some (.xori 5#5 6#5 0x805#12) := by decide
theorem test_decode_slti : dec .tinyRV2 (0b100000000101#12 ++ 0b00110#5 ++ 0b010#3 ++ 0b00101#5 ++ 0b0010011#7) = some (.slti 5#5 6#5 0x805#12) := by decide
theorem test_decode_sltiu : dec .tinyRV2 (0b100000000101#12 ++ 0b00110#5 ++ 0b011#3 ++ 0b00101#5 ++ 0b0010011#7) = some (.sltiu 5#5 6#5 0x805#12) := by decide
theorem test_decode_srai : dec .tinyRV2 (0b0100000#7 ++ 0b10011#5 ++ 0b00110#5 ++ 0b101#3 ++ 0b00101#5 ++ 0b0010011#7) = some (.srai 5#5 6#5 19#5) := by decide
theorem test_decode_srli : dec .tinyRV2 (0b0000000#7 ++ 0b10011#5 ++ 0b00110#5 ++ 0b101#3 ++ 0b00101#5 ++ 0b0010011#7) = some (.srli 5#5 6#5 19#5) := by decide
theorem test_decode_slli : dec .tinyRV2 (0b0000000#7 ++ 0b10011#5 ++ 0b00110#5 ++ 0b001#3 ++ 0b00101#5 ++ 0b0010011#7) = some (.slli 5#5 6#5 19#5) := by decide
theorem test_decode_lui : dec .tinyRV2 (0b10000000000000000001#20 ++ 0b00101#5 ++ 0b0110111#7) = some (.lui 5#5 0x80001#20) := by decide
theorem test_decode_auipc : dec .tinyRV2 (0b10000000000000000001#20 ++ 0b00101#5 ++ 0b0010111#7) = some (.auipc 5#5 0x80001#20) := by decide
theorem test_decode_lw : dec .tinyRV2 (0b111111111100#12 ++ 0b00010#5 ++ 0b010#3 ++ 0b00101#5 ++ 0b0000011#7) = some (.lw 5#5 0xFFC#12 2#5) := by decide
theorem test_decode_sw : dec .tinyRV2 (0b1111111#7 ++ 0b00101#5 ++ 0b00010#5 ++ 0b010#3 ++ 0b11100#5 ++ 0b0100011#7) = some (.sw 5#5 0xFFC#12 2#5) := by decide
theorem test_decode_jal : dec .tinyRV2 (0b0#1 ++ 0b0000000010#10 ++ 0b1#1 ++ 0b10000000#8 ++ 0b00001#5 ++ 0b1101111#7) = some (.jal 1#5 0x80804#21) := by decide
theorem test_decode_jr : dec .tinyRV1 (0b000000000000#12 ++ 0b00001#5 ++ 0b000#3 ++ 0b00000#5 ++ 0b1100111#7) = some (.jr 1#5) := by decide
theorem test_decode_jalr : dec .tinyRV2 (0b000000000100#12 ++ 0b00101#5 ++ 0b000#3 ++ 0b00001#5 ++ 0b1100111#7) = some (.jalr 1#5 5#5 4#12) := by decide
theorem test_decode_beq : dec .tinyRV2 (0b0#1 ++ 0b000001#6 ++ 0b00010#5 ++ 0b00001#5 ++ 0b000#3 ++ 0b0010#4 ++ 0b1#1 ++ 0b1100011#7) = some (.beq 1#5 2#5 0x824#13) := by decide
theorem test_decode_bne : dec .tinyRV2 (0b0#1 ++ 0b000001#6 ++ 0b00010#5 ++ 0b00001#5 ++ 0b001#3 ++ 0b0010#4 ++ 0b1#1 ++ 0b1100011#7) = some (.bne 1#5 2#5 0x824#13) := by decide
theorem test_decode_blt : dec .tinyRV2 (0b0#1 ++ 0b000001#6 ++ 0b00010#5 ++ 0b00001#5 ++ 0b100#3 ++ 0b0010#4 ++ 0b1#1 ++ 0b1100011#7) = some (.blt 1#5 2#5 0x824#13) := by decide
theorem test_decode_bge : dec .tinyRV2 (0b0#1 ++ 0b000001#6 ++ 0b00010#5 ++ 0b00001#5 ++ 0b101#3 ++ 0b0010#4 ++ 0b1#1 ++ 0b1100011#7) = some (.bge 1#5 2#5 0x824#13) := by decide
theorem test_decode_bltu : dec .tinyRV2 (0b0#1 ++ 0b000001#6 ++ 0b00010#5 ++ 0b00001#5 ++ 0b110#3 ++ 0b0010#4 ++ 0b1#1 ++ 0b1100011#7) = some (.bltu 1#5 2#5 0x824#13) := by decide
theorem test_decode_bgeu : dec .tinyRV2 (0b0#1 ++ 0b000001#6 ++ 0b00010#5 ++ 0b00001#5 ++ 0b111#3 ++ 0b0010#4 ++ 0b1#1 ++ 0b1100011#7) = some (.bgeu 1#5 2#5 0x824#13) := by decide
theorem test_decode_csrr : dec .tinyRV2 (0b111111000000#12 ++ 0b00000#5 ++ 0b010#3 ++ 0b00101#5 ++ 0b1110011#7) = some (.csrr 5#5 0xFC0#12) := by decide
theorem test_decode_csrw : dec .tinyRV2 (0b011111000000#12 ++ 0b00101#5 ++ 0b001#3 ++ 0b00000#5 ++ 0b1110011#7) = some (.csrw 0x7C0#12 5#5) := by decide

/-- V310: the JR word is the real JR in TinyRV1 and `jalr x0, x0, 0` in TinyRV2. -/
theorem test_decode_jr_word : dec .tinyRV1 0x00000067#32 = some (.jr 0#5) ∧
    dec .tinyRV2 0x00000067#32 = some (.jalr 0#5 0#5 0#12) := by decide

/-- V30, V31, V45, V48, V49: immediates at the ends of their ranges. -/
theorem test_decode_ranges : dec .tinyRV2 0x7E208FE3#32 = some (.beq 1#5 2#5 4094#13) ∧
    dec .tinyRV2 0xFE208FE3#32 = some (.beq 1#5 2#5 0x1FFE#13) ∧ dec .tinyRV2 0x7FFFF0EF#32 = some (.jal 1#5 1048574#21) ∧
    dec .tinyRV2 0x7FE000EF#32 = some (.jal 1#5 2046#21) ∧ dec .tinyRV2 0x000FF0EF#32 = some (.jal 1#5 1044480#21) := by decide

/-- V81, V82, V235, V268, V269, V283, V286, V303, V304, V313: words that match no row. -/
theorem test_decode_rejects : [0xFC00A2F3#32, 0x7C0290F3#32, 0x000290E7#32, 0x0020A463#32, 0x0020B463#32,
    0x02004033#32, 0x40001033#32, 0x02001013#32, 0x40001013#32, 0x00001067#32].all (fun w => dec .tinyRV2 w == none) = true := rfl

/-- V83, V97, V178, V233, V234, V266: TinyRV2 words that a TinyRV1 machine rejects. -/
theorem test_decode_rejects_tinyRV1 : [0xFC0022F3#32, 0x402081B3#32, 0x123452B7#32, 0x004280E7#32, 0x000280E7#32,
    0x00208463#32].all (fun w => dec .tinyRV1 w == none) = true := rfl

/-- Each rejection has its name (R97). -/
theorem test_decode_reject_names : decode .tinyRV2 0x0000007F#32 = .error .unusedOpcode ∧
    decode .tinyRV2 0x02004033#32 = .error .unusedFunction ∧ decode .tinyRV2 0xFC00A2F3#32 = .error .csrFixedField ∧
    decode .tinyRV1 0x402081B3#32 = .error .notInVersion ∧ decodeBytes .tinyRV2 [0x13#8, 0#8, 0#8] = .error .truncated :=
  ⟨rfl, rfl, rfl, rfl, rfl⟩

/-- R94: every row's own pattern is a word of the row. -/
theorem test_table_rows : opcodeTable.all (fun r => r.covers r.pattern) = true := rfl

/-- R94: 35 rows, 34 of them in TinyRV2 and 8 in TinyRV1 (R96). -/
theorem test_table_size : opcodeTable.length = 35 ∧ (opcodeTable.filter (·.inTinyRV2)).length = 34 ∧
    (opcodeTable.filter (·.inTinyRV1)).length = 8 := ⟨rfl, rfl, rfl⟩

/-- The table's words read as the host asks for them, JR and JALR among them. -/
theorem test_table_word : decodeTableWord 32 0x00008067 = some (.jr 1#5) ∧
    decodeTableWord 32 0x004280E7 = some (.jalr 1#5 5#5 4#12) ∧ decodeTableWord 32 0x402081B3 = some (.sub 3#5 1#5 2#5) := by
  decide

/-! ### One step of each instruction -/

/-- V85. -/
theorem test_add_1 : res 3#5 (step (with2 (run2 0x2081B3#32) 1#5 0x5#32 2#5 0xFFFFFFFE#32)) = some (0x204#32, 0x3#32) := by decide

/-- V90, source and destination the same. -/
theorem test_add_same : res 1#5 (step ((run1 0x001080B3#32).setX 1#5 0x40000001#32)) = some (0x204#32, 0x80000002#32) := by decide

/-- V92. -/
theorem test_sub_1 : res 3#5 (step (with2 (run2 0x402081B3#32) 1#5 0x5#32 2#5 0x7#32)) = some (0x204#32, 0xFFFFFFFE#32) := by decide

/-- V93. -/
theorem test_sub_2 : res 3#5 (step (with2 (run2 0x402081B3#32) 1#5 0x80000000#32 2#5 0x1#32)) = some (0x204#32, 0x7FFFFFFF#32) := by decide

/-- V98. -/
theorem test_and_1 : res 3#5 (step (with2 (run2 0x20F1B3#32) 1#5 0xF0F0F0F0#32 2#5 0xFF00FF0#32)) = some (0x204#32, 0xF000F0#32) := by decide

/-- V100. -/
theorem test_or_1 : res 3#5 (step (with2 (run2 0x20E1B3#32) 1#5 0xF0F0F0F0#32 2#5 0xFF00FF0#32)) = some (0x204#32, 0xFFF0FFF0#32) := by decide

/-- V102. -/
theorem test_xor_1 : res 3#5 (step (with2 (run2 0x20C1B3#32) 1#5 0xF0F0F0F0#32 2#5 0xFF00FF0#32)) = some (0x204#32, 0xFF00FF00#32) := by decide

/-- V104. -/
theorem test_slt_1 : res 3#5 (step (with2 (run2 0x20A1B3#32) 1#5 0xFFFFFFFF#32 2#5 0x1#32)) = some (0x204#32, 0x1#32) := by decide

/-- V105. -/
theorem test_slt_2 : res 3#5 (step (with2 (run2 0x20A1B3#32) 1#5 0x7FFFFFFF#32 2#5 0x80000000#32)) = some (0x204#32, 0x0#32) := by decide

/-- V109. -/
theorem test_sltu_1 : res 3#5 (step (with2 (run2 0x20B1B3#32) 1#5 0xFFFFFFFF#32 2#5 0x1#32)) = some (0x204#32, 0x0#32) := by decide

/-- V110. -/
theorem test_sltu_2 : res 3#5 (step (with2 (run2 0x20B1B3#32) 1#5 0x1#32 2#5 0xFFFFFFFF#32)) = some (0x204#32, 0x1#32) := by decide

/-- V115. -/
theorem test_sra_1 : res 3#5 (step (with2 (run2 0x4020D1B3#32) 1#5 0x80000010#32 2#5 0x24#32)) = some (0x204#32, 0xF8000001#32) := by decide

/-- V116. -/
theorem test_sra_2 : res 3#5 (step (with2 (run2 0x4020D1B3#32) 1#5 0x7FFFFFFF#32 2#5 0x20#32)) = some (0x204#32, 0x7FFFFFFF#32) := by decide

/-- V118. -/
theorem test_srl_1 : res 3#5 (step (with2 (run2 0x20D1B3#32) 1#5 0x80000010#32 2#5 0x4#32)) = some (0x204#32, 0x8000001#32) := by decide

/-- V121. -/
theorem test_srl_2 : res 3#5 (step (with2 (run2 0x20D1B3#32) 1#5 0xFFFFFFFF#32 2#5 0xFFFFFFFF#32)) = some (0x204#32, 0x1#32) := by decide

/-- V122. -/
theorem test_sll_1 : res 3#5 (step (with2 (run2 0x2091B3#32) 1#5 0x80000011#32 2#5 0x4#32)) = some (0x204#32, 0x110#32) := by decide

/-- V124. -/
theorem test_sll_2 : res 3#5 (step (with2 (run2 0x2091B3#32) 1#5 0x1#32 2#5 0x21#32)) = some (0x204#32, 0x2#32) := by decide

/-- V126. -/
theorem test_mul_1 : res 3#5 (step (with2 (run2 0x22081B3#32) 1#5 0x7#32 2#5 0xFFFFFFFD#32)) = some (0x204#32, 0xFFFFFFEB#32) := by decide

/-- V130. -/
theorem test_mul_2 : res 3#5 (step (with2 (run2 0x22081B3#32) 1#5 0x12345678#32 2#5 0x9ABCDEF0#32)) = some (0x204#32, 0x242D2080#32) := by decide

/-- V135. -/
theorem test_addi_1 : res 5#5 (step ((run2 0x7FF30293#32).setX 6#5 0x7FFFFFFF#32)) = some (0x204#32, 0x800007FE#32) := by decide

/-- V136. -/
theorem test_addi_2 : res 5#5 (step ((run2 0x80030293#32).setX 6#5 0x0#32)) = some (0x204#32, 0xFFFFF800#32) := by decide

/-- V142. -/
theorem test_andi_1 : res 5#5 (step ((run2 0xFF37293#32).setX 6#5 0x12345678#32)) = some (0x204#32, 0x78#32) := by decide

/-- V144. -/
theorem test_andi_2 : res 5#5 (step ((run2 0x80037293#32).setX 6#5 0xFFFFFFFF#32)) = some (0x204#32, 0xFFFFF800#32) := by decide

/-- V145. -/
theorem test_ori_1 : res 5#5 (step ((run2 0xF0036293#32).setX 6#5 0x12#32)) = some (0x204#32, 0xFFFFFF12#32) := by decide

/-- V147. -/
theorem test_xori_1 : res 5#5 (step ((run2 0xFFF34293#32).setX 6#5 0x12345678#32)) = some (0x204#32, 0xEDCBA987#32) := by decide

/-- V149. -/
theorem test_slti_1 : res 5#5 (step ((run2 0xFFF32293#32).setX 6#5 0xFFFFFFFE#32)) = some (0x204#32, 0x1#32) := by decide

/-- V150. -/
theorem test_slti_2 : res 5#5 (step ((run2 0xFFF32293#32).setX 6#5 0x0#32)) = some (0x204#32, 0x0#32) := by decide

/-- V153. -/
theorem test_sltiu_1 : res 5#5 (step ((run2 0xFFF33293#32).setX 6#5 0x5#32)) = some (0x204#32, 0x1#32) := by decide

/-- V154. -/
theorem test_sltiu_2 : res 5#5 (step ((run2 0xFFF33293#32).setX 6#5 0xFFFFFFFF#32)) = some (0x204#32, 0x0#32) := by decide

/-- V158. -/
theorem test_srai_1 : res 5#5 (step ((run2 0x40435293#32).setX 6#5 0x80000010#32)) = some (0x204#32, 0xF8000001#32) := by decide

/-- V159. -/
theorem test_srai_2 : res 5#5 (step ((run2 0x41F35293#32).setX 6#5 0x80000000#32)) = some (0x204#32, 0xFFFFFFFF#32) := by decide

/-- V162. -/
theorem test_srli_1 : res 5#5 (step ((run2 0x435293#32).setX 6#5 0x80000010#32)) = some (0x204#32, 0x8000001#32) := by decide

/-- V165. -/
theorem test_slli_1 : res 5#5 (step ((run2 0x431293#32).setX 6#5 0x80000011#32)) = some (0x204#32, 0x110#32) := by decide

/-- V170. -/
theorem test_lui : res 5#5 (step (run2 0x800002B7#32)) = some (0x204#32, 0x80000000#32) := by decide

/-- V172. -/
theorem test_lui_x0 : res 0#5 (step (run2 0x12345037#32)) = some (0x204#32, 0#32) := by decide

/-- V174. -/
theorem test_auipc_1 : res 5#5 (step (at_ .tinyRV2 0x1000#32 0xFFFFF297#32)) = some (0x1004#32, 0#32) := by decide

/-- V176. -/
theorem test_auipc_2 : res 5#5 (step (at_ .tinyRV2 0x204#32 0x80000297#32)) = some (0x208#32, 0x80000204#32) := by decide

/-- V183. -/
theorem test_lw_1 : res 5#5 (step (withMem ((run2 0xFFC12283#32).setX 2#5 0x1000#32) 0xFFC 0xCAFEF00D#32)) = some (0x204#32, 0xCAFEF00D#32) := by decide

/-- V201, misaligned and out of range. -/
theorem test_lw_2 : faultOf (step ((run2 0x00112283#32).setX 2#5 0x100000#32)) = some (.loadMisaligned 0x100001#32) := by decide

/-- V191. -/
theorem test_sw_1 : resMem 0xFFC (step (with2 (run1 0xFE512E23#32) 2#5 0x1000#32 5#5 0xDEADBEEF#32)) = some (0x204#32, 0xDEADBEEF#32) := by decide

/-- V191, its bytes. -/
theorem test_sw_2 : ((nextOf (step (with2 (run1 0xFE512E23#32) 2#5 0x1000#32 5#5 0xDEADBEEF#32))).map fun t => (Memory.read t.mem 0xFFC, Memory.read t.mem 0xFFF, t.stored)) = some (0xEF#8, 0xDE#8, [0xFFC]) := by decide

/-- V213. -/
theorem test_jal_1 : res 1#5 (step (run2 0xE01FF0EF#32)) = some (0#32, 0x204#32) := by decide

/-- V217, the sum wraps. -/
theorem test_jal_2 : res 1#5 (step (run1 0xDFDFF0EF#32)) = some (0xFFFFFFFC#32, 0x204#32) := by decide

/-- V222. -/
theorem test_jr_1 : res 1#5 (step ((run1 0x00008067#32).setX 1#5 0x206#32)) = some (0x206#32, 0x206#32) := by decide

/-- V221. -/
theorem test_jr_2 : faultOf (step ((run1 0x00008067#32).setX 1#5 0x205#32)) = some (.jrTargetOdd 0x205#32) := by decide

/-- V226, the old x1 is the target. -/
theorem test_jalr_1 : res 1#5 (step ((run2 0x000080E7#32).setX 1#5 0x300#32)) = some (0x300#32, 0x204#32) := by decide

/-- V224. -/
theorem test_jalr_2 : res 1#5 (step ((run2 0x004280E7#32).setX 5#5 0x301#32)) = some (0x304#32, 0x204#32) := by decide

/-- V261. -/
theorem test_beq_1 : res 1#5 (step (with2 (at_ .tinyRV2 0x1200#32 0x80208063#32) 1#5 0x0#32 2#5 0x0#32)) = some (0x200#32, 0x0#32) := by decide

/-- V237. -/
theorem test_beq_2 : res 1#5 (step (with2 (at_ .tinyRV2 0x200#32 0x208463#32) 1#5 0x5#32 2#5 0x6#32)) = some (0x204#32, 0x5#32) := by decide

/-- V240. -/
theorem test_bne_1 : res 1#5 (step (with2 (at_ .tinyRV2 0x208#32 0xFE209EE3#32) 1#5 0x1#32 2#5 0x0#32)) = some (0x204#32, 0x1#32) := by decide

/-- V241. -/
theorem test_bne_2 : res 1#5 (step (with2 (at_ .tinyRV2 0x208#32 0xFE209EE3#32) 1#5 0x7#32 2#5 0x7#32)) = some (0x20C#32, 0x7#32) := by decide

/-- V244. -/
theorem test_blt_1 : res 1#5 (step (with2 (at_ .tinyRV2 0x200#32 0x20C463#32) 1#5 0xFFFFFFFF#32 2#5 0x1#32)) = some (0x208#32, 0xFFFFFFFF#32) := by decide

/-- V247. -/
theorem test_blt_2 : res 1#5 (step (with2 (at_ .tinyRV2 0x200#32 0x20C463#32) 1#5 0x5#32 2#5 0x5#32)) = some (0x204#32, 0x5#32) := by decide

/-- V248. -/
theorem test_bge_1 : res 1#5 (step (with2 (at_ .tinyRV2 0x200#32 0x20D463#32) 1#5 0xFFFFFFFF#32 2#5 0x1#32)) = some (0x204#32, 0xFFFFFFFF#32) := by decide

/-- V249. -/
theorem test_bge_2 : res 1#5 (step (with2 (at_ .tinyRV2 0x200#32 0x20D463#32) 1#5 0x5#32 2#5 0x5#32)) = some (0x208#32, 0x5#32) := by decide

/-- V252. -/
theorem test_bltu_1 : res 1#5 (step (with2 (at_ .tinyRV2 0x200#32 0x20E463#32) 1#5 0xFFFFFFFF#32 2#5 0x1#32)) = some (0x204#32, 0xFFFFFFFF#32) := by decide

/-- V253. -/
theorem test_bltu_2 : res 1#5 (step (with2 (at_ .tinyRV2 0x200#32 0x20E463#32) 1#5 0x1#32 2#5 0xFFFFFFFF#32)) = some (0x208#32, 0x1#32) := by decide

/-- V256. -/
theorem test_bgeu_1 : res 1#5 (step (with2 (at_ .tinyRV2 0x200#32 0x20F463#32) 1#5 0xFFFFFFFF#32 2#5 0x1#32)) = some (0x208#32, 0xFFFFFFFF#32) := by decide

/-- V258. -/
theorem test_bgeu_2 : res 1#5 (step (with2 (at_ .tinyRV2 0x200#32 0x20F463#32) 1#5 0x1#32 2#5 0xFFFFFFFF#32)) = some (0x204#32, 0x1#32) := by decide

/-- V59. -/
theorem test_csrr_1 : ((nextOf (step (withFifos (run2 0xFC0022F3#32) [0x2A#32, 7#32] []))).map fun t => (t.getX 5#5, t.mngr2procQ)) = some (0x2A#32, [7#32]) := by decide

/-- V72. -/
theorem test_csrr_2 : faultOf (step (run2 0x7C0022F3#32)) = some (.undefinedCsrAccess 0x7C0#12 .read) := by decide

/-- V70. -/
theorem test_csrw_1 : resFifos (step ((run2 0x7C029073#32).setX 5#5 0x31#32)) = some (0x204#32, [], [0x31#32]) := by decide

/-- V78. -/
theorem test_csrw_2 : faultOf (step (run2 0x30029073#32)) = some (.unsupportedCsr 0x300#12) := by decide

/-! ### Fetch, decode, the manager, the end of a run, reset -/

/-- V330: an empty FIFO, no state change. -/
theorem test_stall : nextOf (step (run2 0xFC0022F3#32)) = some (run2 0xFC0022F3#32) := by decide

/-- V332: a full FIFO, no state change. -/
theorem test_stall_full : nextOf (step (withDepths (withFifos ((run2 0x7C029073#32).setX 5#5 9#32) [] [1#32]) none (some 1))) = some (withDepths (withFifos ((run2 0x7C029073#32).setX 5#5 9#32) [] [1#32]) none (some 1)) := by decide

/-- V331. -/
theorem test_enqueue_then_csrr : res 5#5 (runSteps 2 ((run2 0xFC0022F3#32).setAgenda [.enqueue 0x2A#32])) = some (0x204#32, 0x2A#32) := by decide

/-- V333. -/
theorem test_dequeue_then_csrw : resFifos (runSteps 2 ((withDepths (withFifos ((run2 0x7C029073#32).setX 5#5 9#32) [] [1#32]) none (some 1)).setAgenda [.dequeue])) = some (0x204#32, [], [9#32]) := by decide

/-- V325, misalignment is tested first. -/
theorem test_fetch_misaligned : faultOf (step (at_ .tinyRV2 0x00100002#32 0x13#32)) = some (.fetchMisaligned 0x00100002#32) := by decide

/-- V323. -/
theorem test_fetch_out_of_range : (faultOf (step { State.reset with pc := 0x00100000#32 })) = some (.fetchOutOfRange 0x00100000#32) := by decide

/-- V326. -/
theorem test_fetch_last_word : res 0#5 (step (at_ .tinyRV2 0x000FFFFC#32 0x13#32)) = some (0x00100000#32, 0#32) := by decide

/-- V327. -/
theorem test_fetch_after_store : faultOf (step { at_ .tinyRV2 0x300#32 0x13#32 with stored := [0x300] }) = some (.fetchAfterStore 0x300#32) := by decide

/-- V328. -/
theorem test_fetch_beside_store : res 0#5 (step { at_ .tinyRV2 0x300#32 0x13#32 with stored := [0x304] }) = some (0x304#32, 0#32) := by decide

/-- V329. -/
theorem test_illegal : faultOf (step (run2 0#32)) = some (.illegalInstruction 0x200#32 0#32) := by decide

/-- R252 (3), V211. -/
theorem test_end_self_loop : runEnded (withEnd (run2 0x0000006F#32) .selfLoop) = true ∧ runEnded (run2 0x0000006F#32) = false := by decide

/-- R252: the run ends where a predicate of the user holds, after the first of five steps. -/
theorem test_end_predicate : ((nextOf (runStepsUnder (fun v => v.sent.length == 1 && v.pc == 0x204#32) 5 (withEnd (run2 0x7C001073#32) .predicate))).map fun t => (t.pc, t.sent)) = some (0x204#32, [0#32]) := by decide

/-- R240, R41: `pc`, memory in canonical form, `stored` and the FIFOs empty. -/
theorem test_reset : State.reset.pc = 0x200#32 ∧ Memory.wf State.reset.mem = true ∧ State.reset.stored = [] ∧ State.reset.mngr2procQ = [] := by decide

/-- With no program loaded the first word is the unlisted byte four times (notes/assumptions/7.md). -/
theorem test_reset_runs_nothing : faultOf (step State.reset) = some (.illegalInstruction 0x200#32 0#32) := by decide

/-- A word placed at reset runs as the first instruction (V209). -/
theorem test_with_fetch_word : res 1#5 (step (State.reset.withFetchWord 32 0x010000EF)) = some (0x210#32, 0x204#32) := by decide

/-- The JR word runs as JR of TinyRV1 (V223 with x1 = 0). -/
theorem test_with_fetch_word_jr : res 0#5 (step (State.reset.withFetchWord 32 0x00008067)) = some (0#32, 0#32) := by decide

/-! ### Witnesses: every statement with hypotheses has a state and operands that meet them -/

/-- The extreme operands of a branch, and JR in the version that has it. -/
theorem test_witness_DecodeInvertsEncode :
    ((Instr.bgeu 31#5 31#5 0x1000#13).wf = true ∧ (Instr.bgeu 31#5 31#5 0x1000#13).inVersion .tinyRV2 = true) ∧
    (Instr.jr 31#5).wf = true ∧ (Instr.jr 31#5).inVersion .tinyRV1 = true := by decide

theorem test_witness_EncodeInvertsDecode : decode .tinyRV2 0x80208063#32 = .ok (.beq 1#5 2#5 0x1000#13) := rfl

/-- The three clauses: a decoded word, a word of a row, and one word that two rows could both claim. -/
theorem test_witness_DecoderAgreesWithOpcodeTable : decode .tinyRV1 0x00008067#32 = .ok (.jr 1#5) ∧
    (∃ r ∈ opcodeTable, r.inVersion .tinyRV1 = true ∧ 0x00008067#32 &&& r.mask = r.pattern ∧ r.mnemonic = "JR") ∧
    (∃ r ∈ opcodeTable, r.inVersion .tinyRV2 = true ∧ 0x00008067#32 &&& r.mask = r.pattern ∧ r.mnemonic = "JALR") :=
  ⟨rfl, ⟨⟨"JR", true, false, 0x00000067#32, 0xFFF07FFF#32⟩, by simp [opcodeTable, opcodeTableControl], rfl, rfl, rfl⟩,
    ⟨⟨"JALR", false, true, 0x00000067#32, 0x0000707F#32⟩, by simp [opcodeTable, opcodeTableControl], rfl, rfl, rfl⟩⟩

theorem test_witness_AbsentInstructionWordsRejected : dec .tinyRV1 0x00000073#32 = none ∧ dec .tinyRV2 0x0000100F#32 = none := by
  decide

/-- Both ways a TinyRV1 machine decodes a word. -/
theorem test_witness_TinyRV1DecodesItsEightInstructions : decode .tinyRV2 0x00008067#32 = .ok (.jalr 0#5 1#5 0#12) ∧
    decode .tinyRV2 0x002081B3#32 = .ok (.add 3#5 1#5 2#5) ∧ (Instr.add 3#5 1#5 2#5).inVersion .tinyRV1 = true :=
  ⟨rfl, rfl, rfl⟩

theorem test_witness_ZeroRegisterIsHardwired : destination (.addi 0#5 6#5 5#12) = some 0#5 ∧
    ∃ t, exec (.addi 0#5 6#5 5#12) State.reset = .next t := ⟨rfl, _, rfl⟩

/-- The highest register beside the destination, and an instruction with no destination. -/
theorem test_witness_RegistersChangeOnlyAtDestination :
    (destination (.add 3#5 1#5 2#5) ≠ some 31#5 ∧ ∃ t, exec (.add 3#5 1#5 2#5) State.reset = .next t) ∧
    destination (.sw 1#5 0#12 0#5) ≠ some 31#5 ∧ ∃ t, exec (.sw 1#5 0#12 0#5) State.reset = .next t :=
  ⟨⟨by decide, _, rfl⟩, by decide, _, rfl⟩

/-- An instruction that goes on, and one that waits. -/
theorem test_witness_PcAdvancesByFour :
    (setsPc (.mul 3#5 1#5 2#5) = false ∧ ∃ t, exec (.mul 3#5 1#5 2#5) State.reset = .next t) ∧
    setsPc (.csrr 5#5 0xFC0#12) = false ∧ waits (.csrr 5#5 0xFC0#12) State.reset = true ∧
    exec (.csrr 5#5 0xFC0#12) State.reset = .next State.reset := ⟨⟨rfl, _, rfl⟩, rfl, rfl, rfl⟩

/-- An instruction that meets the premise of every clause, and each of the four that one clause leaves out. -/
theorem test_witness_OnlyStoresAndCsrsChangeTheRest :
    ((∃ t, exec (.add 3#5 1#5 2#5) State.reset = .next t) ∧ (∀ a b c, Instr.add 3#5 1#5 2#5 ≠ .sw a b c) ∧
      (∀ a, Instr.add 3#5 1#5 2#5 ≠ .csrw csrStatsEn a) ∧ (∀ a, Instr.add 3#5 1#5 2#5 ≠ .csrr a csrMngr2proc) ∧
      ∀ a, Instr.add 3#5 1#5 2#5 ≠ .csrw csrProc2mngr a) ∧
    (∃ t, exec (.sw 1#5 0#12 0#5) State.reset = .next t) ∧ (∃ t, exec (.csrw csrStatsEn 1#5) State.reset = .next t) ∧
    (∃ t, exec (.csrr 1#5 csrMngr2proc) (withFifos State.reset [7#32] []) = .next t) ∧
    (∃ t, exec (.csrw csrProc2mngr 1#5) State.reset = .next t) :=
  ⟨⟨⟨_, rfl⟩, by simp, by simp, by simp, by simp⟩, ⟨_, rfl⟩, ⟨_, rfl⟩, ⟨_, rfl⟩, _, rfl⟩

/-- The premise of the row clause of every row of R94, at its least word (every operand bit 0) and its greatest (every operand
bit 1); SUB's greatest word is an instruction in the version that has it and in no other. -/
theorem test_witness_rowDecodes :
    opcodeTable.all (fun r => r.pattern &&& r.mask == r.pattern && (r.pattern ||| ~~~r.mask) &&& r.mask == r.pattern) = true ∧
    dec .tinyRV2 0x41FF8FB3#32 = some (.sub 31#5 31#5 31#5) ∧ dec .tinyRV1 0x41FF8FB3#32 = none :=
  ⟨rfl, rfl, rfl⟩

/-- The lowest and the highest bit of a result of AND and of ORI. -/
theorem test_witness_LogicalResults : 0 < 32 ∧ 31 < 32 ∧
    res 3#5 (exec (.and 3#5 1#5 2#5) (with2 State.reset 1#5 0x80000001#32 2#5 0xFFFFFFFF#32)) = some (0x204#32, 0x80000001#32) ∧
    res 5#5 (exec (.ori 5#5 6#5 0x801#12) State.reset) = some (0x204#32, 0xFFFFF801#32) := by decide

/-- The multiply law at the ends of its range: products of -2^31 and 2^31 - 1, and one just above. -/
theorem test_witness_MultiplySignedLaw :
    ((0x80000000#32).toInt * (1#32).toInt = -2 ^ 31 ∧ (0x7FFFFFFF#32).toInt * (1#32).toInt = 2 ^ 31 - 1) ∧
    ¬ (0x80000000#32).toInt * (0xFFFFFFFF#32).toInt < 2 ^ 31 ∧
    res 3#5 (exec (.mul 3#5 1#5 2#5) (with2 State.reset 1#5 0x80000000#32 2#5 1#32)) = some (0x204#32, 0x80000000#32) := by
  decide

/-- Both outcomes of each comparison, at the point where they meet. -/
theorem test_witness_ComparisonResults :
    ((0x80000000#32).toInt < (0x7FFFFFFF#32).toInt ∧ ¬ (5#32).toInt < (5#32).toInt) ∧
    (0x7FFFFFFF#32).toNat < (0x80000000#32).toNat ∧ ¬ (5#32).toNat < (5#32).toNat := by decide

/-- Both outcomes of each comparison with a constant, at its least and greatest value. -/
theorem test_witness_ComparisonImmediateResults :
    ((0xFFFFF7FF#32).toInt < (0x800#12).toInt ∧ ¬ (0x7FF#32).toInt < (0x7FF#12).toInt) ∧
    ((0xFFFFF7FF#32).toNat : Int) < (0x800#12).toInt % 2 ^ 32 ∧ ¬ ((0xFFFFFFFF#32).toNat : Int) < (0xFFF#12).toInt % 2 ^ 32 := by
  decide

/-- V179 to V181: words with the shape of a shift by a constant and a code that is no row's. -/
theorem test_witness_ConstantShiftResults :
    ((0x42435293#32).extractLsb' 25 7 ≠ 0b0000000#7 ∧ 0x42435293#32 &&& 0x0000707F#32 = 0x00005013#32 ∧
      (0x42435293#32).extractLsb' 25 7 ≠ 0b0100000#7) ∧
    ((0x02031293#32).extractLsb' 25 7 ≠ 0b0000000#7 ∧ 0x02031293#32 &&& 0x0000707F#32 = 0x00001013#32) ∧
    (0x40431293#32).extractLsb' 25 7 ≠ 0b0000000#7 ∧ 0x40431293#32 &&& 0x0000707F#32 = 0x00001013#32 := by decide

/-- R160: 0x12345FFF is built by `lui x5, 0x12346` then `addi x5, x5, -1`; the register is not x0. -/
theorem test_witness_UpperImmediateResults : (5#5 : RegIdx) ≠ 0#5 ∧
    0x12346#20 = (0x12345FFF#32 + 0x800#32).extractLsb' 12 20 ∧ 0xFFF#12 = (0x12345FFF#32).extractLsb' 0 12 := by decide

/-- The first and the last word of memory, and an address that wraps (V186, V188, V187). -/
theorem test_witness_LoadWordResult :
    ((effectiveAddress State.reset 0#5 0#12).toNat = 0) ∧
    ((effectiveAddress (State.reset.setX 2#5 0xFFFFC#32) 2#5 0#12).toNat % 4 = 0 ∧
      (effectiveAddress (State.reset.setX 2#5 0xFFFFC#32) 2#5 0#12).toNat = 0xFFFFC) ∧
    (effectiveAddress (State.reset.setX 2#5 0xFFFFFFFC#32) 2#5 8#12).toNat = 4 := by decide

/-- Both faults, at the first address outside memory and at one both misaligned and outside (V196, V199, V201). -/
theorem test_witness_LoadFaults :
    faultOf (exec (.lw 5#5 1#12 2#5) (State.reset.setX 2#5 0x1000#32)) = some (.loadMisaligned 0x1001#32) ∧
    faultOf (exec (.lw 5#5 0#12 2#5) (State.reset.setX 2#5 0x100000#32)) = some (.loadOutOfRange 0x100000#32) ∧
    faultOf (exec (.lw 5#5 1#12 2#5) (State.reset.setX 2#5 0x100000#32)) = some (.loadMisaligned 0x100001#32) := by decide

/-- The first and the last word of memory, in a memory in canonical form. -/
theorem test_witness_StoreWordResult : Memory.wf State.reset.mem = true ∧
    (effectiveAddress State.reset 0#5 0#12).toNat = 0 ∧
    (effectiveAddress (State.reset.setX 2#5 0xFFFFC#32) 2#5 0#12).toNat % 4 = 0 ∧
    (effectiveAddress (State.reset.setX 2#5 0xFFFFC#32) 2#5 0#12).toNat ≤ 0x000fffff := by decide

/-- Both faults (V203, V204), and the address that wraps to 0 raises none (V206). -/
theorem test_witness_StoreFaults :
    faultOf (exec (.sw 5#5 3#12 2#5) (State.reset.setX 2#5 0x1000#32)) = some (.storeMisaligned 0x1003#32) ∧
    faultOf (exec (.sw 5#5 0#12 2#5) (State.reset.setX 2#5 0x100000#32)) = some (.storeOutOfRange 0x100000#32) ∧
    faultOf (exec (.sw 5#5 2#12 2#5) (State.reset.setX 2#5 0xFFFFFFFE#32)) = none := by decide

/-- The last word of memory, addressed by two different registers. -/
theorem test_witness_StoreThenLoadGivesTheWord :
    Memory.wf (with2 State.reset 2#5 0xFFFFC#32 5#5 0x100000#32).mem = true ∧
    ∃ t, exec (.sw 5#5 0#12 2#5) (with2 State.reset 2#5 0xFFFFC#32 5#5 0x100000#32) = .next t ∧
      effectiveAddress t 5#5 0xFFC#12 = effectiveAddress (with2 State.reset 2#5 0xFFFFC#32 5#5 0x100000#32) 2#5 0#12 :=
  ⟨rfl, _, rfl, by decide⟩

/-- The word before the last is the other one. -/
theorem test_witness_MemoryReadAfterWrite : Memory.wf State.reset.mem = true ∧
    (∃ t, memWrite 0xFFFFC#32 0x01020304#32 State.reset = .done () t) ∧ 0xFFFF8#32 ≠ 0xFFFFC#32 ∧
    (0xFFFF8#32).toNat % 4 = 0 ∧ (0xFFFF8#32).toNat ≤ 0x000fffff := ⟨rfl, ⟨_, rfl⟩, by decide, by decide, by decide⟩

/-- One word waiting, the least number there can be. -/
theorem test_witness_CsrReadResults : (withFifos State.reset [0x2A#32] []).mngr2procQ = 0x2A#32 :: [] := rfl

/-- An unbounded FIFO, and one with room for exactly one word more. -/
theorem test_witness_CsrWriteResults : (∀ d, State.reset.cfg.proc2mngrDepth = some d → State.reset.proc2mngrQ.length < d) ∧
    ∀ d, (withDepths (withFifos State.reset [] [1#32]) none (some 2)).cfg.proc2mngrDepth = some d →
      (withDepths (withFifos State.reset [] [1#32]) none (some 2)).proc2mngrQ.length < d := by
  constructor
  · intro d h; cases h
  · intro d h; cases h; decide

/-- Every fault of both directions (V72 to V79). -/
theorem test_witness_CsrFaults :
    faultOf (exec (.csrr 5#5 0x7C0#12) State.reset) = some (.undefinedCsrAccess 0x7C0#12 .read) ∧
    faultOf (exec (.csrr 5#5 0xC00#12) State.reset) = some (.unsupportedCsr 0xC00#12) ∧
    faultOf (exec (.csrw 0xF14#12 0#5) State.reset) = some (.undefinedCsrAccess 0xF14#12 .write) ∧
    faultOf (exec (.csrw 0x300#12 5#5) State.reset) = some (.unsupportedCsr 0x300#12) := by decide

/-- An empty FIFO; a full one of the least depth. -/
theorem test_witness_CsrStallsLeaveTheState : State.reset.mngr2procQ = [] ∧
    (withDepths (withFifos State.reset [] [1#32]) none (some 1)).cfg.proc2mngrDepth = some 1 ∧
    1 ≤ (withDepths (withFifos State.reset [] [1#32]) none (some 1)).proc2mngrQ.length := by decide

/-- An even and an odd target on a TinyRV1 machine, one apart. -/
theorem test_witness_JumpRegisterResult : (run1 0x00008067#32).cfg.isaVersion = .tinyRV1 ∧
    (((run1 0x00008067#32).setX 1#5 0xFFFFFFFE#32).getX 1#5).toNat % 2 = 0 ∧
    (((run1 0x00008067#32).setX 1#5 0xFFFFFFFF#32).getX 1#5).toNat % 2 = 1 := by decide

theorem test_witness_JrIsJalrUnderTinyRV2 : State.reset.cfg.isaVersion = .tinyRV2 := rfl

/-- Both ways it can be the processor's turn, at the last word of memory. -/
theorem test_witness_StepRunsTheDecodedInstruction :
    runEnded (at_ .tinyRV2 0xFFFFC#32 0x13#32) = false ∧ processorsTurn (at_ .tinyRV2 0xFFFFC#32 0x13#32) [] ∧
    processorsTurn ((at_ .tinyRV2 0xFFFFC#32 0x13#32).setAgenda [.processor, .dequeue]) [.dequeue] ∧
    (at_ .tinyRV2 0xFFFFC#32 0x13#32).pc.toNat % 4 = 0 ∧ (at_ .tinyRV2 0xFFFFC#32 0x13#32).pc.toNat ≤ 0x000fffff ∧
    (at_ .tinyRV2 0xFFFFC#32 0x13#32).pc.toNat ∉ (at_ .tinyRV2 0xFFFFC#32 0x13#32).stored ∧
    decodeBytes .tinyRV2 [0x13#8, 0#8, 0#8, 0#8] = .ok (.addi 0#5 0#5 0#12, []) :=
  ⟨rfl, .inl ⟨rfl, rfl⟩, .inr rfl, by decide, by decide, by decide, rfl⟩

/-- The four clauses, at the last word of memory and the first beyond it. -/
theorem test_witness_FetchAndDecodeFaults :
    (runEnded State.reset = false ∧ processorsTurn State.reset []) ∧
    ({ State.reset with pc := 0xFFFFD#32 }).pc.toNat % 4 ≠ 0 ∧
    (({ State.reset with pc := 0x100000#32 }).pc.toNat % 4 = 0 ∧ 0x000fffff < ({ State.reset with pc := 0x100000#32 }).pc.toNat) ∧
    (({ State.reset with pc := 0xFFFFC#32, stored := [0xFFFFC] }).pc.toNat % 4 = 0 ∧
      ({ State.reset with pc := 0xFFFFC#32, stored := [0xFFFFC] }).pc.toNat ∈ [0xFFFFC]) ∧
    dec State.reset.cfg.isaVersion (Memory.readWord State.reset.mem 0xFFFFC) = none :=
  ⟨⟨rfl, .inl ⟨rfl, rfl⟩⟩, by decide, by decide, by decide, by decide⟩

/-- A fault of each instruction that has one. -/
theorem test_witness_ExecuteFaultsAreTheClosedList :
    exec (.lw 5#5 1#12 0#5) State.reset = .fault (.loadMisaligned 1#32) ∧
    exec (.sw 5#5 0xFFC#12 0#5) State.reset = .fault (.storeOutOfRange 0xFFFFFFFC#32) ∧
    exec (.csrr 5#5 0x300#12) State.reset = .fault (.unsupportedCsr 0x300#12) ∧
    exec (.csrw 0xFC1#12 5#5) State.reset = .fault (.undefinedCsrAccess 0xFC1#12 .write) ∧
    exec (.jr 1#5) ((run1 0x00008067#32).setX 1#5 0x205#32) = .fault (.jrTargetOdd 0x205#32) := ⟨rfl, rfl, rfl, rfl, rfl⟩

/-- A run that has ended by each instance, and by a predicate of the user's. -/
theorem test_witness_FinalStateStays :
    runEndedUnder (fun _ => false) (withEnd (run2 0x0000006F#32) .selfLoop) = true ∧
    runEndedUnder (fun _ => false) (withEnd (run2 0x13#32) (.atPc 0x200#32)) = true ∧
    runEndedUnder (fun _ => false) (withEnd (run2 0x13#32) (.afterWords 0)) = true ∧
    runEndedUnder (fun v => v.pc == 0x200#32 && v.stored.isEmpty) (withEnd (run2 0x13#32) .predicate) = true := by decide

/-- Each value, with the run over and not over; the number of words just reached and just not; two predicates that agree that the
run is not over; a state that differs in its turns alone. -/
theorem test_witness_EndOfRunInstances : (run2 0x13#32).cfg.endOfRun = .never ∧
    runEndedUnder (fun v => v.pc == 0x204#32) (withEnd (run2 0x13#32) .predicate) = false ∧
    runEndedUnder (fun v => v.mem.isEmpty) (withEnd (run2 0x13#32) .predicate) = false ∧
    runEnded (withEnd (run2 0x13#32) (.atPc 0x204#32)) = false ∧
    runEnded (withEnd (withFifos (run2 0x13#32) [] [1#32]) (.afterWords 1)) = true ∧
    runEnded (withEnd (withFifos (run2 0x13#32) [] [1#32]) (.afterWords 2)) = false ∧
    nextInstr (run2 0x0000006F#32) = some (.jal 0#5 0#21) ∧ runEnded (withEnd (run2 0x13#32) .selfLoop) = false ∧
    ((run2 0x13#32).setAgenda [.dequeue]).snapshot = (run2 0x13#32).snapshot := by decide

/-- Enqueue into a FIFO with room and into a full one of the least depth; dequeue from one that holds a word. -/
theorem test_witness_ManagerTurnResults : runEnded (State.reset.setAgenda [.enqueue 7#32]) = false ∧
    (State.reset.setAgenda [.enqueue 7#32]).agenda = [.enqueue 7#32] ∧ fifoReady [] (some 1) = true ∧
    fifoReady [1#32] (some 1) = false ∧ (State.reset.setAgenda [.dequeue]).agenda = [.dequeue] ∧
    ((nextOf (step ((withFifos State.reset [] [1#32, 2#32]).setAgenda [.dequeue]))).map fun t => t.proc2mngrQ) = some [2#32] ∧
    ((nextOf (step ((withDepths (withFifos State.reset [1#32] []) (some 1) none).setAgenda [.enqueue 7#32]))).map
      fun t => t.mngr2procQ) = some [1#32] := by decide

theorem test_witness_StallLastsWithoutTheManager : (run2 0xFC0022F3#32).agenda = [] ∧ stalled (run2 0xFC0022F3#32) = true := by
  decide

/-- A FIFO of the least depth, empty, in a run that ends at another address and in one that a predicate ends later. -/
theorem test_witness_StallEndsWithAnEnqueue :
    ∀ e ∈ [EndOfRun.atPc 0x204#32, EndOfRun.predicate],
    let p : Snapshot → Bool := fun v => v.pc == 0x204#32
    let s := withEnd ((withDepths (run2 0xFC0022F3#32) (some 1) (some 1)).setAgenda [.enqueue 7#32, .processor]) e
    runEndedUnder p s = false ∧ s.cfg.legal = true ∧ s.agenda = [.enqueue 7#32, .processor] ∧
      nextInstr s = some (.csrr 5#5 0xFC0#12) ∧ s.mngr2procQ = [] ∧
      (nextOf (stepUnder p s)).map (fun u => p u.snapshot) = some false := by decide

/-- A FIFO of the least depth, full (V332, V333), in a run that nothing ends and in one that a predicate ends later. -/
theorem test_witness_StallEndsWithADequeue :
    ∀ e ∈ [EndOfRun.never, EndOfRun.predicate],
    let p : Snapshot → Bool := fun v => v.pc == 0x204#32
    let s := withEnd ((withDepths (withFifos ((run2 0x7C029073#32).setX 5#5 9#32) [] [1#32]) none (some 1)).setAgenda
      [.dequeue, .processor]) e
    runEndedUnder p s = false ∧ s.cfg.legal = true ∧ fifoWithin s.proc2mngrQ s.cfg.proc2mngrDepth = true ∧
      fifoReady s.proc2mngrQ s.cfg.proc2mngrDepth = false ∧ s.agenda = [.dequeue, .processor] ∧
      nextInstr s = some (.csrw 0x7C0#12 5#5) ∧
      (nextOf (stepUnder p s)).map (fun u => p u.snapshot) = some false := by decide

/-- At the reset state, and at the last word of memory with that word in `stored` beside another. -/
theorem test_witness_PlacedWordIsRunNext : Memory.wf State.reset.mem = true ∧ State.reset.pc.toNat % 4 = 0 ∧
    State.reset.pc.toNat ≤ 0x000fffff ∧ decodeTableWord 32 0x00008067 = some (.jr 1#5) ∧
    ({ State.reset with pc := 0xFFFFC#32, stored := [0x300, 0xFFFFC] }).pc.toNat ≤ 0x000fffff ∧
    (({ State.reset with pc := 0xFFFFC#32, stored := [0x300, 0xFFFFC] }).withFetchWord 32 0x00008067).stored = [0x300] := by decide

/-- The first and the last register that has storage. -/
theorem test_witness_ResetLeavesTheGivenValues : (1#5 : RegIdx) ≠ 0#5 ∧ (31#5 : RegIdx) ≠ 0#5 ∧
    (State.resetWith { ResetParams.chosen with xReset := Vector.replicate 31 9#32 }).getX 31#5 = 9#32 := by decide

/-- A configuration at the ends of its ranges, and a memory with its last byte listed. -/
theorem test_witness_ResetIsLegal : Memory.wf [(0, 1#8), (0xFFFFF, 1#8)] = true ∧
    ({ Config.single with coreId := 0xFFFFFFFE#32, numCores := 0xFFFFFFFF#32, mngr2procDepth := some 1 } : Config).legal = true := by
  decide

/-- The state after reset is legal, and with a word to run it has a next step. -/
theorem test_witness_StepKeepsLegalStates : (run2 0x13#32).Inv ∧ ∃ t, step (run2 0x13#32) = .next t :=
  ⟨⟨by decide, by decide, by decide, by decide, by decide, ⟨[], rfl⟩, by decide⟩, _, rfl⟩

/-- A step that changes a byte of a word not stored to before, with another word in `stored`. -/
theorem test_witness_ChangedWordsAreRecorded :
    ∃ t, step { with2 (run1 0xFE512E23#32) 2#5 0x1000#32 5#5 0xDEADBEEF#32 with stored := [0x300] } = .next t ∧
      Memory.read t.mem 0xFFF ≠ Memory.read (run1 0xFE512E23#32).mem 0xFFF ∧
      0x300 ∈ [0x300] := ⟨_, rfl, by decide, by decide⟩

/-- Two steps, of which the first stores. -/
theorem test_witness_FetchedCodeIsAsLoaded : (run1 0x00002023#32).stored = [] ∧
    ∃ t, runSteps 1 (withMem (run1 0x00002023#32) 0x204 0x13#32) = .next t ∧ fetch t = .ok 0x13#32 := ⟨rfl, _, rfl, rfl⟩

theorem test_witness_TinyRV1RunsAlikeUnderTinyRV2 : (run1 0x00008067#32).cfg.isaVersion = .tinyRV1 ∧
    ∃ t, step (run1 0x00008067#32) = .next t := ⟨rfl, _, rfl⟩

theorem test_witness_OutputIsOnlyAddedTo : ∃ t, runSteps 1 (run2 0x7C001073#32) = .next t ∧ t.sent = [0#32] := ⟨_, rfl, rfl⟩

/-- The least and the greatest JAL offset. -/
theorem test_witness_AssemblingALineGivesItsInstruction : (Instr.jal 1#5 0x100000#21).wf = true ∧
    (Instr.jal 1#5 0x100000#21).inVersion .tinyRV1 = true ∧ (Instr.jal 1#5 0x0FFFFE#21).wf = true ∧
    asmLine (.jal 1#5 0x100000#21) = ⟨"jal", [.reg 1#5, .num (-1048576)]⟩ := by decide

end Sys2Proof.Tests
end

/-! The settled statements of the family of the scope: what a wait, a turn of the processor and the decoder of a TinyRV1
machine come to, each said once, and from these the obligations O10, O32, O34, O40, O47 and O56. -/

namespace Sys2Proof.Machine

/-! ### Waiting for the manager -/

/-- An instruction that waits answers the state it was given (00_scope.md R14). -/
theorem exec_of_waits {i : Instr} {s : State} (h : waits i s = true) : exec i s = .next s := by
  cases i
  case csrr rd csr =>
    simp only [waits, Bool.and_eq_true, beq_iff_eq, List.isEmpty_iff] at h
    exact accessThen_next.2 (.inr ⟨csrRead_stall.2 h, rfl⟩)
  case csrw csr rs1 =>
    simp only [waits, Bool.and_eq_true, beq_iff_eq, Bool.not_eq_true'] at h
    exact accessThen_next.2 (.inr ⟨csrWrite_stall.2 h, rfl⟩)
  all_goals cases h

/-- A FIFO that holds its depth of words is not ready (10_state.md R34). -/
theorem fifoReady_of_full {q : List Word} {depth : Nat} (h : depth ≤ q.length) : fifoReady q (some depth) = false := by
  simpa [fifoReady] using h

/-- Settles O32: both accesses wait, and a wait changes nothing. -/
theorem csrStallsLeaveTheState : Obligations.CsrStallsLeaveTheState := by
  intro r s
  refine ⟨fun hempty => exec_of_waits ?_, fun depth hdepth hfull => exec_of_waits ?_⟩
  · simp [waits, hempty]
  · simp [waits, hdepth, fifoReady_of_full hfull]

/-! ### The processor's turn -/

/-- Setting the turns to what they are changes nothing. -/
theorem setAgenda_self {s : State} {turns : List Turn} (h : s.agenda = turns) : s.setAgenda turns = s := by
  subst h; rfl

/-- At a turn of the processor in a run that is not over, the step is the processor's, with the turn used up
(60_exceptions.md R226). -/
theorem step_of_processorsTurn {s : State} {rest : List Turn} (hend : runEnded s = false)
    (hturn : processorsTurn s rest) : step s = processorStep (s.setAgenda rest) := by
  rw [step_eq, hend, if_neg Bool.false_ne_true, takeTurn]
  obtain ⟨hnone, rfl⟩ | hfirst := hturn
  · simp only [hnone, setAgenda_self hnone]
  · simp only [hfirst]

/-- The next instruction is the one decoded from the word fetched (00_scope.md R11). -/
theorem nextInstr_eq_some {s : State} {i : Instr} :
    nextInstr s = some i ↔ ∃ w, fetch s = .ok w ∧ decode s.cfg.isaVersion w = .ok i := by
  unfold nextInstr
  cases hf : fetch s with
  | error f => simp
  | ok w => cases hd : decode s.cfg.isaVersion w <;> simp [hd]

/-- At a turn of the processor in a run that is not over, the step performs the next instruction. -/
theorem step_of_nextInstr {s : State} {rest : List Turn} {i : Instr} (hend : runEnded s = false)
    (hturn : processorsTurn s rest) (hi : nextInstr s = some i) : step s = exec i (s.setAgenda rest) := by
  have hi' : nextInstr (s.setAgenda rest) = some i := by rw [← hi]; exact nextInstr_congr rfl rfl rfl rfl
  rw [step_of_processorsTurn hend hturn, processorStep_of_nextInstr hi']

/-- Four bytes decode as their little-endian word does (20_memory.md R58). -/
theorem decodeBytes_four {v : IsaVersion} {b0 b1 b2 b3 : Byte} {i : Instr} {rest : List Byte} :
    decodeBytes v [b0, b1, b2, b3] = .ok (i, rest) ↔ decode v (wordOfBytes b0 b1 b2 b3) = .ok i ∧ rest = [] := by
  cases hd : decode v (wordOfBytes b0 b1 b2 b3) <;> simp [decodeBytes, hd, eq_comm]

/-- Settles O40: the fetch passes its three checks and gives the word of the four bytes. -/
theorem stepRunsTheDecodedInstruction : Obligations.StepRunsTheDecodedInstruction := by
  intro s rest i hend hturn haligned hrange hstored hbytes
  have hfetch : fetch s = .ok (Memory.readWord s.mem s.pc.toNat) :=
    fetch_ok.2 ⟨(misaligned_false_iff _).2 haligned, (outOfRange_false_iff _).2 (Nat.lt_succ_of_le hrange), hstored, rfl⟩
  have hdecode : decode s.cfg.isaVersion (Memory.readWord s.mem s.pc.toNat) = .ok i := (decodeBytes_four.1 hbytes).1
  exact step_of_nextInstr hend hturn (nextInstr_eq_some.2 ⟨_, hfetch, hdecode⟩)

/-- A processor is stalled when it has a next instruction and that waits (60_exceptions.md R226). -/
theorem stalled_iff {s : State} : stalled s = true ↔ ∃ i, nextInstr s = some i ∧ waits i s = true := by
  unfold stalled
  cases nextInstr s <;> simp

/-- With no turn of the manager to come, the step of a stalled processor leaves the state as it is, whether or not the run
is over (60_exceptions.md R227). -/
theorem step_of_stalled {s : State} (hnone : s.agenda = []) (hstall : stalled s = true) : step s = .next s := by
  obtain ⟨i, hi, hwaits⟩ := stalled_iff.1 hstall
  cases hend : runEnded s with
  | true => rw [step_eq, if_pos hend]
  | false => rw [step_of_nextInstr hend (.inl ⟨hnone, rfl⟩) hi, setAgenda_self hnone, exec_of_waits hwaits]

/-- A state that a step leaves as it is stays for any number of steps. -/
theorem runSteps_of_step_self {s : State} (h : step s = .next s) (k : Nat) : runSteps k s = .next s := by
  induction k with
  | zero => rfl
  | succ k ih => exact runSteps_succ.2 ⟨s, h, ih⟩

/-- Settles O47: the stalled state is a fixed point of the step. -/
theorem stallLastsWithoutTheManager : Obligations.StallLastsWithoutTheManager :=
  fun _ k hnone hstall => runSteps_of_step_self (step_of_stalled hnone hstall) k

/-! ### What every instruction does to `pc` and to the configuration -/

/-- Settles O10, by the effect the instruction has. -/
theorem pcAdvancesByFour : Obligations.PcAdvancesByFour := by
  intro i s t h hseq
  cases exec_next h with
  | write | receive | send | stats | store => exact .inl rfl
  | link _ _ _ hjump | goto _ _ hjump => exact absurd (hseq.symm.trans hjump) Bool.false_ne_true
  | wait hw => exact .inr ⟨hw, rfl⟩

/-- No instruction changes the configuration (10_state.md R42). -/
theorem exec_cfg {i : Instr} {s t : State} (h : exec i s = .next t) : t.cfg = s.cfg := by
  cases exec_next h <;> rfl

/-- No step changes the configuration (10_state.md R42). -/
theorem step_cfg {s t : State} (h : step s = .next t) : t.cfg = s.cfg := by
  obtain ⟨-, rfl⟩ | ⟨-, ⟨w, rest, -, rfl⟩ | ⟨rest, -, rfl⟩ | ⟨rest, -, hp⟩⟩ := step_next h
  · rfl
  · simp
  · simp
  · obtain ⟨w, i, -, -, he⟩ := processorStep_next hp
    exact (exec_cfg he).trans (setAgenda_cfg s rest)

/-! ### What a TinyRV1 machine decodes -/

/-- The exact word of JR is that of `jalr x0, rs1, 0` under TinyRV2 (30_encoding.md R96, 46_pseudo_instructions.md R201). -/
theorem decode_tinyRV2_of_isJrWord {w : Word} (h : isJrWord w = true) :
    decode .tinyRV2 w = .ok (.jalr 0#5 (fieldRs1 w) 0#12) := by
  simp only [isJrWord, Bool.and_eq_true, beq_iff_eq] at h
  obtain ⟨⟨⟨hop, hf3⟩, hrd⟩, himm⟩ := h
  simp [decode, decodeTinyRV2, decodeJalr, hop, hf3, hrd, himm]

/-- What a TinyRV1 machine decodes, a TinyRV2 machine decodes too: JR as `jalr x0, rs1, 0`, the shared instructions as
themselves (30_encoding.md R96, 92_eei_decisions.md D1). -/
theorem decode_tinyRV2_of_tinyRV1 {w : Word} {i : Instr} (h : decode .tinyRV1 w = .ok i) :
    (∃ rs1, i = .jr rs1 ∧ decode .tinyRV2 w = .ok (.jalr 0#5 rs1 0#12)) ∨
    (decode .tinyRV2 w = .ok i ∧ i.inVersion .tinyRV1 = true) := by
  change decodeTinyRV1 w = .ok i at h
  unfold decodeTinyRV1 at h
  split at h
  next hjr => cases h; exact .inl ⟨_, rfl, decode_tinyRV2_of_isJrWord hjr⟩
  next =>
    split at h
    next j hj =>
      split at h
      next hin => cases h; exact .inr ⟨hj, hin⟩
      next => cases h
    next => cases h

/-- A TinyRV1 machine decodes instructions of TinyRV1 alone (30_encoding.md R96). -/
theorem inVersion_of_decode_tinyRV1 {w : Word} {i : Instr} (h : decode .tinyRV1 w = .ok i) :
    i.inVersion .tinyRV1 = true := by
  obtain ⟨rs1, rfl, -⟩ | ⟨-, hin⟩ := decode_tinyRV2_of_tinyRV1 h
  · rfl
  · exact hin

/-- A word that TinyRV2 reads as an instruction TinyRV1 has not is that instruction in TinyRV2 and in no other version. -/
theorem decode_iff_of_tinyRV2_only {w : Word} {i : Instr} (h2 : decode .tinyRV2 w = .ok i)
    (h1 : i.inVersion .tinyRV1 = false) (v : IsaVersion) : decode v w = .ok i ↔ v ∈ [IsaVersion.tinyRV2] := by
  cases v with
  | tinyRV1 => exact iff_of_false (fun h => by simp [inVersion_of_decode_tinyRV1 h] at h1) (by simp)
  | tinyRV2 => exact iff_of_true h2 (by simp)

/-! ### JALR -/

/-- The fixed bits of a row whose mask covers `funct3` and the opcode are these two fields (30_encoding.md R94). -/
theorem fields_of_masked_I {w pattern : Word} (h : w &&& 0x0000707F#32 = pattern) :
    fieldFunct3 w = fieldFunct3 pattern ∧ fieldOpcode w = fieldOpcode pattern := by
  rw [← h, masked_I]; simp

/-- Every word of the row of JALR is JALR under TinyRV2 (30_encoding.md R94, 44_jump_instructions.md R182). -/
theorem decode_tinyRV2_jalr {w : Word} (h : w &&& 0x0000707F#32 = 0x00000067#32) :
    decode .tinyRV2 w = .ok (builtI .jalr w) := by
  obtain ⟨hf3, hop⟩ := fields_of_masked_I h
  rw [show fieldFunct3 0x00000067#32 = 0b000#3 by decide] at hf3
  rw [show fieldOpcode 0x00000067#32 = 0b1100111#7 by decide] at hop
  simp only [decode, decodeTinyRV2, decodeJalr, hop, hf3]
  rfl

/-- The one thing `linkAndJump` can do: link, go to the target and keep the rest. -/
theorem linkAndJump_next (rd : RegIdx) (target : Word) (s : State) :
    ∃ t, linkAndJump rd target s = .next t ∧ writesReg s t rd s.nextPc ∧ t.pc = target ∧ keepsAllButRegsPc s t :=
  ⟨_, rfl, fun r => by rw [getX_setPc, getX_setX], rfl, ⟨fun _ => rfl, rfl⟩, rfl, ⟨rfl, rfl, rfl⟩, rfl, rfl⟩

/-- The target of JALR as a number (44_jump_instructions.md R182). -/
theorem jalrTarget_toNat (base : Word) (imm : BitVec 12) :
    ((clearBit0 (base + imm12 imm)).toNat : Int) = ((base.toNat + imm.toInt) % 2 ^ 32) / 2 * 2 := by
  rw [clearBit0_toNat, ← imm12_toInt imm, ← toNat_add_signed]
  push_cast; rfl

/-- Settles O34: the row by the fields its mask fixes, the effect by what `linkAndJump` can do. -/
theorem jumpAndLinkRegisterResult : Obligations.JumpAndLinkRegisterResult := by
  refine ⟨fun v w hw => ⟨decode_iff_of_tinyRV2_only (decode_tinyRV2_jalr hw) rfl v, rfl⟩, fun rd rs1 imm s => ?_⟩
  obtain ⟨t, ht, hlink, hpc, hkeep⟩ := linkAndJump_next rd (clearBit0 (s.getX rs1 + imm12 imm)) s
  exact ⟨t, ht, hlink, hpc ▸ jalrTarget_toNat (s.getX rs1) imm, hkeep⟩

/-! ### The same machine under the other version -/

/-- Whether a run is over does not depend on the version. -/
theorem runEnded_onVersion (s : State) (v : IsaVersion) : runEnded (s.onVersion v) = runEnded s := rfl

/-- A fetch does not depend on the version. -/
theorem fetch_onVersion (s : State) (v : IsaVersion) : fetch (s.onVersion v) = fetch s := fetch_congr rfl rfl rfl

/-- The manager's `enqueue` does not depend on the version. -/
theorem managerEnqueue_onVersion (w : Word) (s : State) (v : IsaVersion) :
    managerEnqueue w (s.onVersion v) = (managerEnqueue w s).onVersion v := by
  unfold managerEnqueue
  rw [apply_ite fun t : State => t.onVersion v]
  rfl

/-- Clearing bit 0 of an even target leaves it (44_jump_instructions.md R182). -/
theorem clearBit0_of_even {t : Word} (h : t.getLsbD 0 = false) : clearBit0 t = t := by
  have heven : t.toNat % 2 = 0 := by simpa [BitVec.getLsbD, Nat.testBit_zero] using h
  apply BitVec.eq_of_toNat_eq
  rw [clearBit0_toNat]
  omega

/-- When a JR completes on a TinyRV1 machine, and with what (44_jump_instructions.md R181). -/
theorem exec_jr_tinyRV1_next {rs1 : RegIdx} {s t : State} (hv : s.cfg.isaVersion = .tinyRV1) :
    exec (.jr rs1) s = .next t ↔ (s.getX rs1).getLsbD 0 = false ∧ t = s.setPc (s.getX rs1) := by
  change execJr rs1 s = .next t ↔ _
  unfold execJr
  cases hodd : (s.getX rs1).getLsbD 0 <;> simp [hv, raiseFault, eq_comm]

/-- What a JR does on a TinyRV2 machine (46_pseudo_instructions.md R201). -/
theorem exec_jr_tinyRV2 {rs1 : RegIdx} {s : State} (hv : s.cfg.isaVersion = .tinyRV2) :
    exec (.jr rs1) s = .next (s.setPc (clearBit0 (s.getX rs1))) := by
  change execJr rs1 s = _
  unfold execJr
  simp only [hv]

/-- A write to x0 changes nothing (10_state.md R21). -/
theorem setX_zero (s : State) (v : Word) : s.setX 0#5 v = s := by
  unfold State.setX; rw [writeReg_zero]

/-- `jalr x0, rs1, 0` is the JR of a TinyRV2 machine (46_pseudo_instructions.md R201). -/
theorem exec_jalr_zero_eq_exec_jr {rs1 : RegIdx} {s : State} (hv : s.cfg.isaVersion = .tinyRV2) :
    exec (.jalr 0#5 rs1 0#12) s = exec (.jr rs1) s := by
  rw [exec_jr_tinyRV2 hv]
  change linkAndJump 0#5 (clearBit0 (s.getX rs1 + imm12 0#12)) s = _
  rw [show imm12 0#12 = 0#32 by decide, BitVec.add_zero, linkAndJump, setX_zero]

/-- What an instruction of TinyRV1 does on a TinyRV1 machine it does on a TinyRV2 machine: JR because its target was even, the
seven others because they do not look at the version (92_eei_decisions.md D1). -/
theorem exec_onVersion_tinyRV2 {i : Instr} {s t : State} (hv : s.cfg.isaVersion = .tinyRV1)
    (hin : i.inVersion .tinyRV1 = true) (h : exec i s = .next t) :
    exec i (s.onVersion .tinyRV2) = .next (t.onVersion .tinyRV2) := by
  cases i
  case jr rs1 =>
    obtain ⟨heven, rfl⟩ := (exec_jr_tinyRV1_next hv).1 h
    rw [exec_jr_tinyRV2 rfl, getX_onVersion, clearBit0_of_even heven]
    rfl
  case lw rd imm rs1 =>
    obtain ⟨x, u, hread, hk⟩ | ⟨hstall, -⟩ := accessThen_next.1 h
    · cases hk
      obtain ⟨h4, hr, rfl, rfl⟩ := memRead_done.1 hread
      exact accessThen_next.2 (.inl ⟨_, _, memRead_done.2 ⟨h4, hr, rfl, rfl⟩, rfl⟩)
    · exact absurd hstall (memRead_ne_stall _ _)
  case sw rs2 imm rs1 =>
    obtain ⟨x, u, hwrite, hk⟩ | ⟨hstall, -⟩ := accessThen_next.1 h
    · cases hk
      obtain ⟨h4, hr, rfl⟩ := memWrite_done.1 hwrite
      exact accessThen_next.2 (.inl ⟨_, _, memWrite_done.2 ⟨h4, hr, rfl⟩, rfl⟩)
    · exact absurd hstall (memWrite_ne_stall _ _ _)
  case add | addi | mul | jal | bne => cases h; rfl
  all_goals cases hin

/-- A processor step of a TinyRV1 machine is one of a TinyRV2 machine (92_eei_decisions.md D1). -/
theorem processorStep_onVersion_tinyRV2 {s t : State} (hv : s.cfg.isaVersion = .tinyRV1)
    (h : processorStep s = .next t) : processorStep (s.onVersion .tinyRV2) = .next (t.onVersion .tinyRV2) := by
  obtain ⟨w, i, hfetch, hdecode, hexec⟩ := processorStep_next h
  rw [hv] at hdecode
  have hrun := exec_onVersion_tinyRV2 hv (inVersion_of_decode_tinyRV1 hdecode) hexec
  have hfetch' : fetch (s.onVersion .tinyRV2) = .ok w := (fetch_onVersion s _).trans hfetch
  obtain ⟨rs1, rfl, hjalr⟩ | ⟨hsame, -⟩ := decode_tinyRV2_of_tinyRV1 hdecode
  · rw [processorStep_of_nextInstr (nextInstr_eq_some.2 ⟨w, hfetch', hjalr⟩), exec_jalr_zero_eq_exec_jr rfl, hrun]
  · rw [processorStep_of_nextInstr (nextInstr_eq_some.2 ⟨w, hfetch', hsame⟩), hrun]

/-- A step of a TinyRV1 machine, whosever turn it is, is one of a TinyRV2 machine. -/
theorem step_onVersion_tinyRV2 {s t : State} (hv : s.cfg.isaVersion = .tinyRV1) (h : step s = .next t) :
    step (s.onVersion .tinyRV2) = .next (t.onVersion .tinyRV2) := by
  obtain ⟨hend, rfl⟩ | ⟨hend, hturn⟩ := step_next h
  · exact stepUnder_of_ended hend
  have hend' : runEnded (s.onVersion .tinyRV2) = false := (runEnded_onVersion s _).trans hend
  obtain ⟨w, rest, hagenda, rfl⟩ | ⟨rest, hagenda, rfl⟩ | ⟨rest, hprocessor, hstep⟩ := hturn
  · rw [← managerEnqueue_onVersion]
    exact stepUnder_enqueue hend' hagenda
  · exact stepUnder_dequeue hend' hagenda
  · rw [step_of_processorsTurn hend' hprocessor]
    exact processorStep_onVersion_tinyRV2 (s := s.setAgenda rest) hv hstep

/-- Settles O56: the version stays, and the step is simulated turn by turn. -/
theorem tinyRV1RunsAlikeUnderTinyRV2 : Obligations.TinyRV1RunsAlikeUnderTinyRV2 :=
  fun _ _ hv h => ⟨(congrArg Config.isaVersion (step_cfg h)).trans hv, step_onVersion_tinyRV2 hv h⟩

end Sys2Proof.Machine

/-! The settled statements of the family of the state: what one step can be and that decoded offsets are even, then the
invariant (O53), the registers (O8, O9), the frame (O11), memory and the words sent over a step (O54, O57), reset (O51, O52),
and SW, CSRR and CSRW by themselves (O25, O29, O30, O31). -/

namespace Sys2Proof.Machine

/-! ### What a step can be -/

/-- What a step can answer with a next state, without whose turn it was: the state itself, a step of the manager, or an
instruction the machine's version decodes, performed with the turn used up. -/
theorem step_next_cases {s t : State} (h : step s = .next t) :
    t = s ∨ (∃ w rest, t = managerEnqueue w (s.setAgenda rest)) ∨ (∃ rest, t = managerDequeue (s.setAgenda rest)) ∨
    ∃ rest w i, decode s.cfg.isaVersion w = .ok i ∧ exec i (s.setAgenda rest) = .next t := by
  obtain ⟨-, rfl⟩ | ⟨-, ⟨w, rest, -, rfl⟩ | ⟨rest, -, rfl⟩ | ⟨rest, -, hp⟩⟩ := step_next h
  · exact .inl rfl
  · exact .inr (.inl ⟨w, rest, rfl⟩)
  · exact .inr (.inr (.inl ⟨rest, rfl⟩))
  · obtain ⟨w, i, -, hdecode, hexec⟩ := processorStep_next hp
    exact .inr (.inr (.inr ⟨rest, w, i, hdecode, hexec⟩))

/-- What holds of a state and is kept by every step holds after any run from it. -/
theorem runSteps_induction {P : State → Prop} (hstep : ∀ s t, P s → step s = .next t → P t) {k : Nat} {s t : State}
    (hs : P s) (h : runSteps k s = .next t) : P t := by
  induction k generalizing s with
  | zero => cases h; exact hs
  | succ k ih =>
    obtain ⟨u, hu, hrun⟩ := runSteps_succ.1 h
    exact ih (hstep s u hs hu) hrun

/-! ### Decoded offsets are even -/

/-- Register-register instructions have no offset. -/
theorem wf_of_decodeRegReg {w : Word} {i : Instr} (h : decodeRegReg w = .ok i) : i.wf = true := by
  unfold decodeRegReg at h
  split at h <;> cases h <;> rfl

/-- Register-immediate instructions have no offset. -/
theorem wf_of_decodeRegImm {w : Word} {i : Instr} (h : decodeRegImm w = .ok i) : i.wf = true := by
  unfold decodeRegImm decodeShiftImm at h
  split at h
  case h_7 => split at h <;> cases h <;> rfl
  all_goals cases h; rfl

/-- Every decoded branch offset is even (30_encoding.md R87). -/
theorem wf_of_decodeBranch {w : Word} {i : Instr} (h : decodeBranch w = .ok i) : i.wf = true := by
  unfold decodeBranch at h
  split at h <;> cases h <;> exact evenOffset_fieldImmB w

/-- CSR instructions have no offset. -/
theorem wf_of_decodeCsr {w : Word} {i : Instr} (h : decodeCsr w = .ok i) : i.wf = true := by
  unfold decodeCsr at h
  split at h
  · split at h <;> cases h; rfl
  · split at h <;> cases h; rfl
  · cases h

/-- Every instruction of TinyRV2 that a word decodes to is well formed (30_encoding.md R87, R89). -/
theorem wf_of_decodeTinyRV2 {w : Word} {i : Instr} (h : decodeTinyRV2 w = .ok i) : i.wf = true := by
  unfold decodeTinyRV2 at h
  split at h
  · exact wf_of_decodeRegReg h
  · exact wf_of_decodeRegImm h
  · cases h; rfl
  · cases h; rfl
  · unfold decodeLoad at h; split at h <;> cases h; rfl
  · unfold decodeStore at h; split at h <;> cases h; rfl
  · cases h; exact evenOffset_fieldImmJ w
  · unfold decodeJalr at h; split at h <;> cases h; rfl
  · exact wf_of_decodeBranch h
  · exact wf_of_decodeCsr h
  · cases h

/-- Every instruction that a word decodes to is well formed (30_encoding.md R87, R89). -/
theorem wf_of_decode {v : IsaVersion} {w : Word} {i : Instr} (h : decode v w = .ok i) : i.wf = true := by
  cases v with
  | tinyRV1 =>
    obtain ⟨rs1, rfl, -⟩ | ⟨h2, -⟩ := decode_tinyRV2_of_tinyRV1 h
    · rfl
    · exact wf_of_decodeTinyRV2 h2
  | tinyRV2 => exact wf_of_decodeTinyRV2 h

/-! ### FIFOs and their depths -/

/-- An empty FIFO is within any depth. -/
theorem fifoWithin_nil (depth : Option Nat) : fifoWithin [] depth = true := by
  cases depth <;> simp [fifoWithin]

/-- A FIFO with no more words than one within its depth is within it too. -/
theorem fifoWithin_of_length_le {q r : List Word} {depth : Option Nat} (h : fifoWithin q depth = true)
    (hle : r.length ≤ q.length) : fifoWithin r depth = true := by
  cases depth with
  | none => rfl
  | some d => simp only [fifoWithin, decide_eq_true_eq] at h ⊢; omega

/-- A ready FIFO has room for one word more (10_state.md R34, 60_exceptions.md R226). -/
theorem fifoWithin_append_of_ready {q : List Word} {depth : Option Nat} (h : fifoReady q depth = true) (w : Word) :
    fifoWithin (q ++ [w]) depth = true := by
  cases depth with
  | none => rfl
  | some d => simpa [fifoWithin, fifoReady, Nat.succ_le_iff] using h

/-! ### Legal states -/

/-- The turns to come have no part in whether a state is legal. -/
theorem inv_setAgenda {s : State} (hs : s.Inv) (turns : List Turn) : (s.setAgenda turns).Inv := { hs with }

/-- The manager's `enqueue` keeps a state legal, the FIFO full or not (60_exceptions.md R226). -/
theorem inv_managerEnqueue {s : State} (hs : s.Inv) (w : Word) : (managerEnqueue w s).Inv := by
  unfold managerEnqueue
  split
  next hready => exact { hs with inputWithin := fifoWithin_append_of_ready hready w }
  next => exact hs

/-- The manager's `dequeue` keeps a state legal: what is left is still the newest of what was sent (60_exceptions.md R226). -/
theorem inv_managerDequeue {s : State} (hs : s.Inv) : (managerDequeue s).Inv :=
  { hs with
    outputWithin := fifoWithin_of_length_le hs.outputWithin (by simp)
    outputSent := (List.tail_suffix _).trans hs.outputSent }

/-- A well-formed instruction keeps a state legal. -/
theorem inv_of_effect {i : Instr} {s t : State} (hwf : i.wf = true) (hs : s.Inv) (h : Effect i s t) : t.Inv := by
  have hnext : s.nextPc.getLsbD 0 = false := even_nextPc hs.pcEven
  cases h with
  | write | stats => exact { hs with pcEven := hnext }
  | receive rd w rest _ hq =>
    exact { hs with
      inputWithin := fifoWithin_of_length_le hs.inputWithin (by simp [hq])
      pcEven := hnext }
  | send rs1 _ hready =>
    exact { hs with
      outputWithin := fifoWithin_append_of_ready hready _
      outputSent := (List.suffix_append_inj_of_length_eq rfl).2 ⟨hs.outputSent, rfl⟩
      pcEven := hnext }
  | store rs2 imm rs1 _ haligned hrange =>
    obtain ⟨hmem, hstored⟩ := storeWord_wf (s.getX rs2) haligned hrange hs.memWf hs.storedWf
    exact { hs with memWf := hmem, storedWf := hstored, pcEven := hnext }
  | link _ _ _ _ heven | goto _ _ _ heven => exact { hs with pcEven := heven hwf hs.pcEven }
  | wait => exact hs

/-- Settles O53: each move a step can be keeps every clause of the invariant; `pc` stays even because a decoded offset is. -/
theorem stepKeepsLegalStates : Obligations.StepKeepsLegalStates := by
  intro s t hs h
  obtain rfl | ⟨w, rest, rfl⟩ | ⟨rest, rfl⟩ | ⟨rest, w, i, hdecode, hexec⟩ := step_next_cases h
  · exact hs
  · exact inv_managerEnqueue (inv_setAgenda hs rest) w
  · exact inv_managerDequeue (inv_setAgenda hs rest)
  · exact inv_of_effect (wf_of_decode hdecode) (inv_setAgenda hs rest) (exec_next hexec)

/-! ### Registers -/

/-- A register other than the one written reads as before (10_state.md R21). -/
theorem getX_setX_ne {s : State} {rd r : RegIdx} (v : Word) (h : rd ≠ r) : (s.setX rd v).getX r = s.getX r := by
  rw [getX_setX, if_neg h.symm]
  split
  next h0 => rw [h0, getX_zero]
  next => rfl

/-- Settles O9, by the effect the instruction has. -/
theorem registersChangeOnlyAtDestination : Obligations.RegistersChangeOnlyAtDestination := by
  intro i s t r h hr
  cases exec_next h with
  | write rd v hd | link rd v hd => exact getX_setX_ne _ fun e => hr (hd.trans (congrArg some e))
  | receive rd w rest hi => exact getX_setX_ne (s := s.setMngr2procQ rest) w fun e => hr (by rw [hi, ← e]; rfl)
  | send | stats | store | goto | wait => rfl

/-- Settles O8: x0 has no storage, and every other register is not the destination. -/
theorem zeroRegisterIsHardwired : Obligations.ZeroRegisterIsHardwired := by
  refine fun s => ⟨getX_zero s, setX_zero s, fun i t hd h r => ?_⟩
  by_cases h0 : r = 0#5
  · rw [h0, getX_zero, getX_zero]
  · exact registersChangeOnlyAtDestination i s t r h (by simpa [hd] using Ne.symm h0)

/-! ### The frame of every instruction -/

/-- Settles O11: each effect touches what its own instruction may change. -/
theorem onlyStoresAndCsrsChangeTheRest : Obligations.OnlyStoresAndCsrsChangeTheRest := by
  intro i s t h
  have hmem : keepsMem s s := ⟨fun _ => rfl, rfl⟩
  cases exec_next h with
  | write | link | goto | wait => exact ⟨fun _ => hmem, fun _ => rfl, fun _ => rfl, fun _ => ⟨rfl, rfl⟩, rfl, rfl⟩
  | receive rd w rest hi =>
    exact ⟨fun _ => hmem, fun _ => rfl, fun hne => absurd hi (hne rd), fun _ => ⟨rfl, rfl⟩, rfl, rfl⟩
  | send rs1 hi => exact ⟨fun _ => hmem, fun _ => rfl, fun _ => rfl, fun hne => absurd hi (hne rs1), rfl, rfl⟩
  | stats rs1 hi => exact ⟨fun _ => hmem, fun hne => absurd hi (hne rs1), fun _ => rfl, fun _ => ⟨rfl, rfl⟩, rfl, rfl⟩
  | store rs2 imm rs1 hi =>
    exact ⟨fun hne => absurd hi (hne rs2 imm rs1), fun _ => rfl, fun _ => rfl, fun _ => ⟨rfl, rfl⟩, rfl, rfl⟩

/-! ### Memory over a step -/

/-- `t` has the memory of `s` with the word `v` written at an aligned address, and that address recorded in `stored`
(20_memory.md R54, 10_state.md R40). -/
def storesWord (s t : State) (addr v : Word) : Prop :=
  addr.toNat % 4 = 0 ∧ t.mem = Memory.writeWord s.mem addr.toNat v ∧ t.stored = storedInsert s.stored addr.toNat

/-- What an instruction does to memory and to `stored`: nothing, or it stores one word. -/
theorem exec_mem {i : Instr} {s t : State} (h : exec i s = .next t) :
    (t.mem = s.mem ∧ t.stored = s.stored) ∨ ∃ addr v, storesWord s t addr v := by
  cases exec_next h with
  | store rs2 imm rs1 _ haligned => exact .inr ⟨_, _, (misaligned_false_iff _).1 haligned, rfl, rfl⟩
  | write | receive | send | stats | link | goto | wait => exact .inl ⟨rfl, rfl⟩

/-- The same of a step: the manager never touches memory (60_exceptions.md R215, R225). -/
theorem step_mem {s t : State} (h : step s = .next t) :
    (t.mem = s.mem ∧ t.stored = s.stored) ∨ ∃ addr v, storesWord s t addr v := by
  obtain rfl | ⟨w, rest, rfl⟩ | ⟨rest, rfl⟩ | ⟨rest, w, i, -, hexec⟩ := step_next_cases h
  · exact .inl ⟨rfl, rfl⟩
  · exact .inl ⟨by simp, by simp⟩
  · exact .inl ⟨rfl, rfl⟩
  · exact exec_mem (s := s.setAgenda rest) hexec

/-- Settles O54: a byte that changes lies in the one word the step writes, which is aligned and recorded. -/
theorem changedWordsAreRecorded : Obligations.ChangedWordsAreRecorded := by
  intro s t h
  obtain ⟨hmem, hstored⟩ | ⟨addr, v, haligned, hmem, hstored⟩ := step_mem h
  · rw [hmem, hstored]
    exact ⟨fun a hne => absurd rfl hne, fun a ha => ha⟩
  · rw [hmem, hstored]
    refine ⟨fun a hne => ?_, fun a ha => (mem_storedInsert _ _ _).2 (.inr ha)⟩
    have hin : addr.toNat ≤ a ∧ a < addr.toNat + 4 := by
      by_contra hout
      exact hne (read_writeWord_other s.mem v (by omega))
    have hword : a - a % 4 = addr.toNat := by omega
    exact (mem_storedInsert _ _ _).2 (.inl hword)

/-! ### The words sent -/

/-- An instruction only adds to the words sent, at the end (10_state.md R34). -/
theorem exec_sent {i : Instr} {s t : State} (h : exec i s = .next t) : s.sent <+: t.sent := by
  cases exec_next h with
  | send rs1 => exact List.prefix_append _ _
  | write | receive | stats | store | link | goto | wait => exact List.prefix_refl _

/-- A step only adds to the words sent, at the end (60_exceptions.md R228). -/
theorem step_sent {s t : State} (h : step s = .next t) : s.sent <+: t.sent := by
  obtain rfl | ⟨w, rest, rfl⟩ | ⟨rest, rfl⟩ | ⟨rest, w, i, -, hexec⟩ := step_next_cases h
  · exact List.prefix_refl _
  · simp
  · exact List.prefix_refl _
  · exact exec_sent (s := s.setAgenda rest) hexec

/-- Settles O57: both clauses hold of the start and are kept by every step. -/
theorem outputIsOnlyAddedTo : Obligations.OutputIsOnlyAddedTo := by
  intro s t k h
  refine runSteps_induction (P := fun u => u.cfg = s.cfg ∧ s.sent <+: u.sent) (fun u v hu hstep => ?_)
    ⟨rfl, List.prefix_refl _⟩ h
  obtain ⟨hcfg, hsent⟩ := hu
  exact ⟨(step_cfg hstep).trans hcfg, hsent.trans (step_sent hstep)⟩

/-! ### Reset -/

/-- A register after reset has the value given for its place (10_state.md R41). -/
theorem getX_resetWith (p : ResetParams) {r : RegIdx} (h : r ≠ 0#5) :
    some ((State.resetWith p).getX r) = p.xReset[r.toNat - 1]? := by
  have hplace : r.toNat - 1 < 31 := by have := r.isLt; omega
  rw [Vector.getElem?_eq_getElem hplace, State.getX, if_neg h]
  rfl

/-- Every register reads 0 at `State.reset`. -/
theorem getX_reset (r : RegIdx) : State.reset.getX r = 0#32 := by
  unfold State.getX
  split
  · rfl
  · exact Vector.getElem_replicate _

/-- Settles O51: the fields of `State.resetWith` are the ones given, and those of `State.reset` the chosen ones. -/
theorem resetLeavesTheGivenValues : Obligations.ResetLeavesTheGivenValues :=
  ⟨fun p => ⟨getX_zero _, rfl, rfl, rfl, rfl, rfl, rfl, fun _ hr => getX_resetWith p hr⟩,
    getX_reset, rfl, fun _ => rfl, rfl⟩

/-- The state after reset is legal for open values within their ranges. -/
theorem inv_resetWith {p : ResetParams} (hmem : Memory.wf p.memInit = true) (hcfg : p.cfg.legal = true) :
    (State.resetWith p).Inv where
  memWf := hmem
  storedWf := rfl
  cfgLegal := hcfg
  inputWithin := fifoWithin_nil _
  outputWithin := fifoWithin_nil _
  outputSent := List.suffix_refl _
  pcEven := by rw [resetWith_pc]; decide

/-- Settles O52: the chosen values of `State.reset` are within their ranges. -/
theorem resetIsLegal : Obligations.ResetIsLegal :=
  ⟨inv_resetWith (p := ResetParams.chosen) rfl rfl, fun _ hmem hcfg => inv_resetWith hmem hcfg⟩

/-! ### The rows of SW, CSRR and CSRW -/

/-- A TinyRV1 machine decodes every instruction it shares with TinyRV2 as a TinyRV2 machine does (30_encoding.md R96). -/
theorem decode_tinyRV1_of_tinyRV2 {w : Word} {i : Instr} (h2 : decode .tinyRV2 w = .ok i)
    (h1 : i.inVersion .tinyRV1 = true) : decode .tinyRV1 w = .ok i := by
  change decodeTinyRV1 w = .ok i
  change decodeTinyRV2 w = .ok i at h2
  unfold decodeTinyRV1
  split
  next hjr =>
    cases (decode_tinyRV2_of_isJrWord hjr).symm.trans h2
    cases h1
  next => simp only [h2, h1, if_true]

/-- A word that TinyRV2 reads as an instruction both versions have is that instruction in both. -/
theorem decode_iff_of_both {w : Word} {i : Instr} (h2 : decode .tinyRV2 w = .ok i)
    (h1 : i.inVersion .tinyRV1 = true) (v : IsaVersion) : decode v w = .ok i ↔ v ∈ [IsaVersion.tinyRV1, .tinyRV2] := by
  cases v with
  | tinyRV1 => exact iff_of_true (decode_tinyRV1_of_tinyRV2 h2 h1) (by simp)
  | tinyRV2 => exact iff_of_true h2 (by simp)

/-- Every word of the row of SW is SW (30_encoding.md R94, 43_memory_instructions.md R171). -/
theorem decode_tinyRV2_sw {w : Word} (h : w &&& 0x0000707F#32 = 0x00002023#32) :
    decode .tinyRV2 w = .ok (.sw (fieldRs2 w) (fieldImmS w) (fieldRs1 w)) := by
  obtain ⟨hf3, hop⟩ := fields_of_masked_I h
  rw [show fieldFunct3 0x00002023#32 = 0b010#3 by decide] at hf3
  rw [show fieldOpcode 0x00002023#32 = 0b0100011#7 by decide] at hop
  simp only [decode, decodeTinyRV2, decodeStore, hop, hf3]

/-- Every word of the row of CSRR, its `rs1` field 0, is CSRR under TinyRV2 (30_encoding.md R94, R98). -/
theorem decode_tinyRV2_csrr {w : Word} (h : w &&& 0x000FF07F#32 = 0x00002073#32) :
    decode .tinyRV2 w = .ok (.csrr (fieldRd w) (fieldCsr w)) := by
  rw [masked_csrr, show 0x00002073#32 = wordI 0#12 0#5 0b010#3 0#5 0b1110011#7 by decide] at h
  have hrs1 : fieldRs1 w = 0#5 := by simpa using congrArg fieldRs1 h
  have hf3 : fieldFunct3 w = 0b010#3 := by simpa using congrArg fieldFunct3 h
  have hop : fieldOpcode w = 0b1110011#7 := by simpa using congrArg fieldOpcode h
  simp only [decode, decodeTinyRV2, decodeCsr, hop, hf3, hrs1, if_true]

/-- Every word of the row of CSRW, its `rd` field 0, is CSRW under TinyRV2 (30_encoding.md R94, R98). -/
theorem decode_tinyRV2_csrw {w : Word} (h : w &&& 0x00007FFF#32 = 0x00001073#32) :
    decode .tinyRV2 w = .ok (.csrw (fieldCsr w) (fieldRs1 w)) := by
  rw [masked_csrw, show 0x00001073#32 = wordI 0#12 0#5 0b001#3 0#5 0b1110011#7 by decide] at h
  have hrd : fieldRd w = 0#5 := by simpa using congrArg fieldRd h
  have hf3 : fieldFunct3 w = 0b001#3 := by simpa using congrArg fieldFunct3 h
  have hop : fieldOpcode w = 0b1110011#7 := by simpa using congrArg fieldOpcode h
  simp only [decode, decodeTinyRV2, decodeCsr, hop, hf3, hrd, if_true]

/-! ### SW -/

/-- SW to an aligned address of memory stores the word and goes on at `pc + 4` (43_memory_instructions.md R171). -/
theorem exec_sw_next {rs2 rs1 : RegIdx} {imm : BitVec 12} {s : State}
    (haligned : misaligned (effectiveAddress s rs1 imm) = false)
    (hrange : outOfRange (effectiveAddress s rs1 imm) = false) :
    exec (.sw rs2 imm rs1) s = .next (s.storeWord (effectiveAddress s rs1 imm) (s.getX rs2)).advance :=
  accessThen_next.2 (.inl ⟨(), _, memWrite_done.2 ⟨haligned, hrange, rfl⟩, rfl⟩)

/-- The bytes of a word just written to canonical memory, the least significant first (20_memory.md R52, R54). -/
theorem read_writeWord_byte {m : Memory} {a : Nat} (hm : Memory.wf m = true) (ha : a + 3 < memBytes) (v : Word)
    {k : Nat} (hk : k < 4) : Memory.read (Memory.writeWord m a v) (a + k) = v.extractLsb' (8 * k) 8 := by
  obtain ⟨h0, h1, h2, h3⟩ := read_writeWord hm ha v
  match k, hk with
  | 0, _ => exact h0
  | 1, _ => exact h1
  | 2, _ => exact h2
  | 3, _ => exact h3

/-- Settles O25: the row by the fields its mask fixes, the effect by what a store does to memory and to `stored`. -/
theorem storeWordResult : Obligations.StoreWordResult := by
  refine ⟨fun v w hw => ⟨decode_iff_of_both (decode_tinyRV2_sw hw) rfl v, rfl⟩, fun rs2 imm rs1 s h4 hmax => ?_⟩
  have haligned := (misaligned_false_iff (effectiveAddress s rs1 imm)).2 h4
  have hrange := (outOfRange_false_iff (effectiveAddress s rs1 imm)).2 (Nat.lt_succ_of_le hmax)
  exact ⟨_, exec_sw_next haligned hrange, fun _ => rfl, rfl, fun a ha => read_writeWord_other s.mem _ ha,
    fun a => mem_storedInsert _ _ a, rfl, ⟨rfl, rfl, rfl⟩, ⟨rfl, rfl⟩,
    fun hm k hk => read_writeWord_byte hm (whole_word haligned hrange) _ hk⟩

/-! ### CSRR and CSRW -/

/-- CSRR of a CSR that can be read writes the value and goes on at `pc + 4` (40_csr_instructions.md R120). -/
theorem exec_csrr_of_done {rd : RegIdx} {n : CsrNum} {v : Word} {s t : State} (h : csrRead n s = .done v t) :
    exec (.csrr rd n) s = .next (t.setX rd v).advance :=
  accessThen_next.2 (.inl ⟨v, t, h, rfl⟩)

/-- CSRW of a CSR that can be written goes on at `pc + 4` (40_csr_instructions.md R121). -/
theorem exec_csrw_of_done {rs1 : RegIdx} {n : CsrNum} {s t : State} (h : csrWrite n (s.getX rs1) s = .done () t) :
    exec (.csrw n rs1) s = .next t.advance :=
  accessThen_next.2 (.inl ⟨(), t, h, rfl⟩)

/-- CSRR of a CSR whose reading changes nothing only writes the value to its destination. -/
theorem exec_csrr_onlyWrites {n : CsrNum} {v : Word} {s : State} (rd : RegIdx) (h : csrRead n s = .done v s) :
    ∃ t, exec (.csrr rd n) s = .next t ∧ onlyWrites s t rd v :=
  ⟨_, exec_csrr_of_done h, onlyWrites_setX_advance s rd v⟩

/-- Reading `mngr2proc` takes the head of a FIFO that has one (10_state.md R31). -/
theorem csrRead_mngr2proc_cons {s : State} {w : Word} {rest : List Word} (h : s.mngr2procQ = w :: rest) :
    csrRead csrMngr2proc s = .done w (s.setMngr2procQ rest) := by
  change readMngr2proc s = _
  simp only [readMngr2proc, h]

/-- Settles O29: `mngr2proc` gives its head, the other three their values. -/
theorem csrReadResults : Obligations.CsrReadResults := by
  refine ⟨fun v w hw => ⟨decode_iff_of_tinyRV2_only (decode_tinyRV2_csrr hw) rfl v, rfl⟩, fun rd s =>
    ⟨fun w rest hq => ?_, exec_csrr_onlyWrites rd rfl, exec_csrr_onlyWrites rd rfl, exec_csrr_onlyWrites rd rfl⟩⟩
  exact ⟨_, exec_csrr_of_done (csrRead_mngr2proc_cons hq), fun r => getX_setX (s.setMngr2procQ rest) rd r w, rfl, rfl,
    ⟨fun _ => rfl, rfl⟩, rfl, rfl, rfl, rfl, rfl⟩

/-- A FIFO is ready when it is unbounded or holds fewer words than its depth (10_state.md R34). -/
theorem fifoReady_iff {q : List Word} {depth : Option Nat} :
    fifoReady q depth = true ↔ ∀ d, depth = some d → q.length < d := by
  cases depth <;> simp [fifoReady]

/-- Writing a ready `proc2mngr` appends the word (10_state.md R30). -/
theorem csrWrite_proc2mngr_of_ready {s : State} (v : Word)
    (h : fifoReady s.proc2mngrQ s.cfg.proc2mngrDepth = true) : csrWrite csrProc2mngr v s = .done () (s.sendWord v) :=
  if_pos h

/-- Settles O30: `proc2mngr` gets the word at its tail, `stats_en` takes it. -/
theorem csrWriteResults : Obligations.CsrWriteResults := by
  refine ⟨fun v w hw => ⟨decode_iff_of_tinyRV2_only (decode_tinyRV2_csrw hw) rfl v, rfl⟩, fun rs1 s =>
    ⟨fun hready => ?_, ?_⟩⟩
  · exact ⟨_, exec_csrw_of_done (csrWrite_proc2mngr_of_ready _ (fifoReady_iff.2 hready)), rfl, rfl, fun _ => rfl, rfl,
      ⟨fun _ => rfl, rfl⟩, rfl, rfl, rfl, rfl⟩
  · exact ⟨_, exec_csrw_of_done rfl, rfl, fun _ => rfl, rfl, ⟨fun _ => rfl, rfl⟩, ⟨rfl, rfl, rfl⟩, rfl, rfl⟩

/-! ### The faults of CSRR and CSRW -/

/-- CSRR faults only in reading the CSR. -/
theorem exec_csrr_fault {rd : RegIdx} {n : CsrNum} {s : State} {f : Fault} :
    exec (.csrr rd n) s = .fault f ↔ csrRead n s = .fault f :=
  accessThen_fault.trans (or_iff_right fun ⟨_, _, _, h⟩ => by cases h)

/-- CSRW faults only in writing the CSR. -/
theorem exec_csrw_fault {rs1 : RegIdx} {n : CsrNum} {s : State} {f : Fault} :
    exec (.csrw n rs1) s = .fault f ↔ csrWrite n (s.getX rs1) s = .fault f :=
  accessThen_fault.trans (or_iff_right fun ⟨_, _, _, h⟩ => by cases h)

/-- Reading `mngr2proc` never faults (10_state.md R31). -/
theorem readMngr2proc_ne_fault (s : State) (f : Fault) : readMngr2proc s ≠ .fault f := by
  unfold readMngr2proc
  split <;> simp

/-- Writing `proc2mngr` never faults (10_state.md R30). -/
theorem writeProc2mngr_ne_fault (v : Word) (s : State) (f : Fault) : writeProc2mngr v s ≠ .fault f := by
  unfold writeProc2mngr
  split <;> simp

/-- When reading a CSR faults, and how (10_state.md R30, R37). -/
theorem csrRead_fault {n : CsrNum} {s : State} {f : Fault} : csrRead n s = .fault f ↔
    (n = csrProc2mngr ∧ f = .undefinedCsrAccess n .read) ∨
    (n ∉ [csrProc2mngr, csrMngr2proc, csrCoreid, csrNumcores, csrStatsEn] ∧ f = .unsupportedCsr n) := by
  unfold csrRead
  split
  next h => subst h; simp [eq_comm]
  split
  next h => subst h; simp [readMngr2proc_ne_fault, csrMngr2proc, csrProc2mngr]
  split
  next h => subst h; simp [csrCoreid, csrProc2mngr]
  split
  next h => subst h; simp [csrNumcores, csrProc2mngr]
  split
  next h => subst h; simp [csrStatsEn, csrProc2mngr]
  next => simp [*, eq_comm]

/-- When writing a CSR faults, and how (10_state.md R31, R32, R35, R37). -/
theorem csrWrite_fault {n : CsrNum} {v : Word} {s : State} {f : Fault} : csrWrite n v s = .fault f ↔
    (n ∈ [csrMngr2proc, csrNumcores, csrCoreid] ∧ f = .undefinedCsrAccess n .write) ∨
    (n ∉ [csrProc2mngr, csrMngr2proc, csrCoreid, csrNumcores, csrStatsEn] ∧ f = .unsupportedCsr n) := by
  unfold csrWrite
  split
  next h => subst h; simp [writeProc2mngr_ne_fault, csrProc2mngr, csrMngr2proc, csrNumcores, csrCoreid]
  split
  next h => subst h; simp [eq_comm]
  split
  next h => subst h; simp [eq_comm]
  split
  next h => subst h; simp [eq_comm]
  split
  next h => subst h; simp [csrStatsEn, csrMngr2proc, csrNumcores, csrCoreid]
  next => simp [*, eq_comm]

/-- Settles O31: an instruction faults with what its access of the CSR faults with. -/
theorem csrFaults : Obligations.CsrFaults :=
  fun _ _ _ _ => ⟨exec_csrr_fault.trans csrRead_fault, exec_csrw_fault.trans csrWrite_fault⟩

end Sys2Proof.Machine

/-! The settled statements of the family of memory: code that is fetched as it was loaded (O55), LW and the faults of LW and SW
(O23, O24, O26), reading after writing (O27, O28), the words that are no instruction (O6), the faults before an instruction is
performed (O41), and a word placed where the next step fetches it (O49). -/

namespace Sys2Proof.Machine

/-! ### Code over a run -/

/-- Every aligned word that `u` has not recorded as stored to is the word it is in `s` (20_memory.md R68). -/
def unstoredWordsAsIn (s u : State) : Prop :=
  ∀ a, a % 4 = 0 → a ∉ u.stored → Memory.readWord u.mem a = Memory.readWord s.mem a

/-- A step leaves every aligned word that is not recorded after it: a byte that changes has its word recorded. -/
theorem step_unstoredWordsAsIn {s t : State} (h : step s = .next t) : unstoredWordsAsIn s t := by
  intro a haligned hunstored
  obtain ⟨hrecorded, -⟩ := changedWordsAreRecorded s t h
  refine readWord_congr fun b hlow hhigh => by_contra fun hchanged => hunstored ?_
  have hword : b - b % 4 = a := by omega
  exact hword ▸ hrecorded b hchanged

/-- What is not recorded after the second of two moves was not recorded before it, because `stored` only grows. -/
theorem unstoredWordsAsIn_trans {s t u : State} (hst : unstoredWordsAsIn s t) (htu : unstoredWordsAsIn t u)
    (hgrow : ∀ a ∈ t.stored, a ∈ u.stored) : unstoredWordsAsIn s u :=
  fun a haligned hunstored => (htu a haligned hunstored).trans (hst a haligned (mt (hgrow a) hunstored))

/-- A run leaves every aligned word that is not recorded at its end, by induction on its steps. -/
theorem runSteps_unstoredWordsAsIn {k : Nat} {s t : State} (h : runSteps k s = .next t) : unstoredWordsAsIn s t := by
  refine runSteps_induction (P := unstoredWordsAsIn s) (fun u v hu hstep => ?_) (fun _ _ _ => rfl) h
  obtain ⟨-, hgrow⟩ := changedWordsAreRecorded u v hstep
  exact unstoredWordsAsIn_trans hu (step_unstoredWordsAsIn hstep) hgrow

/-- Settles O55: a fetch reads an aligned word that is not recorded as stored to, and a run leaves these. It holds whatever was
recorded at the start. -/
theorem fetchedCodeIsAsLoaded : Obligations.FetchedCodeIsAsLoaded := by
  intro s t k w _ hrun hfetch
  obtain ⟨haligned, -, hunstored, rfl⟩ := fetch_ok.1 hfetch
  exact runSteps_unstoredWordsAsIn hrun _ ((misaligned_false_iff _).1 haligned) hunstored

/-! ### LW and SW -/

/-- An address that is a multiple of 4 within memory passes both checks (20_memory.md R55, R56). -/
theorem address_checks {addr : Word} (h4 : addr.toNat % 4 = 0) (hmax : addr.toNat ≤ 0x000fffff) :
    misaligned addr = false ∧ outOfRange addr = false :=
  ⟨(misaligned_false_iff addr).2 h4, (outOfRange_false_iff addr).2 (Nat.lt_succ_of_le hmax)⟩

/-- LW from an aligned address of memory only writes the word there to its destination (43_memory_instructions.md R170). -/
theorem exec_lw_next {rs1 : RegIdx} {imm : BitVec 12} {s : State} (rd : RegIdx)
    (haligned : misaligned (effectiveAddress s rs1 imm) = false)
    (hrange : outOfRange (effectiveAddress s rs1 imm) = false) :
    ∃ t, exec (.lw rd imm rs1) s = .next t ∧
      onlyWrites s t rd (Memory.readWord s.mem (effectiveAddress s rs1 imm).toNat) :=
  ⟨_, accessThen_next.2 (.inl ⟨_, _, memRead_done.2 ⟨haligned, hrange, rfl, rfl⟩, rfl⟩),
    onlyWrites_setX_advance s rd _⟩

/-- When SW completes, and with what (43_memory_instructions.md R171). -/
theorem exec_sw_eq_next {rs2 rs1 : RegIdx} {imm : BitVec 12} {s t : State} : exec (.sw rs2 imm rs1) s = .next t ↔
    misaligned (effectiveAddress s rs1 imm) = false ∧ outOfRange (effectiveAddress s rs1 imm) = false ∧
      t = (s.storeWord (effectiveAddress s rs1 imm) (s.getX rs2)).advance := by
  constructor
  · intro h
    obtain ⟨v, u, hwrite, hk⟩ | ⟨hstall, -⟩ := accessThen_next.1 h
    · cases hk
      obtain ⟨haligned, hrange, rfl⟩ := memWrite_done.1 hwrite
      exact ⟨haligned, hrange, rfl⟩
    · exact absurd hstall (memWrite_ne_stall _ _ _)
  · rintro ⟨haligned, hrange, rfl⟩
    exact exec_sw_next haligned hrange

/-- LW faults only in reading memory. -/
theorem exec_lw_fault {rd rs1 : RegIdx} {imm : BitVec 12} {s : State} {f : Fault} :
    exec (.lw rd imm rs1) s = .fault f ↔ memRead (effectiveAddress s rs1 imm) s = .fault f :=
  accessThen_fault.trans (or_iff_right fun ⟨_, _, _, h⟩ => by cases h)

/-- SW faults only in writing memory. -/
theorem exec_sw_fault {rs2 rs1 : RegIdx} {imm : BitVec 12} {s : State} {f : Fault} :
    exec (.sw rs2 imm rs1) s = .fault f ↔ memWrite (effectiveAddress s rs1 imm) (s.getX rs2) s = .fault f :=
  accessThen_fault.trans (or_iff_right fun ⟨_, _, _, h⟩ => by cases h)

/-- Every word of the row of LW is LW (30_encoding.md R94, 43_memory_instructions.md R170). -/
theorem decode_tinyRV2_lw {w : Word} (h : w &&& 0x0000707F#32 = 0x00002003#32) :
    decode .tinyRV2 w = .ok (.lw (fieldRd w) (fieldImmI w) (fieldRs1 w)) := by
  obtain ⟨hf3, hop⟩ := fields_of_masked_I h
  rw [show fieldFunct3 0x00002003#32 = 0b010#3 by decide] at hf3
  rw [show fieldOpcode 0x00002003#32 = 0b0000011#7 by decide] at hop
  simp only [decode, decodeTinyRV2, decodeLoad, hop, hf3]

/-- Settles O23: the row by the fields its mask fixes, the effect by what a read of memory completes with. -/
theorem loadWordResult : Obligations.LoadWordResult := by
  refine ⟨fun v w hw => ⟨decode_iff_of_both (decode_tinyRV2_lw hw) rfl v, rfl⟩, fun rd imm rs1 s h4 hmax => ?_⟩
  obtain ⟨haligned, hrange⟩ := address_checks h4 hmax
  exact exec_lw_next rd haligned hrange

/-- Settles O24: LW faults as its read of memory does. -/
theorem loadFaults : Obligations.LoadFaults := by
  intro rd imm rs1 s f
  rw [exec_lw_fault, memRead_fault, misaligned_true_iff, misaligned_false_iff, outOfRange_true_iff]

/-- Settles O26: SW faults as its write of memory does. -/
theorem storeFaults : Obligations.StoreFaults := by
  intro rs2 imm rs1 s f
  rw [exec_sw_fault, memWrite_fault, misaligned_true_iff, misaligned_false_iff, outOfRange_true_iff]

/-! ### Reading after writing -/

/-- Settles O27: the LW passes the checks the SW passed, and reads the word written. -/
theorem storeThenLoadGivesTheWord : Obligations.StoreThenLoadGivesTheWord := by
  intro rs2 rs1 rd base imm off s t hwf hstore haddr
  obtain ⟨haligned, hrange, ht⟩ := exec_sw_eq_next.1 hstore
  have hword : Memory.readWord t.mem (effectiveAddress t base off).toNat = s.getX rs2 := by
    rw [haddr, ht]
    exact readWord_writeWord hwf (whole_word haligned hrange) _
  rw [← haddr] at haligned hrange
  exact hword ▸ exec_lw_next rd haligned hrange

/-- Two aligned words at different addresses have no byte in common. -/
theorem aligned_words_disjoint {a b : Word} (hne : b ≠ a) (ha : a.toNat % 4 = 0) (hb : b.toNat % 4 = 0) :
    b.toNat + 4 ≤ a.toNat ∨ a.toNat + 4 ≤ b.toNat := by
  have hne' : b.toNat ≠ a.toNat := mt BitVec.eq_of_toNat_eq hne
  omega

/-- Settles O28: what was written reads back, and an aligned word elsewhere has no byte of it. -/
theorem memoryReadAfterWrite : Obligations.MemoryReadAfterWrite := by
  intro s t addr other v hwf hwrite
  obtain ⟨haligned, hrange, rfl⟩ := memWrite_done.1 hwrite
  have hwhole := whole_word haligned hrange
  refine ⟨writeWord_wf hwf hwhole v,
    memRead_done.2 ⟨haligned, hrange, (readWord_writeWord hwf hwhole v).symm, rfl⟩, fun hne h4 hmax => ?_⟩
  obtain ⟨haligned', hrange'⟩ := address_checks h4 hmax
  have hsame : Memory.readWord (s.storeWord addr v).mem other.toNat = Memory.readWord s.mem other.toNat :=
    readWord_writeWord_other s.mem v (aligned_words_disjoint hne ((misaligned_false_iff addr).1 haligned) h4)
  exact ⟨_, memRead_done.2 ⟨haligned', hrange', rfl, rfl⟩, memRead_done.2 ⟨haligned', hrange', hsame.symm, rfl⟩⟩

/-! ### Words that are no instruction -/

/-- A word TinyRV2 rejects is no instruction of either version (30_encoding.md R96, 92_eei_decisions.md D1). -/
theorem decode_ne_ok_of_tinyRV2_rejects {w : Word} (h : (decode .tinyRV2 w).isOk = false) (v : IsaVersion) (i : Instr) :
    decode v w ≠ .ok i := by
  have hrejects : ∀ j, decode .tinyRV2 w ≠ .ok j := fun j hj => by simp [hj, Except.isOk, Except.toBool] at h
  cases v with
  | tinyRV1 =>
    intro hi
    obtain ⟨rs1, -, hjalr⟩ | ⟨hsame, -⟩ := decode_tinyRV2_of_tinyRV1 hi
    · exact hrejects _ hjalr
    · exact hrejects _ hsame
  | tinyRV2 => exact hrejects i

/-- Settles O6: TinyRV2 rejects each of the ten words. -/
theorem absentInstructionWordsRejected : Obligations.AbsentInstructionWordsRejected := by
  intro v w hw
  refine decode_ne_ok_of_tinyRV2_rejects ?_ v
  simp only [List.mem_cons, List.not_mem_nil, or_false] at hw
  obtain rfl | rfl | rfl | rfl | rfl | rfl | rfl | rfl | rfl | rfl := hw
  all_goals rfl

/-! ### Faults before an instruction is performed -/

/-- At a turn of the processor in a run that is not over, a fault of the fetch is the fault of the step
(60_exceptions.md R213). -/
theorem step_of_fetch_error {s : State} {rest : List Turn} {f : Fault} (hend : runEnded s = false)
    (hturn : processorsTurn s rest) (hfetch : fetch s = .error f) : step s = .fault f := by
  have hfetch' : fetch (s.setAgenda rest) = .error f := (fetch_congr rfl rfl rfl).trans hfetch
  rw [step_of_processorsTurn hend hturn, processorStep, hfetch']
  rfl

/-- A word fetched that is no instruction of the version is the fault of the step (30_encoding.md R97). -/
theorem step_of_decode_ne_ok {s : State} {rest : List Turn} {w : Word} (hend : runEnded s = false)
    (hturn : processorsTurn s rest) (hfetch : fetch s = .ok w) (hdecode : ∀ i, decode s.cfg.isaVersion w ≠ .ok i) :
    step s = .fault (.illegalInstruction s.pc w) := by
  have hfetch' : fetch (s.setAgenda rest) = .ok w := (fetch_congr rfl rfl rfl).trans hfetch
  rw [step_of_processorsTurn hend hturn, processorStep, hfetch']
  cases hw : decode s.cfg.isaVersion w with
  | ok i => exact absurd hw (hdecode i)
  | error e => simp only [setAgenda_cfg, setAgenda_pc, hw, raiseFault]

/-- Settles O41: the checks of the fetch in their order, then the decoder. -/
theorem fetchAndDecodeFaults : Obligations.FetchAndDecodeFaults := by
  intro s rest hend hturn
  refine ⟨fun h4 => ?_, fun h4 hmax => ?_, fun h4 hmax hstored => ?_, fun h4 hmax hunstored hdecode => ?_⟩
  · exact step_of_fetch_error hend hturn (fetch_error.2 (.inl ⟨(misaligned_true_iff _).2 h4, rfl⟩))
  · exact step_of_fetch_error hend hturn
      (fetch_error.2 (.inr (.inl ⟨(misaligned_false_iff _).2 h4, (outOfRange_true_iff _).2 hmax, rfl⟩)))
  · obtain ⟨haligned, hrange⟩ := address_checks h4 hmax
    exact step_of_fetch_error hend hturn (fetch_error.2 (.inr (.inr ⟨haligned, hrange, hstored, rfl⟩)))
  · obtain ⟨haligned, hrange⟩ := address_checks h4 hmax
    exact step_of_decode_ne_ok hend hturn (fetch_ok.2 ⟨haligned, hrange, hunstored, rfl⟩) hdecode

/-! ### A word placed where the next step fetches it -/

/-- A word of the table decodes as the word does under the version that reads it. -/
theorem decodeTableWord_eq_some {nbits w : Nat} {i : Instr} :
    decodeTableWord nbits w = some i ↔ decode (tableVersion (tableWord nbits w)) (tableWord nbits w) = .ok i := by
  unfold decodeTableWord bytesOfWord decodeBytes
  simp only [wordOfBytes_bytes]
  cases decode (tableVersion (tableWord nbits w)) (tableWord nbits w) <;> simp

/-- A word placed at an aligned `pc` of canonical memory is the word fetched (20_memory.md R58, R68). -/
theorem fetch_placeWord {s : State} (word : Word) (hwf : Memory.wf s.mem = true) (haligned : misaligned s.pc = false)
    (hrange : outOfRange s.pc = false) : fetch (placeWord word s) = .ok word :=
  fetch_ok.2 ⟨haligned, hrange, by simp, (readWord_writeWord hwf (whole_word haligned hrange) word).symm⟩

/-- The state a word is placed in takes a turn of the processor, its run has no end, and so its step performs the word. -/
theorem step_placeWord {s : State} {word : Word} {i : Instr} (hwf : Memory.wf s.mem = true)
    (haligned : misaligned s.pc = false) (hrange : outOfRange s.pc = false)
    (hdecode : decode (tableVersion word) word = .ok i) :
    step (placeWord word s) = exec i ((placeWord word s).setAgenda s.agenda) :=
  step_of_nextInstr (s := placeWord word s) rfl (.inr rfl)
    (nextInstr_eq_some.2 ⟨word, fetch_placeWord word hwf haligned hrange, hdecode⟩)

/-- Settles O49: the placed word is fetched and decoded, and the rest is what `placeWord` says of each field. -/
theorem placedWordIsRunNext : Obligations.PlacedWordIsRunNext := by
  intro s nbits w i hwf h4 hmax hdecode
  obtain ⟨haligned, hrange⟩ := address_checks h4 hmax
  have hstored : ∀ a, a ∈ (placeWord (tableWord nbits w) s).stored ↔ a ∈ s.stored ∧ a ≠ s.pc.toNat := by simp
  exact ⟨step_placeWord hwf haligned hrange (decodeTableWord_eq_some.1 hdecode), rfl, rfl,
    fun a ha => read_writeWord_other s.mem _ ha, readWord_writeWord hwf (whole_word haligned hrange) _, hstored,
    rfl, ⟨rfl, rfl, rfl⟩, rfl, rfl⟩

end Sys2Proof.Machine

/-! The settled statements of the family of the encoding: the word of an instruction and the words of a row of the opcode table,
then that decoding and encoding are inverse (O1, O2), the table (O3), TinyRV1 (O7), the immediates (O4), the shifts by a
constant (O20) and the assembly lines (O58). -/

namespace Sys2Proof.Machine

/-! ### Words with given fields -/

/-- A word is the R-type word of its fields (30_encoding.md R81). -/
theorem wordR_of_fields {w : Word} {funct7 : BitVec 7} {funct3 : BitVec 3} {opcode : BitVec 7}
    (h7 : fieldFunct7 w = funct7) (h3 : fieldFunct3 w = funct3) (hop : fieldOpcode w = opcode) :
    wordR funct7 (fieldRs2 w) (fieldRs1 w) funct3 (fieldRd w) opcode = w := by
  subst h7 h3 hop; exact wordR_fields w

/-- A word is the I-type word of its fields (30_encoding.md R82). -/
theorem wordI_of_fields {w : Word} {funct3 : BitVec 3} {opcode : BitVec 7} (h3 : fieldFunct3 w = funct3)
    (hop : fieldOpcode w = opcode) : wordI (fieldImmI w) (fieldRs1 w) funct3 (fieldRd w) opcode = w := by
  subst h3 hop; exact wordI_fields w

/-- A word is the S-type word of its fields with the S-immediate (30_encoding.md R83, R86). -/
theorem wordS_of_fields {w : Word} {funct3 : BitVec 3} {opcode : BitVec 7} (h3 : fieldFunct3 w = funct3)
    (hop : fieldOpcode w = opcode) : wordS (fieldImmS w) (fieldRs2 w) (fieldRs1 w) funct3 opcode = w := by
  subst h3 hop; exact wordS_fields w

/-- A word is the S-type word of its fields with the B-immediate (30_encoding.md R83, R87). -/
theorem wordB_of_fields {w : Word} {funct3 : BitVec 3} {opcode : BitVec 7} (h3 : fieldFunct3 w = funct3)
    (hop : fieldOpcode w = opcode) : wordB (fieldImmB w) (fieldRs2 w) (fieldRs1 w) funct3 opcode = w := by
  subst h3 hop; exact wordB_fields w

/-- A word is the U-type word of its fields with the U-immediate (30_encoding.md R84, R88). -/
theorem wordU_of_fields {w : Word} {opcode : BitVec 7} (hop : fieldOpcode w = opcode) :
    wordU (fieldImmU w) (fieldRd w) opcode = w := by
  subst hop; exact wordU_fields w

/-- A word is the U-type word of its fields with the J-immediate (30_encoding.md R84, R89). -/
theorem wordJ_of_fields {w : Word} {opcode : BitVec 7} (hop : fieldOpcode w = opcode) :
    wordJ (fieldImmJ w) (fieldRd w) opcode = w := by
  subst hop; exact wordJ_fields w

/-- A word with an `rs1` field of 0 is the word of a CSRR (30_encoding.md R98). -/
theorem wordI_of_fields_rs1_zero {w : Word} {funct3 : BitVec 3} {opcode : BitVec 7} (h3 : fieldFunct3 w = funct3)
    (hop : fieldOpcode w = opcode) (hrs1 : fieldRs1 w = 0#5) : wordI (fieldCsr w) 0#5 funct3 (fieldRd w) opcode = w := by
  rw [← hrs1]; exact wordI_of_fields h3 hop

/-- A word with an `rd` field of 0 is the word of a CSRW (30_encoding.md R98). -/
theorem wordI_of_fields_rd_zero {w : Word} {funct3 : BitVec 3} {opcode : BitVec 7} (h3 : fieldFunct3 w = funct3)
    (hop : fieldOpcode w = opcode) (hrd : fieldRd w = 0#5) : wordI (fieldCsr w) (fieldRs1 w) funct3 0#5 opcode = w := by
  rw [← hrd]; exact wordI_of_fields h3 hop

/-! ### The decoder reads what the encoder writes -/

/-- Every instruction but JR is one of TinyRV2 (30_encoding.md R94). -/
theorem eq_jr_or_inVersion_tinyRV2 (i : Instr) : (∃ rs1, i = .jr rs1) ∨ i.inVersion .tinyRV2 = true := by
  cases i
  case jr rs1 => exact .inl ⟨rs1, rfl⟩
  all_goals exact .inr rfl

/-- A TinyRV2 machine decodes the word of each of its instructions, opcode by opcode (30_encoding.md R93, R94). -/
theorem decode_tinyRV2_encode {i : Instr} (hwf : i.wf = true) (hin : i.inVersion .tinyRV2 = true) :
    decode .tinyRV2 (encode i) = .ok i := by
  cases i
  case add | sub | and | or | xor | slt | sltu | sra | srl | sll | mul =>
    simp [decode, decodeTinyRV2, encode, decodeRegReg]
  case addi | andi | ori | xori | slti | sltiu => simp [decode, decodeTinyRV2, encode, decodeRegImm]
  case srai | srli | slli => simp [decode, decodeTinyRV2, encode, decodeRegImm, decodeShiftImm]
  case lui | auipc => simp [decode, decodeTinyRV2, encode]
  case lw => simp [decode, decodeTinyRV2, encode, decodeLoad]
  case sw => simp [decode, decodeTinyRV2, encode, decodeStore]
  case jal => simp [decode, decodeTinyRV2, encode, fieldImmJ_wordJ hwf]
  case jalr => simp [decode, decodeTinyRV2, encode, decodeJalr]
  case beq | bne | blt | bge | bltu | bgeu => simp [decode, decodeTinyRV2, encode, decodeBranch, fieldImmB_wordB hwf]
  case csrr | csrw => simp [decode, decodeTinyRV2, encode, decodeCsr]
  case jr => cases hin

/-- A TinyRV1 machine decodes the word of JR (30_encoding.md R96, 44_jump_instructions.md R181). -/
theorem decode_tinyRV1_encode_jr (rs1 : RegIdx) : decode .tinyRV1 (encode (.jr rs1)) = .ok (.jr rs1) := by
  have hjr : isJrWord (encode (.jr rs1)) = true := by simp [isJrWord, encode]
  change decodeTinyRV1 (encode (.jr rs1)) = .ok (.jr rs1)
  rw [decodeTinyRV1, if_pos hjr]
  simp [encode]

/-- Settles O1: JR by its exact word, every other instruction as TinyRV2 decodes it. -/
theorem decodeInvertsEncode : Obligations.DecodeInvertsEncode := by
  intro v i hwf hin
  cases v with
  | tinyRV1 =>
    obtain ⟨rs1, rfl⟩ | h2 := eq_jr_or_inVersion_tinyRV2 i
    · exact decode_tinyRV1_encode_jr rs1
    · exact decode_tinyRV1_of_tinyRV2 (decode_tinyRV2_encode hwf h2) hin
  | tinyRV2 => exact decode_tinyRV2_encode hwf hin

/-! ### The encoder writes what the decoder read -/

/-- The register-register instructions, by `funct7` and `funct3`. -/
theorem encode_of_decodeRegReg {w : Word} {i : Instr} (hop : fieldOpcode w = 0b0110011#7) (h : decodeRegReg w = .ok i) :
    encode i = w := by
  unfold decodeRegReg at h
  split at h <;> cases h <;> exact wordR_of_fields ‹_› ‹_› hop

/-- The shifts by a constant, by `funct7` and `funct3`. -/
theorem encode_of_decodeShiftImm {w : Word} {i : Instr} (hop : fieldOpcode w = 0b0010011#7)
    (h : decodeShiftImm w = .ok i) : encode i = w := by
  unfold decodeShiftImm at h
  split at h <;> cases h <;> exact wordR_of_fields ‹_› ‹_› hop

/-- The register-immediate instructions, by `funct3`. -/
theorem encode_of_decodeRegImm {w : Word} {i : Instr} (hop : fieldOpcode w = 0b0010011#7) (h : decodeRegImm w = .ok i) :
    encode i = w := by
  unfold decodeRegImm at h
  split at h
  case h_7 => exact encode_of_decodeShiftImm hop h
  all_goals cases h; exact wordI_of_fields ‹_› hop

/-- The branches, by `funct3`. -/
theorem encode_of_decodeBranch {w : Word} {i : Instr} (hop : fieldOpcode w = 0b1100011#7) (h : decodeBranch w = .ok i) :
    encode i = w := by
  unfold decodeBranch at h
  split at h <;> cases h <;> exact wordB_of_fields ‹_› hop

/-- CSRR and CSRW, whose unused register field the decoder checks (30_encoding.md R98). -/
theorem encode_of_decodeCsr {w : Word} {i : Instr} (hop : fieldOpcode w = 0b1110011#7) (h : decodeCsr w = .ok i) :
    encode i = w := by
  unfold decodeCsr at h
  split at h
  next h3 => split at h <;> cases h; exact wordI_of_fields_rs1_zero h3 hop ‹_›
  next h3 => split at h <;> cases h; exact wordI_of_fields_rd_zero h3 hop ‹_›
  next => cases h

/-- A word a TinyRV2 machine decodes is the word of its instruction, opcode by opcode (30_encoding.md R93, R95). -/
theorem encode_of_decode_tinyRV2 {w : Word} {i : Instr} (h : decode .tinyRV2 w = .ok i) : encode i = w := by
  change decodeTinyRV2 w = .ok i at h
  unfold decodeTinyRV2 at h
  split at h
  next hop => exact encode_of_decodeRegReg hop h
  next hop => exact encode_of_decodeRegImm hop h
  next hop => cases h; exact wordU_of_fields hop
  next hop => cases h; exact wordU_of_fields hop
  next hop => unfold decodeLoad at h; split at h <;> cases h; exact wordI_of_fields ‹_› hop
  next hop => unfold decodeStore at h; split at h <;> cases h; exact wordS_of_fields ‹_› hop
  next hop => cases h; exact wordJ_of_fields hop
  next hop => unfold decodeJalr at h; split at h <;> cases h; exact wordI_of_fields ‹_› hop
  next hop => exact encode_of_decodeBranch hop h
  next hop => exact encode_of_decodeCsr hop h
  next => cases h

/-- The word of JR is the word of `jalr x0, rs1, 0` (46_pseudo_instructions.md R201). -/
theorem encode_jr (rs1 : RegIdx) : encode (.jr rs1) = encode (.jalr 0#5 rs1 0#12) := rfl

/-- A TinyRV2 machine decodes instructions of TinyRV2 alone: it reads the word of JR as JALR (30_encoding.md R96). -/
theorem inVersion_of_decode_tinyRV2 {w : Word} {i : Instr} (h : decode .tinyRV2 w = .ok i) :
    i.inVersion .tinyRV2 = true := by
  obtain ⟨rs1, rfl⟩ | hin := eq_jr_or_inVersion_tinyRV2 i
  · rw [← encode_of_decode_tinyRV2 h, encode_jr, decode_tinyRV2_encode rfl rfl] at h
    cases h
  · exact hin

/-- Settles O2: a TinyRV1 machine decodes as a TinyRV2 machine does, up to the name of JR, which has JALR's word. -/
theorem encodeInvertsDecode : Obligations.EncodeInvertsDecode := by
  intro v w i h
  refine ⟨?_, wf_of_decode h, ?_⟩
  · cases v with
    | tinyRV1 =>
      obtain ⟨rs1, rfl, hjalr⟩ | ⟨hsame, -⟩ := decode_tinyRV2_of_tinyRV1 h
      · exact (encode_jr rs1).trans (encode_of_decode_tinyRV2 hjalr)
      · exact encode_of_decode_tinyRV2 hsame
    | tinyRV2 => exact encode_of_decode_tinyRV2 h
  · cases v with
    | tinyRV1 => exact inVersion_of_decode_tinyRV1 h
    | tinyRV2 => exact inVersion_of_decode_tinyRV2 h

/-- What a word decodes to: the well-formed instruction of the version whose word it is (30_encoding.md R95). -/
theorem decode_eq_ok_iff {v : IsaVersion} {w : Word} {i : Instr} :
    decode v w = .ok i ↔ encode i = w ∧ i.wf = true ∧ i.inVersion v = true := by
  refine ⟨encodeInvertsDecode v w i, ?_⟩
  rintro ⟨rfl, hwf, hin⟩
  exact decodeInvertsEncode v i hwf hin

/-- Settles O7: JR has the word of `jalr x0, rs1, 0`, and the shared instructions decode alike. -/
theorem tinyRV1DecodesItsEightInstructions : Obligations.TinyRV1DecodesItsEightInstructions := by
  refine fun w i => ⟨decode_tinyRV2_of_tinyRV1, ?_⟩
  rintro (⟨rs1, rfl, hjalr⟩ | ⟨h2, hin⟩)
  · exact decode_eq_ok_iff.2 ⟨(encode_jr rs1).trans (encode_of_decode_tinyRV2 hjalr), rfl, rfl⟩
  · exact decode_tinyRV1_of_tinyRV2 h2 hin

/-! ### The rows of the opcode table -/

/-- The words of a row that fixes `funct7`, `funct3` and the opcode (30_encoding.md R94). -/
theorem wordR_of_masked {w : Word} {funct7 : BitVec 7} {funct3 : BitVec 3} {opcode : BitVec 7}
    (h : w &&& 0xFE00707F#32 = wordR funct7 0#5 0#5 funct3 0#5 opcode) :
    wordR funct7 (fieldRs2 w) (fieldRs1 w) funct3 (fieldRd w) opcode = w := by
  rw [masked_R] at h
  exact wordR_of_fields (by simpa using congrArg fieldFunct7 h) (by simpa using congrArg fieldFunct3 h)
    (by simpa using congrArg fieldOpcode h)

/-- The fields that the words of a row share whose mask covers `funct3` and the opcode (30_encoding.md R94). -/
theorem fields_of_masked_wordI {w : Word} {funct3 : BitVec 3} {opcode : BitVec 7}
    (h : w &&& 0x0000707F#32 = wordI 0#12 0#5 funct3 0#5 opcode) : fieldFunct3 w = funct3 ∧ fieldOpcode w = opcode := by
  simpa using fields_of_masked_I h

/-- The words of an I-type row that fixes `funct3` and the opcode (30_encoding.md R94). -/
theorem wordI_of_masked {w : Word} {funct3 : BitVec 3} {opcode : BitVec 7}
    (h : w &&& 0x0000707F#32 = wordI 0#12 0#5 funct3 0#5 opcode) :
    wordI (fieldImmI w) (fieldRs1 w) funct3 (fieldRd w) opcode = w :=
  wordI_of_fields (fields_of_masked_wordI h).1 (fields_of_masked_wordI h).2

/-- The words of an S-type row with the S-immediate (30_encoding.md R94). -/
theorem wordS_of_masked {w : Word} {funct3 : BitVec 3} {opcode : BitVec 7}
    (h : w &&& 0x0000707F#32 = wordI 0#12 0#5 funct3 0#5 opcode) :
    wordS (fieldImmS w) (fieldRs2 w) (fieldRs1 w) funct3 opcode = w :=
  wordS_of_fields (fields_of_masked_wordI h).1 (fields_of_masked_wordI h).2

/-- The words of a branch's row (30_encoding.md R94). -/
theorem wordB_of_masked {w : Word} {funct3 : BitVec 3} {opcode : BitVec 7}
    (h : w &&& 0x0000707F#32 = wordI 0#12 0#5 funct3 0#5 opcode) :
    wordB (fieldImmB w) (fieldRs2 w) (fieldRs1 w) funct3 opcode = w :=
  wordB_of_fields (fields_of_masked_wordI h).1 (fields_of_masked_wordI h).2

/-- The opcode that the words of a row share whose mask covers it alone (30_encoding.md R94). -/
theorem fieldOpcode_of_masked {w : Word} {opcode : BitVec 7} (h : w &&& 0x0000007F#32 = wordU 0#20 0#5 opcode) :
    fieldOpcode w = opcode := by
  rw [masked_U] at h
  simpa using congrArg fieldOpcode h

/-- The word of a CSRR, its `rs1` field 0 (30_encoding.md R94, R98). -/
theorem wordI_of_masked_csrr {w : Word} {funct3 : BitVec 3} {opcode : BitVec 7}
    (h : w &&& 0x000FF07F#32 = wordI 0#12 0#5 funct3 0#5 opcode) :
    wordI (fieldCsr w) 0#5 funct3 (fieldRd w) opcode = w := by
  rw [masked_csrr] at h
  exact wordI_of_fields_rs1_zero (by simpa using congrArg fieldFunct3 h) (by simpa using congrArg fieldOpcode h)
    (by simpa using congrArg fieldRs1 h)

/-- The word of a CSRW, its `rd` field 0 (30_encoding.md R94, R98). -/
theorem wordI_of_masked_csrw {w : Word} {funct3 : BitVec 3} {opcode : BitVec 7}
    (h : w &&& 0x00007FFF#32 = wordI 0#12 0#5 funct3 0#5 opcode) :
    wordI (fieldCsr w) (fieldRs1 w) funct3 0#5 opcode = w := by
  rw [masked_csrw] at h
  exact wordI_of_fields_rd_zero (by simpa using congrArg fieldFunct3 h) (by simpa using congrArg fieldOpcode h)
    (by simpa using congrArg fieldRd h)

/-- The word of a JR, everything but its `rs1` field fixed (30_encoding.md R94, R181). -/
theorem wordI_of_masked_jr {w : Word} {imm : BitVec 12} {funct3 : BitVec 3} {rd : RegIdx} {opcode : BitVec 7}
    (h : w &&& 0xFFF07FFF#32 = wordI imm 0#5 funct3 rd opcode) : wordI imm (fieldRs1 w) funct3 rd opcode = w := by
  rw [masked_jr] at h
  have himm : fieldImmI w = imm := by simpa using congrArg fieldImmI h
  have hrd : fieldRd w = rd := by simpa using congrArg fieldRd h
  rw [← himm, ← hrd]
  exact wordI_of_fields (by simpa using congrArg fieldFunct3 h) (by simpa using congrArg fieldOpcode h)

/-- The word is that of a well-formed instruction of the row's name (30_encoding.md R94). -/
def isWordOfRow (w : Word) (r : OpcodeRow) : Prop :=
  ∃ i : Instr, encode i = w ∧ i.wf = true ∧ i.mnemonic = r.mnemonic

/-- The word of each instruction holds the fixed bits of a row, its own (30_encoding.md R94). -/
theorem fixedBits (i : Instr) : Laws.FixedBits.Statement i := by
  cases i
  case csrr => exact Laws.FixedBits.csrr _ _
  case csrw => exact Laws.FixedBits.csrw _ _
  case add => exact Laws.FixedBits.add _ _ _
  case sub => exact Laws.FixedBits.sub _ _ _
  case and => exact Laws.FixedBits.and _ _ _
  case or => exact Laws.FixedBits.or _ _ _
  case xor => exact Laws.FixedBits.xor _ _ _
  case slt => exact Laws.FixedBits.slt _ _ _
  case sltu => exact Laws.FixedBits.sltu _ _ _
  case sra => exact Laws.FixedBits.sra _ _ _
  case srl => exact Laws.FixedBits.srl _ _ _
  case sll => exact Laws.FixedBits.sll _ _ _
  case mul => exact Laws.FixedBits.mul _ _ _
  case addi => exact Laws.FixedBits.addi _ _ _
  case andi => exact Laws.FixedBits.andi _ _ _
  case ori => exact Laws.FixedBits.ori _ _ _
  case xori => exact Laws.FixedBits.xori _ _ _
  case slti => exact Laws.FixedBits.slti _ _ _
  case sltiu => exact Laws.FixedBits.sltiu _ _ _
  case srai => exact Laws.FixedBits.srai _ _ _
  case srli => exact Laws.FixedBits.srli _ _ _
  case slli => exact Laws.FixedBits.slli _ _ _
  case lui => exact Laws.FixedBits.lui _ _
  case auipc => exact Laws.FixedBits.auipc _ _
  case lw => exact Laws.FixedBits.lw _ _ _
  case sw => exact Laws.FixedBits.sw _ _ _
  case jal => exact Laws.FixedBits.jal _ _
  case jr => exact Laws.FixedBits.jr _
  case jalr => exact Laws.FixedBits.jalr _ _ _
  case beq => exact Laws.FixedBits.beq _ _ _
  case bne => exact Laws.FixedBits.bne _ _ _
  case blt => exact Laws.FixedBits.blt _ _ _
  case bge => exact Laws.FixedBits.bge _ _ _
  case bltu => exact Laws.FixedBits.bltu _ _ _
  case bgeu => exact Laws.FixedBits.bgeu _ _ _

/-- Every word with the fixed bits of a CSR or register-register row is a word of the row. -/
theorem isWordOfRow_arith {w : Word} {r : OpcodeRow} (hr : r ∈ opcodeTableArith) (h : w &&& r.mask = r.pattern) :
    isWordOfRow w r := by
  simp only [opcodeTableArith, List.mem_cons, List.not_mem_nil, or_false] at hr
  obtain rfl | rfl | rfl | rfl | rfl | rfl | rfl | rfl | rfl | rfl | rfl | rfl | rfl := hr
  · exact ⟨.csrr _ _, wordI_of_masked_csrr h, rfl, rfl⟩
  · exact ⟨.csrw _ _, wordI_of_masked_csrw h, rfl, rfl⟩
  · exact ⟨.add _ _ _, wordR_of_masked h, rfl, rfl⟩
  · exact ⟨.sub _ _ _, wordR_of_masked h, rfl, rfl⟩
  · exact ⟨.and _ _ _, wordR_of_masked h, rfl, rfl⟩
  · exact ⟨.or _ _ _, wordR_of_masked h, rfl, rfl⟩
  · exact ⟨.xor _ _ _, wordR_of_masked h, rfl, rfl⟩
  · exact ⟨.slt _ _ _, wordR_of_masked h, rfl, rfl⟩
  · exact ⟨.sltu _ _ _, wordR_of_masked h, rfl, rfl⟩
  · exact ⟨.sra _ _ _, wordR_of_masked h, rfl, rfl⟩
  · exact ⟨.srl _ _ _, wordR_of_masked h, rfl, rfl⟩
  · exact ⟨.sll _ _ _, wordR_of_masked h, rfl, rfl⟩
  · exact ⟨.mul _ _ _, wordR_of_masked h, rfl, rfl⟩

/-- Every word with the fixed bits of a register-immediate row is a word of the row. -/
theorem isWordOfRow_imm {w : Word} {r : OpcodeRow} (hr : r ∈ opcodeTableImm) (h : w &&& r.mask = r.pattern) :
    isWordOfRow w r := by
  simp only [opcodeTableImm, List.mem_cons, List.not_mem_nil, or_false] at hr
  obtain rfl | rfl | rfl | rfl | rfl | rfl | rfl | rfl | rfl | rfl | rfl := hr
  · exact ⟨.addi _ _ _, wordI_of_masked h, rfl, rfl⟩
  · exact ⟨.andi _ _ _, wordI_of_masked h, rfl, rfl⟩
  · exact ⟨.ori _ _ _, wordI_of_masked h, rfl, rfl⟩
  · exact ⟨.xori _ _ _, wordI_of_masked h, rfl, rfl⟩
  · exact ⟨.slti _ _ _, wordI_of_masked h, rfl, rfl⟩
  · exact ⟨.sltiu _ _ _, wordI_of_masked h, rfl, rfl⟩
  · exact ⟨.srai _ _ _, wordR_of_masked h, rfl, rfl⟩
  · exact ⟨.srli _ _ _, wordR_of_masked h, rfl, rfl⟩
  · exact ⟨.slli _ _ _, wordR_of_masked h, rfl, rfl⟩
  · exact ⟨.lui _ _, wordU_of_fields (fieldOpcode_of_masked h), rfl, rfl⟩
  · exact ⟨.auipc _ _, wordU_of_fields (fieldOpcode_of_masked h), rfl, rfl⟩

/-- Every word with the fixed bits of a memory, jump or branch row is a word of the row, its offset even. -/
theorem isWordOfRow_control {w : Word} {r : OpcodeRow} (hr : r ∈ opcodeTableControl) (h : w &&& r.mask = r.pattern) :
    isWordOfRow w r := by
  simp only [opcodeTableControl, List.mem_cons, List.not_mem_nil, or_false] at hr
  obtain rfl | rfl | rfl | rfl | rfl | rfl | rfl | rfl | rfl | rfl | rfl := hr
  · exact ⟨.lw _ _ _, wordI_of_masked h, rfl, rfl⟩
  · exact ⟨.sw _ _ _, wordS_of_masked h, rfl, rfl⟩
  · exact ⟨.jal _ _, wordJ_of_fields (fieldOpcode_of_masked h), evenOffset_fieldImmJ w, rfl⟩
  · exact ⟨.jr _, wordI_of_masked_jr h, rfl, rfl⟩
  · exact ⟨.jalr _ _ _, wordI_of_masked h, rfl, rfl⟩
  · exact ⟨.beq _ _ _, wordB_of_masked h, evenOffset_fieldImmB w, rfl⟩
  · exact ⟨.bne _ _ _, wordB_of_masked h, evenOffset_fieldImmB w, rfl⟩
  · exact ⟨.blt _ _ _, wordB_of_masked h, evenOffset_fieldImmB w, rfl⟩
  · exact ⟨.bge _ _ _, wordB_of_masked h, evenOffset_fieldImmB w, rfl⟩
  · exact ⟨.bltu _ _ _, wordB_of_masked h, evenOffset_fieldImmB w, rfl⟩
  · exact ⟨.bgeu _ _ _, wordB_of_masked h, evenOffset_fieldImmB w, rfl⟩

/-- Every word with the fixed bits of a row is a word of the row (30_encoding.md R94, R95). -/
theorem isWordOfRow_of_masked {w : Word} {r : OpcodeRow} (hr : r ∈ opcodeTable) (h : w &&& r.mask = r.pattern) :
    isWordOfRow w r := by
  rw [opcodeTable, List.mem_append, List.mem_append] at hr
  obtain (harith | himm) | hcontrol := hr
  · exact isWordOfRow_arith harith h
  · exact isWordOfRow_imm himm h
  · exact isWordOfRow_control hcontrol h

/-- No two rows have the same name. -/
theorem opcodeTable_mnemonic_nodup : (opcodeTable.map OpcodeRow.mnemonic).Nodup := by decide

/-- An instruction of a row's name is in the versions of the row: the row is its own. -/
theorem inVersion_of_mnemonic {i : Instr} {r : OpcodeRow} (hr : r ∈ opcodeTable) (hname : i.mnemonic = r.mnemonic)
    (v : IsaVersion) : i.inVersion v = r.inVersion v := by
  obtain ⟨q, hq, hqname, -, hversions⟩ := fixedBits i
  obtain rfl : q = r := List.inj_on_of_nodup_map opcodeTable_mnemonic_nodup hq hr (hqname.trans hname)
  exact (hversions v).symm

/-- A word with the fixed bits of a row of its version decodes to an instruction of the row's name (30_encoding.md R95). -/
theorem decode_of_row {v : IsaVersion} {w : Word} {r : OpcodeRow} (hr : r ∈ opcodeTable) (hv : r.inVersion v = true)
    (h : w &&& r.mask = r.pattern) : ∃ i, decode v w = .ok i ∧ i.mnemonic = r.mnemonic := by
  obtain ⟨i, hw, hwf, hname⟩ := isWordOfRow_of_masked hr h
  exact ⟨i, decode_eq_ok_iff.2 ⟨hw, hwf, (inVersion_of_mnemonic hr hname v).trans hv⟩, hname⟩

/-- Settles O3: an instruction's word holds the fixed bits of its row, a row's word decodes to its instruction, and two rows of
one word have the name of the one instruction it decodes to. -/
theorem decoderAgreesWithOpcodeTable : Obligations.DecoderAgreesWithOpcodeTable := by
  refine fun v w => ⟨fun i hi => ?_, fun r hr hv h => decode_of_row hr hv h, fun r hr q hq hrv hqv hrw hqw => ?_⟩
  · obtain ⟨rfl, -, hin⟩ := decode_eq_ok_iff.1 hi
    obtain ⟨r, hr, hname, hbits, hversions⟩ := fixedBits i
    exact ⟨r, hr, (hversions v).trans hin, hbits, hname⟩
  · obtain ⟨i, hi, hir⟩ := decode_of_row hr hrv hrw
    obtain ⟨j, hj, hjq⟩ := decode_of_row hq hqv hqw
    cases hi.symm.trans hj
    exact List.inj_on_of_nodup_map opcodeTable_mnemonic_nodup hr hq (hir.symm.trans hjq)

/-! ### The rows as the statements name them -/

/-- A row of the opcode table: it is enough that the built instruction is well formed, is in the versions of the row, and has
the word it is built from (30_encoding.md R94, R95, R102). -/
theorem rowDecodes_of_encode {versions : List IsaVersion} {pattern mask : Word} {built : Word → Instr}
    {line : Word → AsmLine} (hword : ∀ w, w &&& mask = pattern → encode (built w) = w)
    (hwf : ∀ w, (built w).wf = true) (hin : ∀ w v, (built w).inVersion v = true ↔ v ∈ versions)
    (hline : ∀ w, asmLine (built w) = line w) : rowDecodes versions pattern mask built line := by
  refine fun v w hw => ⟨?_, hline w⟩
  rw [decode_eq_ok_iff, hin]
  exact ⟨fun h => h.2.2, fun h => ⟨hword w hw, hwf w, h⟩⟩

/-- The versions of a row of TinyRV2 alone. -/
theorem beq_tinyRV2_iff (v : IsaVersion) : (v == .tinyRV2) = true ↔ v ∈ [IsaVersion.tinyRV2] := by simp

/-! ### The shifts by a constant -/

/-- An arithmetic shift to the right divides the signed value, rounding down (42_reg_imm_arithmetic.md R157). -/
theorem shiftRightArith_toInt (a : Word) (n : BitVec 5) : (shiftRightArith a n).toInt = a.toInt / 2 ^ n.toNat := by
  rw [shiftRightArith, BitVec.toInt_sshiftRight, Int.shiftRight_eq_div_pow]
  push_cast; rfl

/-- A logical shift to the right divides the unsigned value, rounding down (42_reg_imm_arithmetic.md R158). -/
theorem shiftRightLogical_toNat (a : Word) (n : BitVec 5) : (shiftRightLogical a n).toNat = a.toNat / 2 ^ n.toNat := by
  rw [shiftRightLogical, BitVec.toNat_ushiftRight, Nat.shiftRight_eq_div_pow]

/-- A shift to the left multiplies modulo 2^32 (42_reg_imm_arithmetic.md R159). -/
theorem shiftLeftLogical_toNat (a : Word) (n : BitVec 5) :
    (shiftLeftLogical a n).toNat = (a.toNat * 2 ^ n.toNat) % 2 ^ 32 := by
  rw [shiftLeftLogical, BitVec.toNat_shiftLeft, Nat.shiftLeft_eq]

/-- The shifts by a constant have three function codes and no other (42_reg_imm_arithmetic.md R157 to R159). -/
theorem decodeShiftImm_error {w : Word} (h7 : fieldFunct7 w ≠ 0b0000000#7)
    (h : ¬(fieldFunct7 w = 0b0100000#7 ∧ fieldFunct3 w = 0b101#3)) : decodeShiftImm w = .error .unusedFunction := by
  unfold decodeShiftImm
  split
  next h7' h3' => exact absurd ⟨h7', h3'⟩ h
  next h7' _ => exact absurd h7' h7
  next h7' _ => exact absurd h7' h7
  next => rfl

/-- With `funct3` 001 or 101 a word of opcode 0010011 is a shift or nothing. -/
theorem decode_tinyRV2_shiftImm {w : Word} (hop : fieldOpcode w = 0b0010011#7)
    (h3 : fieldFunct3 w = 0b101#3 ∨ fieldFunct3 w = 0b001#3) : decode .tinyRV2 w = decodeShiftImm w := by
  change decodeTinyRV2 w = decodeShiftImm w
  unfold decodeTinyRV2 decodeRegImm
  obtain h3 | h3 := h3
  · rw [hop, h3]; rfl
  · rw [hop, h3]; rfl

/-- A word with the opcode of a shift by a constant and any other function code is no instruction (30_encoding.md R97). -/
theorem decode_ne_ok_of_shift_code (v : IsaVersion) {w : Word} (h7 : fieldFunct7 w ≠ 0b0000000#7)
    (h : (w &&& 0x0000707F#32 = 0x00005013#32 ∧ fieldFunct7 w ≠ 0b0100000#7) ∨ w &&& 0x0000707F#32 = 0x00001013#32)
    (i : Instr) : decode v w ≠ .ok i := by
  have herror : decode .tinyRV2 w = .error .unusedFunction := by
    obtain ⟨hw, hsra⟩ | hw := h
    · obtain ⟨h3, hop⟩ : fieldFunct3 w = 0b101#3 ∧ fieldOpcode w = 0b0010011#7 := fields_of_masked_wordI hw
      rw [decode_tinyRV2_shiftImm hop (.inl h3)]
      exact decodeShiftImm_error h7 fun hcode => hsra hcode.1
    · obtain ⟨h3, hop⟩ : fieldFunct3 w = 0b001#3 ∧ fieldOpcode w = 0b0010011#7 := fields_of_masked_wordI hw
      rw [decode_tinyRV2_shiftImm hop (.inr h3)]
      exact decodeShiftImm_error h7 fun hcode => absurd (h3.symm.trans hcode.2) (by decide)
  exact decode_ne_ok_of_tinyRV2_rejects (by rw [herror]; rfl) v i

/-- Settles O20: the rows by their words, the other codes by the decoder, the results by the three shifts as numbers. -/
theorem constantShiftResults : Obligations.ConstantShiftResults := by
  refine ⟨?_, ?_, ?_, fun v w h7 h => decode_ne_ok_of_shift_code v h7 h, fun rd rs1 shamt s => ⟨?_, ?_, ?_⟩⟩
  · exact rowDecodes_of_encode (fun _ h => wordR_of_masked h) (fun _ => rfl) (fun _ => beq_tinyRV2_iff) fun _ => rfl
  · exact rowDecodes_of_encode (fun _ h => wordR_of_masked h) (fun _ => rfl) (fun _ => beq_tinyRV2_iff) fun _ => rfl
  · exact rowDecodes_of_encode (fun _ h => wordR_of_masked h) (fun _ => rfl) (fun _ => beq_tinyRV2_iff) fun _ => rfl
  · obtain ⟨t, ht, heffect⟩ := shiftImm_next shiftRightArith rd rs1 shamt s
    exact ⟨t, _, ht, heffect, shiftRightArith_toInt _ _⟩
  · obtain ⟨t, ht, heffect⟩ := shiftImm_next shiftRightLogical rd rs1 shamt s
    exact ⟨t, _, ht, heffect, shiftRightLogical_toNat _ _⟩
  · obtain ⟨t, ht, heffect⟩ := shiftImm_next shiftLeftLogical rd rs1 shamt s
    exact ⟨t, _, ht, heffect, shiftLeftLogical_toNat _ _⟩

/-! ### The immediates -/

/-- Sign extension of a concatenation extends its high part. -/
theorem signExtend_append {m n k : Nat} (hm : 0 < m) (x : BitVec m) (y : BitVec n) :
    (x ++ y).signExtend (k + n) = x.signExtend k ++ y := by
  apply BitVec.eq_of_getLsbD_eq
  intro j hj
  have hmsb : (x ++ y).msb = x.msb := by rw [BitVec.msb_append, if_neg hm.ne']
  rw [BitVec.getLsbD_signExtend, BitVec.getLsbD_append, BitVec.getLsbD_append, BitVec.getLsbD_signExtend, hmsb]
  by_cases hlow : j < n
  · rw [if_pos hlow, if_pos hlow, if_pos (by omega)]
    simp [hj]
  · rw [if_neg hlow, if_neg hlow]
    have hk : j - n < k := by omega
    have hin : j < m + n ↔ j - n < m := by omega
    simp [hj, hk, hin]

/-- The fields of the I-immediate, as the diagram cuts them (30_encoding.md R85). -/
theorem fieldImmI_eq (w : Word) :
    fieldImmI w = w.extractLsb' 31 1 ++ w.extractLsb' 25 6 ++ w.extractLsb' 21 4 ++ w.extractLsb' 20 1 := by
  rw [slice_join w (by decide), slice_join w (by decide), slice_join w (by decide)]
  rfl

/-- The fields of the S-immediate, as the diagram cuts them (30_encoding.md R86). -/
theorem fieldImmS_eq (w : Word) :
    fieldImmS w = w.extractLsb' 31 1 ++ w.extractLsb' 25 6 ++ w.extractLsb' 8 4 ++ w.extractLsb' 7 1 := by
  have hlow : w.extractLsb' 7 5 = w.extractLsb' 8 4 ++ w.extractLsb' 7 1 := by
    rw [slice_join w (by decide)]
  rw [fieldImmS, hlow, slice_join w (a := 31) (b := 25) (m := 1) (n := 6) rfl]
  exact BitVec.append_assoc'

/-- The fields of the J-immediate, as the diagram cuts them (30_encoding.md R89). -/
theorem fieldImmJ_eq (w : Word) : fieldImmJ w =
    w.extractLsb' 31 1 ++ w.extractLsb' 12 8 ++ w.extractLsb' 20 1 ++ w.extractLsb' 25 6 ++ w.extractLsb' 21 4 ++ 0#1 := by
  have hmid : w.extractLsb' 21 10 = w.extractLsb' 25 6 ++ w.extractLsb' 21 4 := by
    rw [slice_join w (by decide)]
  rw [fieldImmJ, hmid]
  exact congrArg (· ++ 0#1) BitVec.append_assoc'

/-- The I-immediate of a word, by the diagram (30_encoding.md R85). -/
theorem imm12_fieldImmI (w : Word) : imm12 (fieldImmI w) =
    (w.extractLsb' 31 1).signExtend 21 ++ w.extractLsb' 25 6 ++ w.extractLsb' 21 4 ++ w.extractLsb' 20 1 := by
  rw [imm12, fieldImmI_eq, signExtend_append (k := 31) (n := 1), signExtend_append (k := 27) (n := 4),
    signExtend_append (k := 21) (n := 6)]
  all_goals decide

/-- The S-immediate of a word, by the diagram (30_encoding.md R86). -/
theorem imm12_fieldImmS (w : Word) : imm12 (fieldImmS w) =
    (w.extractLsb' 31 1).signExtend 21 ++ w.extractLsb' 25 6 ++ w.extractLsb' 8 4 ++ w.extractLsb' 7 1 := by
  rw [imm12, fieldImmS_eq, signExtend_append (k := 31) (n := 1), signExtend_append (k := 27) (n := 4),
    signExtend_append (k := 21) (n := 6)]
  all_goals decide

/-- The B-immediate of a word, by the diagram (30_encoding.md R87). -/
theorem immB_fieldImmB (w : Word) : immB (fieldImmB w) =
    (w.extractLsb' 31 1).signExtend 20 ++ w.extractLsb' 7 1 ++ w.extractLsb' 25 6 ++ w.extractLsb' 8 4 ++ 0#1 := by
  rw [immB, fieldImmB, signExtend_append (k := 31) (n := 1), signExtend_append (k := 27) (n := 4),
    signExtend_append (k := 21) (n := 6), signExtend_append (k := 20) (n := 1)]
  all_goals decide

/-- The J-immediate of a word, by the diagram (30_encoding.md R89). -/
theorem immJ_fieldImmJ (w : Word) : immJ (fieldImmJ w) =
    (w.extractLsb' 31 1).signExtend 12 ++ w.extractLsb' 12 8 ++ w.extractLsb' 20 1 ++ w.extractLsb' 25 6 ++
      w.extractLsb' 21 4 ++ 0#1 := by
  rw [immJ, fieldImmJ_eq, signExtend_append (k := 31) (n := 1), signExtend_append (k := 27) (n := 4),
    signExtend_append (k := 21) (n := 6), signExtend_append (k := 20) (n := 1), signExtend_append (k := 12) (n := 8)]
  all_goals decide

/-- The range of a 12-bit immediate (30_encoding.md R85, R86). -/
theorem imm12_range (imm : BitVec 12) : -2048 ≤ (imm12 imm).toInt ∧ (imm12 imm).toInt ≤ 2047 := by
  rw [imm12_toInt]
  exact ⟨BitVec.le_toInt imm, BitVec.toInt_le⟩

/-- The range of a number with a 0 bit appended, which is twice the number. -/
theorem append_zero_range {n : Nat} (x : BitVec (n + 1)) :
    -2 ^ (n + 1) ≤ (x ++ 0#1).toInt ∧ (x ++ 0#1).toInt ≤ 2 ^ (n + 1) - 2 := by
  have hlow : -2 ^ n ≤ x.toInt := BitVec.le_toInt x
  have hhigh : x.toInt ≤ 2 ^ n - 1 := BitVec.toInt_le
  rw [BitVec.toInt_append_zero, pow_succ]
  omega

/-- The range of a decoded branch offset (30_encoding.md R87). -/
theorem immB_fieldImmB_range (w : Word) :
    -4096 ≤ (immB (fieldImmB w)).toInt ∧ (immB (fieldImmB w)).toInt ≤ 4094 := by
  rw [immB_toInt]
  exact append_zero_range (n := 11) _

/-- The range of a decoded jump offset (30_encoding.md R89). -/
theorem immJ_fieldImmJ_range (w : Word) :
    -1048576 ≤ (immJ (fieldImmJ w)).toInt ∧ (immJ (fieldImmJ w)).toInt ≤ 1048574 := by
  rw [immJ_toInt]
  exact append_zero_range (n := 19) _

/-- Settles O4: each diagram, and the range of the field it extends. -/
theorem immediateDiagrams : Obligations.ImmediateDiagrams :=
  fun w => ⟨⟨imm12_fieldImmI w, imm12_range _⟩, ⟨imm12_fieldImmS w, imm12_range _⟩,
    ⟨immB_fieldImmB w, immB_fieldImmB_range w⟩, rfl, immJ_fieldImmJ w, immJ_fieldImmJ_range w⟩

/-! ### Assembly -/

/-- The signed value of a field is read back as the field (30_encoding.md R102, R103). -/
theorem signedField_toInt {n : Nat} (x : BitVec n) : signedField n x.toInt = some x := by
  simp [signedField]

/-- The unsigned value of a field is read back as the field (30_encoding.md R102, R103). -/
theorem unsignedField_toNat {n : Nat} (x : BitVec n) : unsignedField n x.toNat = some x := by
  simp [unsignedField]

/-- The line of an instruction the version has stands for it, shape of line by shape of line (30_encoding.md R102). -/
theorem assembleAny_asmLine {v : IsaVersion} {i : Instr} (hin : i.inVersion v = true) :
    assembleAny v (asmLine i) = some i := by
  cases i
  case add | sub | and | or | xor | slt | sltu | sra | srl | sll | mul => rfl
  case addi | andi | ori | xori | slti | sltiu | jalr =>
    simp [assembleAny, asmLine, assembleRegRegNum, asmRegImm, signedField_toInt]
  case srai | srli | slli =>
    simp [assembleAny, asmLine, assembleRegRegNum, asmRegImm, asmShiftImm, unsignedField_toNat]
  case beq | bne | blt | bge | bltu | bgeu =>
    simp [assembleAny, asmLine, assembleRegRegNum, asmRegImm, asmShiftImm, asmBranch, signedField_toInt]
  case lui | auipc => simp [assembleAny, asmLine, assembleRegNum, asmUpper, unsignedField_toNat]
  case csrr => simp [assembleAny, asmLine, assembleRegNum, unsignedField_toNat]
  case jal => simp [assembleAny, asmLine, assembleRegNum, signedField_toInt]
  case csrw => simp [assembleAny, asmLine, unsignedField_toNat]
  case lw | sw => simp [assembleAny, asmLine, assembleMem, signedField_toInt]
  case jr rs1 =>
    obtain rfl : v = .tinyRV1 := beq_iff_eq.1 hin
    rfl

/-- Settles O58: the check of the version and of an odd offset passes. -/
theorem assemblingALineGivesItsInstruction : Obligations.AssemblingALineGivesItsInstruction := by
  intro v i hwf hin
  simp [assemble, assembleAny_asmLine hin, hwf, hin]

end Sys2Proof.Machine

/-! The settled statement of the family of the CSR instructions: the example words of the spec (O5). -/

namespace Sys2Proof.Machine

/-! ### Example words -/

/-- Settles O5: each word is the encoding of its instruction, which is well formed and in the version. -/
theorem exampleWordsDecode : Obligations.ExampleWordsDecode := by
  refine ⟨?_, ?_, ?_, ?_, ?_, ?_⟩
  all_goals exact decode_eq_ok_iff.2 ⟨rfl, rfl, rfl⟩

end Sys2Proof.Machine

/-! The settled statements of the family of register-register arithmetic: sums, differences and products (O12, O13), the bitwise
operations (O14), the comparisons (O15) and the shifts by a register (O16). -/

namespace Sys2Proof.Machine

/-! ### The register-register shape -/

/-! Each instruction as `regReg` of its own function of the two sources (41_reg_reg_arithmetic.md R131 to R141). -/

section
variable (rd rs1 rs2 : RegIdx) (s : State)

theorem exec_add : exec (.add rd rs1 rs2) s = regReg (fun a b => a + b) rd rs1 rs2 s := rfl
theorem exec_sub : exec (.sub rd rs1 rs2) s = regReg (fun a b => a - b) rd rs1 rs2 s := rfl
theorem exec_mul : exec (.mul rd rs1 rs2) s = regReg (fun a b => a * b) rd rs1 rs2 s := rfl
theorem exec_and : exec (.and rd rs1 rs2) s = regReg (fun a b => a &&& b) rd rs1 rs2 s := rfl
theorem exec_or : exec (.or rd rs1 rs2) s = regReg (fun a b => a ||| b) rd rs1 rs2 s := rfl
theorem exec_xor : exec (.xor rd rs1 rs2) s = regReg (fun a b => a ^^^ b) rd rs1 rs2 s := rfl
theorem exec_slt : exec (.slt rd rs1 rs2) s = regReg (fun a b => boolWord (lessSigned a b)) rd rs1 rs2 s := rfl
theorem exec_sltu : exec (.sltu rd rs1 rs2) s = regReg (fun a b => boolWord (lessUnsigned a b)) rd rs1 rs2 s := rfl
theorem exec_sra : exec (.sra rd rs1 rs2) s = regReg (fun a b => shiftRightArith a (shiftAmount b)) rd rs1 rs2 s := rfl
theorem exec_srl : exec (.srl rd rs1 rs2) s =
    regReg (fun a b => shiftRightLogical a (shiftAmount b)) rd rs1 rs2 s := rfl
theorem exec_sll : exec (.sll rd rs1 rs2) s = regReg (fun a b => shiftLeftLogical a (shiftAmount b)) rd rs1 rs2 s := rfl

end

/-- An instruction of the register-register shape completes and only writes the value of its function to its destination: what
holds of that value holds of what it writes. -/
theorem exec_writes_of_regReg {i : Instr} {f : Word → Word → Word} {rd rs1 rs2 : RegIdx} {s : State} {P : Word → Prop}
    (hexec : exec i s = regReg f rd rs1 rs2 s) (h : P (f (s.getX rs1) (s.getX rs2))) :
    ∃ t v, exec i s = .next t ∧ onlyWrites s t rd v ∧ P v := by
  obtain ⟨t, ht, heffect⟩ := regReg_next f rd rs1 rs2 s
  exact ⟨t, _, hexec.trans ht, heffect, h⟩

/-- Every version is one of the two (00_scope.md R2). -/
theorem mem_versions (v : IsaVersion) : v ∈ [IsaVersion.tinyRV1, IsaVersion.tinyRV2] := by cases v <;> simp

/-! ### ADD, SUB and MUL -/

/-- A difference is that of the unsigned values modulo 2^32 (41_reg_reg_arithmetic.md R130, R132). -/
theorem toNat_sub_emod (a b : Word) : ((a - b).toNat : Int) = (a.toNat - b.toNat : Int) % 2 ^ 32 := by
  have hsub := BitVec.toNat_sub a b
  have hb := b.isLt
  omega

/-- Settles O12: the rows by their words, the results as sum, difference and product of unsigned values. -/
theorem addSubMulResults : Obligations.AddSubMulResults := by
  refine ⟨?add, ?sub, ?mul, fun rd rs1 rs2 s => ⟨?sum, ?difference, ?product⟩⟩
  case add | mul =>
    exact rowDecodes_of_encode (fun _ h => wordR_of_masked h) (fun _ => rfl) (fun _ v => iff_of_true rfl (mem_versions v))
      fun _ => rfl
  case sub =>
    exact rowDecodes_of_encode (fun _ h => wordR_of_masked h) (fun _ => rfl) (fun _ => beq_tinyRV2_iff) fun _ => rfl
  case sum => exact exec_writes_of_regReg (exec_add rd rs1 rs2 s) (BitVec.toNat_add _ _)
  case difference => exact exec_writes_of_regReg (exec_sub rd rs1 rs2 s) (toNat_sub_emod _ _)
  case product => exact exec_writes_of_regReg (exec_mul rd rs1 rs2 s) (BitVec.toNat_mul _ _)

/-- A product is that of the signed values modulo 2^32 (41_reg_reg_arithmetic.md R142). -/
theorem toNat_mul_signed (a b : Word) : ((a * b).toNat : Int) = (a.toInt * b.toInt) % 2 ^ 32 := by
  rw [toNat_eq_toInt_emod, BitVec.toInt_mul]
  exact Int.bmod_emod

/-- A product of signed values that a word can hold is the product (41_reg_reg_arithmetic.md R142). -/
theorem toInt_mul_of_fits {a b : Word} (hmin : -2 ^ 31 ≤ a.toInt * b.toInt) (hmax : a.toInt * b.toInt < 2 ^ 31) :
    (a * b).toInt = a.toInt * b.toInt := by
  rw [BitVec.toInt_mul]
  exact Int.bmod_eq_of_le (by simpa using hmin) (by simpa using hmax)

/-- Settles O13: the product modulo 2^32, and that of signed values where it fits. -/
theorem multiplySignedLaw : Obligations.MultiplySignedLaw :=
  fun rd rs1 rs2 s => exec_writes_of_regReg (exec_mul rd rs1 rs2 s) ⟨toNat_mul_signed _ _, toInt_mul_of_fits⟩

/-! ### AND, OR and XOR -/

/-- Settles O14: the rows by their words, the results bit by bit. -/
theorem logicalResults : Obligations.LogicalResults := by
  refine ⟨?and, ?or, ?xor, fun rd rs1 rs2 s => ⟨?both, ?either, ?differ⟩⟩
  case and | or | xor =>
    exact rowDecodes_of_encode (fun _ h => wordR_of_masked h) (fun _ => rfl) (fun _ => beq_tinyRV2_iff) fun _ => rfl
  case both => exact exec_writes_of_regReg (exec_and rd rs1 rs2 s) fun _ _ => BitVec.getLsbD_and
  case either => exact exec_writes_of_regReg (exec_or rd rs1 rs2 s) fun _ _ => BitVec.getLsbD_or
  case differ => exact exec_writes_of_regReg (exec_xor rd rs1 rs2 s) fun _ _ => BitVec.getLsbD_xor

/-! ### SLT and SLTU -/

/-- The word of a comparison is 1 where it holds and 0 where it does not (41_reg_reg_arithmetic.md R136). -/
theorem boolWord_decide (p : Prop) [Decidable p] :
    (p → boolWord (decide p) = 1#32) ∧ (¬p → boolWord (decide p) = 0#32) := by
  constructor <;> intro h <;> simp [boolWord, h]

/-- Settles O15: the rows by their words, the results by the two outcomes of a comparison. -/
theorem comparisonResults : Obligations.ComparisonResults := by
  refine ⟨?slt, ?sltu, fun rd rs1 rs2 s => ⟨?signed, ?unsigned⟩⟩
  case slt | sltu =>
    exact rowDecodes_of_encode (fun _ h => wordR_of_masked h) (fun _ => rfl) (fun _ => beq_tinyRV2_iff) fun _ => rfl
  case signed => exact exec_writes_of_regReg (exec_slt rd rs1 rs2 s) (boolWord_decide _)
  case unsigned => exact exec_writes_of_regReg (exec_sltu rd rs1 rs2 s) (boolWord_decide _)

/-! ### SRA, SRL and SLL -/

/-- Settles O16: the rows by their words, the results by the three shifts as numbers, each by the bottom five bits of
`x[rs2]`. -/
theorem registerShiftResults : Obligations.RegisterShiftResults := by
  refine ⟨?sra, ?srl, ?sll, fun rd rs1 rs2 s => ?_⟩
  case sra | srl | sll =>
    exact rowDecodes_of_encode (fun _ h => wordR_of_masked h) (fun _ => rfl) (fun _ => beq_tinyRV2_iff) fun _ => rfl
  rw [← shiftAmount_toNat (s.getX rs2)]
  exact ⟨exec_writes_of_regReg (exec_sra rd rs1 rs2 s) (shiftRightArith_toInt _ _),
    exec_writes_of_regReg (exec_srl rd rs1 rs2 s) (shiftRightLogical_toNat _ _),
    exec_writes_of_regReg (exec_sll rd rs1 rs2 s) (shiftLeftLogical_toNat _ _)⟩

end Sys2Proof.Machine

/-! The settled statements of the family of register-immediate arithmetic: sums (O17), the bitwise operations (O18), the
comparisons (O19), and the upper immediates with LUI then ADDI (O21). -/

namespace Sys2Proof.Machine

/-! ### Writing one register -/

/-- An instruction that ends in `writeBack` completes and only writes the value to its destination: what holds of the value
holds of what it writes. -/
theorem exec_writes_of_writeBack {i : Instr} {rd : RegIdx} {v : Word} {s : State} {P : Word → Prop}
    (hexec : exec i s = writeBack rd v s) (h : P v) : ∃ t u, exec i s = .next t ∧ onlyWrites s t rd u ∧ P u :=
  ⟨_, v, hexec, onlyWrites_setX_advance s rd v, h⟩

/-! The value each instruction writes (42_reg_imm_arithmetic.md R151 to R156, R160, R161). -/

section
variable (rd rs1 : RegIdx) (imm : BitVec 12) (field : BitVec 20) (s : State)

theorem exec_addi : exec (.addi rd rs1 imm) s = writeBack rd (s.getX rs1 + imm12 imm) s := rfl
theorem exec_andi : exec (.andi rd rs1 imm) s = writeBack rd (s.getX rs1 &&& imm12 imm) s := rfl
theorem exec_ori : exec (.ori rd rs1 imm) s = writeBack rd (s.getX rs1 ||| imm12 imm) s := rfl
theorem exec_xori : exec (.xori rd rs1 imm) s = writeBack rd (s.getX rs1 ^^^ imm12 imm) s := rfl
theorem exec_slti : exec (.slti rd rs1 imm) s = writeBack rd (boolWord (lessSigned (s.getX rs1) (imm12 imm))) s := rfl
theorem exec_sltiu : exec (.sltiu rd rs1 imm) s =
    writeBack rd (boolWord (lessUnsigned (s.getX rs1) (imm12 imm))) s := rfl
theorem exec_lui : exec (.lui rd field) s = writeBack rd (immU field) s := rfl
theorem exec_auipc : exec (.auipc rd field) s = writeBack rd (s.pc + immU field) s := rfl

end

/-! ### ADDI -/

/-- A sum with an immediate is that with its signed value modulo 2^32 (42_reg_imm_arithmetic.md R151). -/
theorem toNat_add_imm12 (a : Word) (imm : BitVec 12) :
    ((a + imm12 imm).toNat : Int) = (a.toNat + imm.toInt) % 2 ^ 32 := by
  rw [toNat_add_signed, imm12_toInt]

/-- Settles O17: the row by its words, the result as the sum with the signed immediate. -/
theorem addImmediateResult : Obligations.AddImmediateResult := by
  refine ⟨?row, fun rd rs1 imm s => ?sum⟩
  case row =>
    exact rowDecodes_of_encode (fun _ h => wordI_of_masked h) (fun _ => rfl) (fun _ v => iff_of_true rfl (mem_versions v))
      fun _ => rfl
  case sum => exact exec_writes_of_writeBack (exec_addi rd rs1 imm s) (toNat_add_imm12 _ _)

/-! ### ANDI, ORI and XORI -/

/-- Bit 11 of an immediate stands for every bit above it (42_reg_imm_arithmetic.md R150). -/
theorem getLsbD_imm12 (imm : BitVec 12) {k : Nat} (hk : k < 32) : (imm12 imm).getLsbD k = imm.getLsbD (min k 11) := by
  rw [imm12, BitVec.getLsbD_signExtend, decide_eq_true hk, Bool.true_and]
  split
  next hlow => rw [min_eq_left (Nat.le_of_lt_succ hlow)]
  next hhigh => rw [min_eq_right (by omega), BitVec.msb_eq_getLsbD_last]

/-- Settles O18: the rows by their words, the results bit by bit. -/
theorem logicalImmediateResults : Obligations.LogicalImmediateResults := by
  refine ⟨?andi, ?ori, ?xori, fun rd rs1 imm s => ⟨?both, ?either, ?differ⟩⟩
  case andi | ori | xori =>
    exact rowDecodes_of_encode (fun _ h => wordI_of_masked h) (fun _ => rfl) (fun _ => beq_tinyRV2_iff) fun _ => rfl
  case both =>
    exact exec_writes_of_writeBack (exec_andi rd rs1 imm s) fun _ hk => getLsbD_imm12 imm hk ▸ BitVec.getLsbD_and
  case either =>
    exact exec_writes_of_writeBack (exec_ori rd rs1 imm s) fun _ hk => getLsbD_imm12 imm hk ▸ BitVec.getLsbD_or
  case differ =>
    exact exec_writes_of_writeBack (exec_xori rd rs1 imm s) fun _ hk => getLsbD_imm12 imm hk ▸ BitVec.getLsbD_xor

/-! ### SLTI and SLTIU -/

/-- A signed comparison with an immediate is that with its signed value (42_reg_imm_arithmetic.md R155). -/
theorem lessSigned_imm12 (a : Word) (imm : BitVec 12) : lessSigned a (imm12 imm) = decide (a.toInt < imm.toInt) := by
  rw [lessSigned, imm12_toInt]

/-- An unsigned comparison with an immediate is that with its signed value modulo 2^32 (42_reg_imm_arithmetic.md R156). -/
theorem lessUnsigned_imm12 (a : Word) (imm : BitVec 12) :
    lessUnsigned a (imm12 imm) = decide ((a.toNat : Int) < imm.toInt % 2 ^ 32) := by
  rw [lessUnsigned, decide_eq_decide, ← imm12_toInt, ← toNat_eq_toInt_emod, Int.ofNat_lt]

/-- Settles O19: the rows by their words, the results by the two outcomes of a comparison with the immediate. -/
theorem comparisonImmediateResults : Obligations.ComparisonImmediateResults := by
  refine ⟨?slti, ?sltiu, fun rd rs1 imm s => ⟨?signed, ?unsigned⟩⟩
  case slti | sltiu =>
    exact rowDecodes_of_encode (fun _ h => wordI_of_masked h) (fun _ => rfl) (fun _ => beq_tinyRV2_iff) fun _ => rfl
  case signed =>
    exact exec_writes_of_writeBack (exec_slti rd rs1 imm s) (by rw [lessSigned_imm12]; exact boolWord_decide _)
  case unsigned =>
    exact exec_writes_of_writeBack (exec_sltiu rd rs1 imm s) (by rw [lessUnsigned_imm12]; exact boolWord_decide _)

/-! ### LUI and AUIPC -/

/-- A sum with a U-immediate is that with its field times 4096, modulo 2^32 (42_reg_imm_arithmetic.md R161). -/
theorem toNat_add_immU (a : Word) (field : BitVec 20) :
    (a + immU field).toNat = (a.toNat + field.toNat * 4096) % 2 ^ 32 := by
  rw [BitVec.toNat_add, immU_toNat]

/-! ### LUI then ADDI -/

/-- Adding 0x800 to an immediate makes it a sum of 12 bits: the bits above, copies of the sign, are cancelled by the carry
(42_reg_imm_arithmetic.md R160). -/
theorem imm12_add_0x800 (low : BitVec 12) : imm12 low + 0x800#32 = 0#20 ++ (low + 0x800#12) := by
  have hword : ((0x800#32 + imm12 low).toNat : Int) = (2048 + low.toInt) % 2 ^ 32 := toNat_add_imm12 _ low
  have hfield : (low + 0x800#12).toNat = (low.toNat + 2048) % 2 ^ 12 := BitVec.toNat_add low _
  have hsigned := BitVec.toInt_eq_toNat_cond low
  have hlow := low.isLt
  apply BitVec.eq_of_toNat_eq
  rw [BitVec.add_comm, BitVec.toNat_append, BitVec.toNat_zero, Nat.zero_shiftLeft, Nat.zero_or]
  split at hsigned <;> omega

/-- A word is two fields next to each other when they are its top 20 and its low 12 bits. -/
theorem append_eq_word_iff {high : BitVec 20} {low : BitVec 12} {w : Word} :
    high ++ low = w ↔ high = w.extractLsb' 12 20 ∧ low = w.extractLsb' 0 12 := by
  constructor
  · rintro rfl
    exact ⟨BitVec.extractLsb'_append_eq_left.symm, BitVec.extractLsb'_append_eq_right.symm⟩
  · rintro ⟨rfl, rfl⟩
    rw [slice_join w (by decide)]
    exact BitVec.extractLsb'_eq_self

/-- The one field and the one immediate that add up to a constant: adding 0x800 to both sides makes the sum two fields next to
each other (42_reg_imm_arithmetic.md R160). -/
theorem immU_add_imm12_eq_iff {field : BitVec 20} {low : BitVec 12} {k : Word} :
    immU field + imm12 low = k ↔ field = (k + 0x800#32).extractLsb' 12 20 ∧ low = k.extractLsb' 0 12 :=
  calc immU field + imm12 low = k
    _ ↔ immU field + imm12 low + 0x800#32 = k + 0x800#32 := (BitVec.add_left_inj _).symm
    _ ↔ field ++ (low + 0x800#12) = k + 0x800#32 := by
      rw [BitVec.add_assoc, imm12_add_0x800, immU, BitVec.append_zero_add_zero_append]
    _ ↔ field = (k + 0x800#32).extractLsb' 12 20 ∧ low + 0x800#12 = (k + 0x800#32).extractLsb' 0 12 :=
      append_eq_word_iff
    _ ↔ field = (k + 0x800#32).extractLsb' 12 20 ∧ low = k.extractLsb' 0 12 := by
      rw [BitVec.extractLsb'_add (by decide), show (0x800#32).extractLsb' 0 12 = 0x800#12 by decide,
        BitVec.add_left_inj]

/-- After `writeBack` to a register other than x0 the register has the value (10_state.md R21, R23). -/
theorem getX_of_writeBack {rd : RegIdx} {v : Word} {s t : State} (hrd : rd ≠ 0#5) (h : writeBack rd v s = .next t) :
    t.getX rd = v := by
  cases h
  rw [getX_advance, getX_setX, if_neg hrd, if_pos rfl]

/-- LUI then ADDI leave the sum of the two immediates in the register (42_reg_imm_arithmetic.md R160). -/
theorem exec_lui_addi_iff {rd : RegIdx} (hrd : rd ≠ 0#5) (field : BitVec 20) (low : BitVec 12) (s : State) (k : Word) :
    (∃ t u, exec (.lui rd field) s = .next t ∧ exec (.addi rd rd low) t = .next u ∧ u.getX rd = k) ↔
      immU field + imm12 low = k := by
  have hsum : ∀ t u, exec (.lui rd field) s = .next t → exec (.addi rd rd low) t = .next u →
      u.getX rd = immU field + imm12 low := fun t u hlui haddi => by
    rw [getX_of_writeBack hrd haddi, getX_of_writeBack hrd hlui]
  constructor
  · rintro ⟨t, u, hlui, haddi, hk⟩
    exact (hsum t u hlui haddi).symm.trans hk
  · exact fun hk => ⟨_, _, rfl, rfl, (hsum _ _ rfl rfl).trans hk⟩

/-- Settles O21: the rows by their words, the results as sums with the field times 4096, and the constants that LUI then ADDI
build as the sums of the two immediates. -/
theorem upperImmediateResults : Obligations.UpperImmediateResults := by
  refine ⟨?lui, ?auipc, fun rd field s => ⟨?upper, ?pcRelative, fun low k hrd => ?constant⟩⟩
  case lui | auipc =>
    exact rowDecodes_of_encode (fun _ h => wordU_of_fields (fieldOpcode_of_masked h)) (fun _ => rfl)
      (fun _ => beq_tinyRV2_iff) fun _ => rfl
  case upper => exact exec_writes_of_writeBack (exec_lui rd field s) (immU_toNat field)
  case pcRelative => exact exec_writes_of_writeBack (exec_auipc rd field s) (toNat_add_immU _ _)
  case constant => exact (exec_lui_addi_iff hrd field low s k).trans immU_add_imm12_eq_iff

end Sys2Proof.Machine

/-! The settled statement on the effective address of LW and SW (O22): it is the sum that ADDI writes, so it wraps around as
that does (43_memory_instructions.md R172). -/

namespace Sys2Proof.Machine

/-- Settles O22: the effective address is a sum with a sign-extended immediate. -/
theorem effectiveAddressWraps : Obligations.EffectiveAddressWraps := by
  intro s rs1 imm
  rw [effectiveAddress]
  exact toNat_add_imm12 (s.getX rs1) imm

end Sys2Proof.Machine

/-! The settled statements of the family of jumps: JAL (O33) and the JR of a TinyRV1 machine (O35). -/

namespace Sys2Proof.Machine

/-! ### JAL -/

/-- The target of JAL as a number (44_jump_instructions.md R180). -/
theorem toNat_add_immJ (pc : Word) (offset : BitVec 21) :
    ((pc + immJ offset).toNat : Int) = (pc.toNat + offset.toInt) % 2 ^ 32 := by
  rw [toNat_add_signed, immJ_toInt]

/-- JAL links and jumps in every state (44_jump_instructions.md R180). -/
theorem exec_jal (rd : RegIdx) (offset : BitVec 21) (s : State) :
    exec (.jal rd offset) s = linkAndJump rd (s.pc + immJ offset) s := rfl

/-- Settles O33: the row by its words, whose offset is even, and the effect by what `linkAndJump` can do. -/
theorem jumpAndLinkResult : Obligations.JumpAndLinkResult := by
  refine ⟨?row, fun rd offset s => ?jump⟩
  case row =>
    exact rowDecodes_of_encode (fun _ h => wordJ_of_fields (fieldOpcode_of_masked h)) evenOffset_fieldImmJ
      (fun _ v => iff_of_true rfl (mem_versions v)) fun _ => rfl
  case jump =>
    obtain ⟨t, ht, hlink, hpc, hkeep⟩ := linkAndJump_next rd (s.pc + immJ offset) s
    exact ⟨t, (exec_jal rd offset s).trans ht, hlink, hpc ▸ toNat_add_immJ s.pc offset, hkeep⟩

/-! ### JR on a TinyRV1 machine -/

/-- The versions of a row of TinyRV1 alone. -/
theorem beq_tinyRV1_iff (v : IsaVersion) : (v == .tinyRV1) = true ↔ v ∈ [IsaVersion.tinyRV1] := by simp

/-- Bit 0 of a word says whether it is odd. -/
theorem getLsbD_zero_eq_decide_odd (t : Word) : t.getLsbD 0 = decide (t.toNat % 2 = 1) := Nat.testBit_zero t.toNat

/-- A JR to an odd target faults on a TinyRV1 machine (44_jump_instructions.md R181, 92_eei_decisions.md D20). -/
theorem exec_jr_tinyRV1_of_odd {rs1 : RegIdx} {s : State} (hv : s.cfg.isaVersion = .tinyRV1)
    (hodd : (s.getX rs1).getLsbD 0 = true) : exec (.jr rs1) s = .fault (.jrTargetOdd (s.getX rs1)) := by
  change execJr rs1 s = _
  unfold execJr
  simp only [hv, hodd, if_true, raiseFault]

/-- Settles O35: the row by its words, the effect by bit 0 of the target. -/
theorem jumpRegisterResult : Obligations.JumpRegisterResult := by
  refine ⟨?row, fun rs1 s hv => ⟨fun heven => ?goes, fun hodd => ?faults⟩⟩
  case row =>
    exact rowDecodes_of_encode (fun _ h => wordI_of_masked_jr h) (fun _ => rfl) (fun _ => beq_tinyRV1_iff) fun _ => rfl
  case goes =>
    have hbit : (s.getX rs1).getLsbD 0 = false := by rw [getLsbD_zero_eq_decide_odd, heven]; rfl
    exact ⟨_, (exec_jr_tinyRV1_next hv).2 ⟨hbit, rfl⟩, onlySetsPc_setPc s (s.getX rs1)⟩
  case faults =>
    have hbit : (s.getX rs1).getLsbD 0 = true := by rw [getLsbD_zero_eq_decide_odd, hodd]; rfl
    exact exec_jr_tinyRV1_of_odd hv hbit

end Sys2Proof.Machine

/-! The settled statements of the family of branches: those on equality (O37), on the signed comparison (O38) and on the
unsigned one (O39). -/

namespace Sys2Proof.Machine

/-! ### The branch shape -/

/-! Each instruction as `branchIf` of its own condition on the two sources (45_branch_instructions.md R191 to R196). -/

section
variable (rs1 rs2 : RegIdx) (offset : BitVec 13) (s : State)

theorem exec_beq : exec (.beq rs1 rs2 offset) s = branchIf (s.getX rs1 == s.getX rs2) offset s := rfl
theorem exec_bne : exec (.bne rs1 rs2 offset) s = branchIf (s.getX rs1 != s.getX rs2) offset s := rfl
theorem exec_blt : exec (.blt rs1 rs2 offset) s = branchIf (lessSigned (s.getX rs1) (s.getX rs2)) offset s := rfl
theorem exec_bge : exec (.bge rs1 rs2 offset) s = branchIf (geSigned (s.getX rs1) (s.getX rs2)) offset s := rfl
theorem exec_bltu : exec (.bltu rs1 rs2 offset) s = branchIf (lessUnsigned (s.getX rs1) (s.getX rs2)) offset s := rfl
theorem exec_bgeu : exec (.bgeu rs1 rs2 offset) s = branchIf (geUnsigned (s.getX rs1) (s.getX rs2)) offset s := rfl

end

section
variable {i : Instr} {c : Bool} {offset : BitVec 13} {s : State} {p : Prop} [Decidable p]

/-- A branch taken exactly when `p` holds completes and only sets `pc` (45_branch_instructions.md R190). -/
theorem exec_branches_if (hexec : exec i s = branchIf c offset s) (hc : c = true ↔ p) :
    ∃ t, exec i s = .next t ∧
      onlySetsPc s t (if p then s.pc + offset.signExtend 32 else s.pc + 4#32) := by
  obtain ⟨t, ht, heffect⟩ := branchIf_next c offset s
  rw [if_congr hc rfl rfl] at heffect
  exact ⟨t, hexec.trans ht, heffect⟩

/-- A branch taken exactly when `p` fails has the two targets of `exec_branches_if` exchanged. -/
theorem exec_branches_unless (hexec : exec i s = branchIf c offset s) (hc : c = true ↔ ¬p) :
    ∃ t, exec i s = .next t ∧
      onlySetsPc s t (if p then s.pc + 4#32 else s.pc + offset.signExtend 32) := by
  rw [← ite_not]
  exact exec_branches_if hexec hc

end

/-! ### The conditions -/

section
variable {a b : Word}

theorem lessSigned_iff : lessSigned a b = true ↔ a.toInt < b.toInt := decide_eq_true_iff
theorem lessUnsigned_iff : lessUnsigned a b = true ↔ a.toNat < b.toNat := decide_eq_true_iff

/-- BGE is taken exactly when BLT is not (45_branch_instructions.md R194). -/
theorem geSigned_iff_not_less : geSigned a b = true ↔ ¬a.toInt < b.toInt := decide_eq_true_iff.trans not_lt.symm

/-- BGEU is taken exactly when BLTU is not (45_branch_instructions.md R196). -/
theorem geUnsigned_iff_not_less : geUnsigned a b = true ↔ ¬a.toNat < b.toNat := decide_eq_true_iff.trans not_lt.symm

end

/-! ### The settled statements -/

/-- Settles O37: the rows by their words, whose offset is even, and the two branches by their opposite conditions. -/
theorem equalityBranchResults : Obligations.EqualityBranchResults := by
  refine ⟨?beqRow, ?bneRow, fun rs1 rs2 offset s => ⟨?equal, ?unequal⟩⟩
  case beqRow =>
    exact rowDecodes_of_encode (fun _ h => wordB_of_masked h) evenOffset_fieldImmB (fun _ => beq_tinyRV2_iff) fun _ => rfl
  case bneRow =>
    exact rowDecodes_of_encode (fun _ h => wordB_of_masked h) evenOffset_fieldImmB
      (fun _ v => iff_of_true rfl (mem_versions v)) fun _ => rfl
  case equal => exact exec_branches_if (exec_beq rs1 rs2 offset s) beq_iff_eq
  case unequal => exact exec_branches_unless (exec_bne rs1 rs2 offset s) bne_iff_ne

/-- Settles O38: the rows by their words, whose offset is even, and BGE by the negation of BLT's condition. -/
theorem signedBranchResults : Obligations.SignedBranchResults := by
  refine ⟨?blt, ?bge, fun rs1 rs2 offset s => ⟨?less, ?notLess⟩⟩
  case blt | bge =>
    exact rowDecodes_of_encode (fun _ h => wordB_of_masked h) evenOffset_fieldImmB (fun _ => beq_tinyRV2_iff) fun _ => rfl
  case less => exact exec_branches_if (exec_blt rs1 rs2 offset s) lessSigned_iff
  case notLess => exact exec_branches_unless (exec_bge rs1 rs2 offset s) geSigned_iff_not_less

/-- Settles O39: the rows by their words, whose offset is even, and BGEU by the negation of BLTU's condition. -/
theorem unsignedBranchResults : Obligations.UnsignedBranchResults := by
  refine ⟨?bltu, ?bgeu, fun rs1 rs2 offset s => ⟨?less, ?notLess⟩⟩
  case bltu | bgeu =>
    exact rowDecodes_of_encode (fun _ h => wordB_of_masked h) evenOffset_fieldImmB (fun _ => beq_tinyRV2_iff) fun _ => rfl
  case less => exact exec_branches_if (exec_bltu rs1 rs2 offset s) lessUnsigned_iff
  case notLess => exact exec_branches_unless (exec_bgeu rs1 rs2 offset s) geUnsigned_iff_not_less

end Sys2Proof.Machine

/-! The settled statements of the family of pseudo-instructions: JR as a use of JALR (O36) and NOP as a use of ADDI (O59). -/

namespace Sys2Proof.Machine

/-- An instruction whose destination is x0 keeps every register (10_state.md R21). -/
theorem keepsRegs_of_destination_zero {i : Instr} {s t : State} (hd : destination i = some 0#5) (h : exec i s = .next t) :
    keepsRegs s t := by
  obtain ⟨-, -, hkeeps⟩ := zeroRegisterIsHardwired s
  exact hkeeps i t hd h

/-! ### JR -/

/-- The immediate 0 of JALR adds nothing to its base register (44_jump_instructions.md R182). -/
theorem add_imm12_zero (base : Word) : base + imm12 0#12 = base := by
  rw [show imm12 0#12 = 0#32 by decide, BitVec.add_zero]

/-- `jalr x0, rs1, 0` links nowhere: it only sets `pc`, on any machine (46_pseudo_instructions.md R201). -/
theorem exec_jalr_zero_next (rs1 : RegIdx) (s : State) :
    ∃ t, exec (.jalr 0#5 rs1 0#12) s = .next t ∧ onlySetsPc s t (s.getX rs1 &&& 0xFFFFFFFE#32) := by
  obtain ⟨t, ht, -, hpc, hkeep⟩ := linkAndJump_next 0#5 (clearBit0 (s.getX rs1 + imm12 0#12)) s
  rw [add_imm12_zero] at hpc
  have hexec : exec (.jalr 0#5 rs1 0#12) s = .next t := ht
  exact ⟨t, hexec, keepsRegs_of_destination_zero rfl hexec, hpc, hkeep⟩

/-- Settles O36: the two instructions share one word, which each version decodes to its own, and they share their meaning
on a TinyRV2 machine. -/
theorem jrIsJalrUnderTinyRV2 : Obligations.JrIsJalrUnderTinyRV2 := by
  intro rs1 s
  have hjr : decode .tinyRV1 (encode (.jr rs1)) = .ok (.jr rs1) := decode_tinyRV1_encode_jr rs1
  have hjalr : decode .tinyRV2 (encode (.jr rs1)) = .ok (.jalr 0#5 rs1 0#12) :=
    decode_eq_ok_iff.2 ⟨(encode_jr rs1).symm, rfl, rfl⟩
  exact ⟨rfl, hjr, hjalr, rfl, rfl, exec_jalr_zero_next rs1 s, fun hv => (exec_jalr_zero_eq_exec_jr hv).symm⟩

/-! ### NOP -/

/-- `addi x0, x0, 0` belongs to both versions (46_pseudo_instructions.md R200). -/
theorem nop_inVersion (v : IsaVersion) : (Instr.addi 0#5 0#5 0#12).inVersion v = true := by cases v <;> rfl

/-- Settles O59: the word by the encoder, which both versions invert, and the effect as that of an ADDI to x0. -/
theorem nopOnlyAdvances : Obligations.NopOnlyAdvances := by
  refine ⟨fun v => ?line, rfl, fun v => ?word, fun s => ?effect⟩
  case line => simp [assemble, assembleAny, nop_inVersion, Instr.wf]
  case word => exact decode_eq_ok_iff.2 ⟨rfl, rfl, nop_inVersion v⟩
  case effect =>
    obtain ⟨-, hadd⟩ := addImmediateResult
    obtain ⟨t, -, ht, ⟨-, hpc, hkeep⟩, -⟩ := hadd 0#5 0#5 0#12 s
    exact ⟨t, ht, keepsRegs_of_destination_zero rfl ht, hpc, hkeep⟩

end Sys2Proof.Machine

/-! The settled statements of the families of exceptions and of reset and hazards: the manager's turns and what they end (O46,
O48, O60), the end of a run (O44, O45), that a step faults and never is refused (O42, O43), and where reset starts (O50). -/

namespace Sys2Proof.Machine

/-! ### The manager's turns -/

/-- What a turn of the manager keeps: all of the state but the FIFOs and the turns left (60_exceptions.md R215, R225). -/
structure ManagerKeeps (s t : State) : Prop where
  regs : t.regs = s.regs
  pc : t.pc = s.pc
  mem : t.mem = s.mem
  stored : t.stored = s.stored
  statsEn : t.statsEn = s.statsEn
  sent : t.sent = s.sent
  cfg : t.cfg = s.cfg

section
variable {p : Snapshot → Bool} {s t : State}

theorem managerKeeps_managerEnqueue (s : State) (w : Word) (rest : List Turn) :
    ManagerKeeps s (managerEnqueue w (s.setAgenda rest)) := by
  constructor <;> simp

theorem managerKeeps_managerDequeue (s : State) (rest : List Turn) :
    ManagerKeeps s (managerDequeue (s.setAgenda rest)) := by
  constructor <;> rfl

theorem ManagerKeeps.keepsRegs (h : ManagerKeeps s t) : keepsRegs s t := getX_congr h.regs

theorem ManagerKeeps.keepsMem (h : ManagerKeeps s t) : keepsMem s t := ⟨fun _ => by rw [h.mem], h.stored⟩

/-- A turn of the manager leaves the next instruction of the processor as it was. -/
theorem ManagerKeeps.nextInstr_eq (h : ManagerKeeps s t) : nextInstr t = nextInstr s :=
  nextInstr_congr h.pc h.mem h.stored h.cfg

/-- A turn of the manager ends no run but by the user's own predicate (70_reset_and_hazards.md R252). -/
theorem ManagerKeeps.runEndedUnder_eq_false (h : ManagerKeeps s t) (hend : runEndedUnder p s = false)
    (hpred : s.cfg.endOfRun = .predicate → p t.snapshot = false) : runEndedUnder p t = false := by
  by_cases hchoice : s.cfg.endOfRun = .predicate
  · simp only [runEndedUnder, h.cfg, hchoice, hpred hchoice]
  · rw [runEndedUnder_congr_of_ne hchoice h.pc h.mem h.stored h.sent h.cfg, hend]

end

/-- Settles O46: the queue each turn changes by the manager's own operation, the rest by what a turn of the manager keeps. -/
theorem managerTurnResults : Obligations.ManagerTurnResults := by
  intro s rest hend
  refine ⟨fun w hagenda => ?enqueue, fun hagenda => ?dequeue⟩
  case enqueue =>
    have hkeep := managerKeeps_managerEnqueue s w rest
    exact ⟨_, stepUnder_enqueue hend hagenda, managerEnqueue_agenda _ w, managerEnqueue_mngr2procQ _ w,
      managerEnqueue_proc2mngrQ _ w, hkeep.sent, hkeep.keepsRegs, hkeep.pc, hkeep.keepsMem,
      hkeep.statsEn, hkeep.cfg⟩
  case dequeue =>
    have hkeep := managerKeeps_managerDequeue s rest
    exact ⟨_, stepUnder_dequeue hend hagenda, rfl, List.drop_one.symm, rfl, hkeep.sent, hkeep.keepsRegs, hkeep.pc,
      hkeep.keepsMem, hkeep.statsEn, hkeep.cfg⟩

/-! ### The end of a stall -/

/-- A processor that has a next instruction is stalled exactly when that waits (60_exceptions.md R226). -/
theorem stalled_of_nextInstr {s : State} {i : Instr} (h : nextInstr s = some i) : stalled s = waits i s := by
  simp only [stalled, h]

/-- A turn of the manager after which the next instruction no longer waits ends the stall: at the turn of the processor that
follows, the instruction is performed (60_exceptions.md R226). -/
theorem stall_ends {p : Snapshot → Bool} {s u t : State} {rest : List Turn} {i : Instr}
    (hend : runEndedUnder p s = false) (hmanager : stepUnder p s = .next u) (hkeep : ManagerKeeps s u)
    (hagenda : u.agenda = .processor :: rest) (hi : nextInstr s = some i) (hgoes : waits i u = false)
    (hexec : exec i (u.setAgenda rest) = .next t) :
    nextInstr u = nextInstr s ∧ stalled u = false ∧
      ((s.cfg.endOfRun = .predicate → p u.snapshot = false) →
        stepUnder p u = .next t ∧ runStepsUnder p 2 s = .next t) := by
  have hiu : nextInstr u = some i := hkeep.nextInstr_eq.trans hi
  refine ⟨hkeep.nextInstr_eq, (stalled_of_nextInstr hiu).trans hgoes, fun hpred => ?_⟩
  have hstep : stepUnder p u = .next t := by
    rw [stepUnder_of_nextInstr (hkeep.runEndedUnder_eq_false hend hpred) hagenda hiu, hexec]
  exact ⟨hstep, runStepsUnder_succ.2 ⟨u, hmanager, runStepsUnder_succ.2 ⟨t, hstep, rfl⟩⟩⟩

/-- The depths of a legal configuration are at least one word (10_state.md R33, R34). -/
theorem depth_pos_of_legal {c : Config} (h : c.legal = true) :
    (∀ d, c.mngr2procDepth = some d → 1 ≤ d) ∧ (∀ d, c.proc2mngrDepth = some d → 1 ≤ d) := by
  simp only [Config.legal, Bool.and_eq_true] at h
  obtain ⟨⟨-, hinput⟩, houtput⟩ := h
  exact ⟨fun d hd => by simpa [hd] using hinput, fun d hd => by simpa [hd] using houtput⟩

/-- `enqueue` into a FIFO with room appends the word (60_exceptions.md R226). -/
theorem managerEnqueue_of_ready {s : State} (w : Word) (rest : List Turn)
    (h : fifoReady s.mngr2procQ s.cfg.mngr2procDepth = true) :
    managerEnqueue w (s.setAgenda rest) = (s.setAgenda rest).setMngr2procQ (s.mngr2procQ ++ [w]) := if_pos h

/-- Settles O48: an empty FIFO has room for the word, and the CSRR that waited for it takes it. -/
theorem stallEndsWithAnEnqueue : Obligations.StallEndsWithAnEnqueue := by
  intro p s rd w rest hend hlegal hagenda hi hempty
  have hready : fifoReady s.mngr2procQ s.cfg.mngr2procDepth = true := by
    rw [hempty]; exact fifoReady_iff.2 (depth_pos_of_legal hlegal).1
  have henqueue : managerEnqueue w (s.setAgenda (.processor :: rest)) =
      (s.setAgenda (.processor :: rest)).setMngr2procQ [w] := by
    rw [managerEnqueue_of_ready w _ hready, hempty, List.nil_append]
  have hkeep := managerKeeps_managerEnqueue s w (.processor :: rest)
  have hmanager := stepUnder_enqueue hend hagenda
  rw [henqueue] at hkeep hmanager
  obtain ⟨hnext, hgoes, hrun⟩ := stall_ends hend hmanager hkeep rfl hi rfl
    (exec_csrr_of_done (csrRead_mngr2proc_cons rfl))
  refine ⟨(stalled_of_nextInstr hi).trans (by simp [waits, hempty]), _, hmanager, hnext, hgoes, fun hpred => ?_⟩
  obtain ⟨hstep, htwo⟩ := hrun hpred
  exact ⟨_, hstep, htwo, fun r => getX_setX _ rd r w, rfl, rfl, rfl, ⟨fun _ => rfl, rfl⟩, rfl, rfl, rfl, rfl⟩

/-- `dequeue` makes room: what is left of a FIFO within its depth has room for a word (60_exceptions.md R226). -/
theorem fifoReady_tail {q : List Word} {depth : Option Nat} (hpos : ∀ d, depth = some d → 1 ≤ d)
    (h : fifoWithin q depth = true) : fifoReady q.tail depth = true := by
  refine fifoReady_iff.2 fun d hd => ?_
  have hd1 := hpos d hd
  simp only [hd, fifoWithin, decide_eq_true_eq] at h
  rw [List.length_tail]
  omega

/-- Settles O60: the FIFO has room once its head is gone, and the CSRW that waited for that appends its word. -/
theorem stallEndsWithADequeue : Obligations.StallEndsWithADequeue := by
  intro p s rs1 rest hend hlegal hwithin hfull hagenda hi
  have hready : fifoReady s.proc2mngrQ.tail s.cfg.proc2mngrDepth = true :=
    fifoReady_tail (depth_pos_of_legal hlegal).2 hwithin
  have hmanager := stepUnder_dequeue hend hagenda
  obtain ⟨hnext, hgoes, hrun⟩ := stall_ends hend hmanager (managerKeeps_managerDequeue s _) rfl hi
    (by simp [waits, hready]) (exec_csrw_of_done (csrWrite_proc2mngr_of_ready _ hready))
  refine ⟨(stalled_of_nextInstr hi).trans (by simp [waits, hfull]), _, hmanager, hnext, hgoes, fun hpred => ?_⟩
  obtain ⟨hstep, htwo⟩ := hrun hpred
  exact ⟨_, hstep, htwo, by rw [List.drop_one]; rfl, rfl, fun _ => rfl, rfl, rfl, ⟨fun _ => rfl, rfl⟩, rfl, rfl, rfl⟩

/-! ### The end of a run -/

/-- A state that a step leaves as it is stays for any number of steps, whatever the user's predicate. -/
theorem runStepsUnder_of_step_self {p : Snapshot → Bool} {s : State} (h : stepUnder p s = .next s) (k : Nat) :
    runStepsUnder p k s = .next s := by
  induction k with
  | zero => rfl
  | succ k ih => exact runStepsUnder_succ.2 ⟨s, h, ih⟩

/-- Settles O44: a final state is a fixed point of the step. -/
theorem finalStateStays : Obligations.FinalStateStays := by
  intro p s k hend
  have hstays := runStepsUnder_of_step_self (stepUnder_of_ended hend) k
  refine ⟨hstays, ?_⟩
  rintro rfl
  exact hstays

/-- Where a run is not over, the step is that of the agent whose turn it is, whatever the user's predicate
(60_exceptions.md R226). -/
theorem stepUnder_of_not_ended {p : Snapshot → Bool} {s : State} (h : runEndedUnder p s = false) :
    stepUnder p s = takeTurn s := by
  rw [stepUnder, h, if_neg Bool.false_ne_true]

/-- One word decodes to `jal x0, 0`, in both versions (44_jump_instructions.md R180). -/
theorem decode_eq_jal_self_iff {v : IsaVersion} {w : Word} :
    decode v w = .ok (.jal 0#5 0#21) ↔ w = selfLoopWord := by
  have hword : encode (.jal 0#5 0#21) = selfLoopWord := by decide
  rw [decode_eq_ok_iff, hword]
  exact ⟨fun ⟨hw, _⟩ => hw.symm, fun hw => ⟨hw.symm, rfl, rfl⟩⟩

/-- A run that `jal x0, 0` ends is over exactly when that is the next instruction (70_reset_and_hazards.md R252). -/
theorem runEndedUnder_selfLoop {p : Snapshot → Bool} {s : State} (h : s.cfg.endOfRun = .selfLoop) :
    runEndedUnder p s = true ↔ nextInstr s = some (.jal 0#5 0#21) := by
  simp only [nextInstr_eq_some, decode_eq_jal_self_iff, runEndedUnder, h]
  cases fetch s <;> simp

/-- Settles O45: the four plain values by the definition, the self-loop by the decoder, and what the predicate sees and decides
by the laws of the end of a run. -/
theorem endOfRunInstances : Obligations.EndOfRunInstances := by
  intro p s
  refine ⟨fun h => ?predicate, fun h => ?never, fun a h => ?atPc, fun n h => ?afterWords, runEndedUnder_selfLoop,
    fun t hstate hcfg => runEndedUnder_congr hstate hcfg, fun q hp hq => ?sameStep, ?machineStep⟩
  case predicate => simp only [runEndedUnder, h]
  case never => simp only [runEndedUnder, h]
  case atPc => simp only [runEndedUnder, h, beq_iff_eq]
  case afterWords => simp only [runEndedUnder, h, decide_eq_true_eq]
  case sameStep => rw [stepUnder_of_not_ended hp, stepUnder_of_not_ended hq]
  case machineStep => rintro rfl; exact ⟨rfl, rfl⟩

/-! ### Faults, and no refusal -/

/-- JR completes, or faults on the odd target of a TinyRV1 machine (44_jump_instructions.md R181). -/
theorem exec_jr_cases (rs1 : RegIdx) (s : State) :
    (∃ t, exec (.jr rs1) s = .next t) ∨
    (s.cfg.isaVersion = .tinyRV1 ∧ exec (.jr rs1) s = .fault (.jrTargetOdd (s.getX rs1))) := by
  cases hv : s.cfg.isaVersion with
  | tinyRV2 => exact .inl ⟨_, exec_jr_tinyRV2 hv⟩
  | tinyRV1 =>
    cases hodd : (s.getX rs1).getLsbD 0 with
    | false => exact .inl ⟨_, (exec_jr_tinyRV1_next hv).2 ⟨hodd, rfl⟩⟩
    | true => exact .inr ⟨rfl, exec_jr_tinyRV1_of_odd hv hodd⟩

/-- Settles O42: the four accesses fault as memory and the CSRs do, JR on an odd target, and every other instruction
completes. -/
theorem executeFaultsAreTheClosedList : Obligations.ExecuteFaultsAreTheClosedList := by
  intro i s f h
  cases i
  case lw rd imm rs1 =>
    refine .inl ⟨rd, imm, rs1, effectiveAddress s rs1 imm, rfl, ?_⟩
    exact (memRead_fault.1 (exec_lw_fault.1 h)).imp (fun ⟨_, hf⟩ => hf) (fun ⟨_, _, hf⟩ => hf)
  case sw rs2 imm rs1 =>
    refine .inr (.inl ⟨rs2, imm, rs1, effectiveAddress s rs1 imm, rfl, ?_⟩)
    exact (memWrite_fault.1 (exec_sw_fault.1 h)).imp (fun ⟨_, hf⟩ => hf) (fun ⟨_, _, hf⟩ => hf)
  case csrr rd n =>
    refine .inr (.inr (.inl ⟨rd, n, rfl, ?_⟩))
    exact (csrRead_fault.1 (exec_csrr_fault.1 h)).symm.imp (fun ⟨_, hf⟩ => hf) (fun ⟨_, hf⟩ => hf)
  case csrw n rs1 =>
    refine .inr (.inr (.inr (.inl ⟨n, rs1, rfl, ?_⟩)))
    exact (csrWrite_fault.1 (exec_csrw_fault.1 h)).symm.imp (fun ⟨_, hf⟩ => hf) (fun ⟨_, hf⟩ => hf)
  case jr rs1 =>
    obtain ⟨t, ht⟩ | ⟨hv, hfault⟩ := exec_jr_cases rs1 s
    · cases ht.symm.trans h
    · cases hfault.symm.trans h
      exact .inr (.inr (.inr (.inr ⟨rs1, rfl, hv, rfl⟩)))
  all_goals cases h

/-- Every instruction has its meaning. -/
theorem exec_ne_refused (i : Instr) (s : State) (r : Refusal) : exec i s ≠ .refused r := by
  intro h
  cases i
  case lw | sw | csrr | csrw =>
    obtain ⟨v, u, -, hk⟩ := accessThen_refused.1 h
    cases hk
  case jr rs1 =>
    obtain ⟨t, ht⟩ | ⟨-, hfault⟩ := exec_jr_cases rs1 s
    · cases ht.symm.trans h
    · cases hfault.symm.trans h
  all_goals cases h

/-- A processor step is refused by none of fetch, decode and execute. -/
theorem processorStep_ne_refused (s : State) (r : Refusal) : processorStep s ≠ .refused r := by
  unfold processorStep
  split
  · simp [raiseFault]
  · split
    · simp [raiseFault]
    · exact exec_ne_refused _ s r

/-- A turn of the manager has a next state, and one of the processor is a processor step. -/
theorem takeTurn_ne_refused (s : State) (r : Refusal) : takeTurn s ≠ .refused r := by
  unfold takeTurn
  split
  · exact processorStep_ne_refused _ r
  · exact processorStep_ne_refused _ r
  · simp
  · simp

/-- Settles O43: a final state is repeated, and no turn is refused. -/
theorem stepIsAlwaysDefined : Obligations.StepIsAlwaysDefined := by
  intro s r
  rw [step_eq]
  split
  · simp
  · exact takeTurn_ne_refused s r

/-! ### Reset -/

/-- The first word fetched after reset is the one at the reset vector: it is an aligned address of memory, and nothing is
stored to yet (70_reset_and_hazards.md R240). -/
theorem fetch_resetWith (p : ResetParams) : fetch (State.resetWith p) = .ok (Memory.readWord p.memInit 0x200) := by
  obtain ⟨haligned, hrange⟩ := address_checks (addr := resetVector) (by decide) (by decide)
  exact fetch_ok.2 ⟨haligned, hrange, List.not_mem_nil, rfl⟩

/-- Settles O50: `pc` is the reset vector whatever the open values are, so also at `State.reset`. -/
theorem resetStartsAtTheResetVector : Obligations.ResetStartsAtTheResetVector :=
  ⟨fun p => ⟨resetWith_pc p, fetch_resetWith p⟩, resetWith_pc ResetParams.chosen⟩

end Sys2Proof.Machine
